-- ==== Sys2Proof/Word.lean ====
section
/-! DEFINITION. The word of the engine and the byte of a memory cell (`00_scope.md` R6, `20_memory.md` R101). -/

namespace Sys2Proof

/-- A word: 32 bits, read as a signed two's-complement integer unless a rule says "unsigned" (R6). -/
abbrev Word := BitVec 32

/-- A byte of a memory cell. No instruction and no host operation reaches one alone (R101). -/
abbrev Byte := BitVec 8

end Sys2Proof
end

