-- ==== Sys2Proof/Config.lean ====
section
/-! DEFINITION. What an implementation fixes: the parameters of `00_scope.md` R5, and what a byte of memory
that nothing has written reads as. -/

namespace Sys2Proof.Config

/-- `IMEM_WORDS`, words of instruction memory (R5). DESIGN CHOICE, unsafe for other sizes: the
default, log 1. -/
def imemWords : Nat := 1024

/-- `DMEM_WORDS`, words of data memory (R5). DESIGN CHOICE, unsafe for other sizes: the
default, log 1. -/
def dmemWords : Nat := 4096

/-- `TMEM_WORDS`, words of table memory (R5). DESIGN CHOICE, unsafe for other sizes: the
default, log 1. -/
def tmemWords : Nat := 4096

/-- What a byte of a memory that lists nothing for it reads as. R352 leaves the contents after power-on open;
`State.powerOn` takes them as an argument. DESIGN CHOICE, unsafe: log 2. -/
def unwrittenByte : Byte := 0

/-- The identity word, ASCII "LSP1" (`00_scope.md` R1, `10_state.md` R49). -/
def identity : Word := 0x4C535031#32

end Sys2Proof.Config
end

