-- ==== Sys2Proof/Syntax.lean ====
section
/-! DEFINITION. The 38 instructions of `30_encoding.md` R134, one constructor per row of `opcode_table.json`. -/

namespace Sys2Proof

/-- A scalar register R0 to R7, none of them hardwired (`10_state.md` R41). -/
abbrev SReg := Fin 8

/-- A vector register V0 to V7 (`10_state.md` R42). -/
abbrev VReg := Fin 8

/-- A stage of the vector quantizer, 0 to 7 (`41_vector_quantizer.md` R190). -/
abbrev StageNo := Fin 8

/-- A flag index 0 to 7: RF is 0, SAT is 1, MF is 2, the others name no flag (`10_state.md` R47). -/
abbrev FlagNo := Fin 8

/-- An instruction: its operands in the order of the fields A, B, C, D, E, then `imm16` or `csr8`
(`30_encoding.md` R131, R134). Every value of every operand has an encoding, so the types are exact. -/
inductive Instr where
  | nop
  | halt
  | li (rd : SReg) (imm : BitVec 16)
  | lih (rd : SReg) (imm : BitVec 16)
  | addi (rd ra : SReg) (imm : BitVec 16)
  | add (rd ra rb : SReg)
  | sub (rd ra rb : SReg)
  | mulq (rd ra rb : SReg)
  | bra (imm : BitVec 16)
  | bnz (rs : SReg) (imm : BitVec 16)
  | bz (rs : SReg) (imm : BitVec 16)
  | bfs (flag : FlagNo) (imm : BitVec 16)
  | bfc (flag : FlagNo) (imm : BitVec 16)
  | csrr (rd : SReg) (csr : BitVec 8)
  | csrw (rs : SReg) (csr : BitVec 8)
  | ldw (rd ra : SReg) (imm : BitVec 16)
  | stw (rs ra : SReg) (imm : BitVec 16)
  | vld (vd : VReg) (ra : SReg)
  | vst (vs : VReg) (ra : SReg)
  | vmov (vd va : VReg)
  | vzero (vd : VReg)
  | vadd (vd va vb : VReg)
  | vsub (vd va vb : VReg)
  | vlerp (vd va vb : VReg) (rw : SReg)
  | synrd (vd : VReg)
  | synwr (vs : VReg)
  | lsproot (vd va : VReg)
  | lsppoly (vd va : VReg)
  | lspmrg (vd : VReg) (rm : SReg)
  | vqw (vd va : VReg)
  | vqs (vd vw : VReg) (stage : StageNo)
  | vqa (vd : VReg) (stage : StageNo)
  | vqenc (vd vw : VReg)
  | vqdec (vd : VReg)
  | bwx (vd va : VReg) (rg : SReg)
  | fir (vm vc : VReg) (rs rd rn : SReg)
  | iir (vm vc : VReg) (rs rd rn : SReg)
  | syn (vc : VReg) (rs rd rn : SReg)
  deriving DecidableEq, Repr

end Sys2Proof
end

