-- ==== Sys2Proof/Machine/State.lean ====
section
/-! DEFINITION. The state of the engine (`10_state.md` R40), the inputs of its host, and the reset state
(`10_state.md` R75, `70_reset_and_hazards.md` R351, R352). -/

namespace Sys2Proof.Machine

open Sys2Proof

/-- A memory: (byte address, byte) pairs, the word at word address `a` in the bytes `4 * a` to `4 * a + 3`, bits 7 to
0 in the lowest (the wiring of `20_memory.md` R101; DESIGN CHOICE, safe: log 3). A byte not listed reads
`Config.unwrittenByte`. -/
abbrev Memory := List Host.Cell

/-- The 16 lanes of a vector register, or the 16 words of SYNMEM (R42, R44). -/
abbrev Lanes := Vector Word 16

/-- STATE (R46). -/
inductive RunState where
  | idle | running | halted | faulted
  deriving DecidableEq, Repr

/-- The 2-bit value of STATE (R46). -/
def RunState.code : RunState → BitVec 2
  | .idle => 0
  | .running => 1
  | .halted => 2
  | .faulted => 3

/-- A host operation: a read or a write through the host window (`20_memory.md` R104) or a reset, by `rst_n` or at
power-on (`70_reset_and_hazards.md` R350). DESIGN CHOICE, safe: the ports are not modelled as wires, log 12. -/
inductive HostOp where
  | hread (addr : BitVec 14)
  | hwrite (addr : BitVec 14) (value : Word)
  | reset
  deriving DecidableEq, Repr

/-- Whose step it is (`00_scope.md` R14). -/
inductive Turn where
  | engine
  | host (op : HostOp)
  deriving DecidableEq, Repr

/-- The architectural state of `10_state.md` R40, then two fields of the model's own. -/
structure State where
  /-- R0 to R7 (R41). -/
  r : Vector Word 8
  /-- V0 to V7 (R42). -/
  v : Vector Lanes 8
  /-- SYNMEM (R44). -/
  synmem : Lanes
  /-- PC (R45). -/
  pc : BitVec 16
  /-- STATE (R46). -/
  state : RunState
  /-- FLAGS bit 0, RF (R47). -/
  rf : Bool
  /-- FLAGS bit 1, SAT (R47). -/
  sat : Bool
  /-- FLAGS bit 2, MF (R47). -/
  mf : Bool
  /-- HERR, STATUS bit 4 (R51). -/
  herr : Bool
  /-- IEN (R53). -/
  ien : BitVec 2
  /-- ENTRY (R54). -/
  entry : BitVec 16
  /-- FCAUSE (R56). -/
  fcause : BitVec 4
  /-- FPC (R56). -/
  fpc : BitVec 16
  /-- FINFO (R56). -/
  finfo : Word
  /-- ORDER (R57). -/
  order : BitVec 5
  /-- GRID (R58). -/
  grid : BitVec 11
  /-- CDELTA (R59). -/
  cdelta : Word
  /-- ROOTCNT (R60). -/
  rootcnt : BitVec 5
  /-- WNUM (R61). -/
  wnum : Word
  /-- WOFF (R61). -/
  woff : Word
  /-- NSTG (R62). -/
  nstg : BitVec 4
  /-- SDBASE[0..7] (R64). -/
  sdbase : Vector (BitVec 16) 8
  /-- SDCFG[0..7] (R65). -/
  sdcfg : Vector (BitVec 23) 8
  /-- IDX[0..7] (R66). -/
  idx : Vector (BitVec 10) 8
  /-- IMEM (R71). -/
  imem : Memory
  /-- DMEM (R72). -/
  dmem : Memory
  /-- TMEM (R73). -/
  tmem : Memory
  /-- THE MODEL'S OWN: the coming steps of the two agents, whose order R14 leaves open; when it is empty every coming
  step is the engine's. DESIGN CHOICE, unsafe where a claim rests on the empty list: log 4. -/
  turns : List Turn
  /-- THE MODEL'S OWN: the word on the port `hrdata` (R354), the result of the latest `hread`. DESIGN CHOICE, unsafe for
  a claim about the port between two reads: log 5. -/
  hrdata : Word
  deriving DecidableEq, Repr

/-- The reasons a step stops with a fault: NONE. Every fault of the spec is taken as `60_exceptions.md` R314 says (a
next state with STATE = FAULTED), and nothing else stops the engine. DEDUCED, safe (no step is lost): log 9. -/
inductive Fault where
  deriving DecidableEq, Repr

/-- The reasons a step is refused. -/
inductive Refusal where
  /-- Raised by an arm of `exec` whose instruction has no meaning yet; no arm is left that raises it. Safe. -/
  | notModelled (mnemonic : String)
  deriving DecidableEq, Repr

/-- The machine after power is applied with `rst_n` asserted: every register at its reset value, the memories at the
contents the power-on left them, whatever they are (R351, R352). -/
def State.powerOn (imem dmem tmem : Memory) : State where
  r := Vector.replicate 8 0
  v := Vector.replicate 8 (Vector.replicate 16 0)
  synmem := Vector.replicate 16 0
  pc := 0
  state := .idle
  rf := false
  sat := false
  mf := false
  herr := false
  ien := 0
  entry := 0
  fcause := 0
  fpc := 0
  finfo := 0
  order := 0
  grid := 0
  cdelta := 0
  rootcnt := 0
  wnum := 0
  woff := 0
  nstg := 0
  sdbase := Vector.replicate 8 0
  sdcfg := Vector.replicate 8 0
  idx := Vector.replicate 8 0
  imem := imem
  dmem := dmem
  tmem := tmem
  turns := []
  hrdata := 0

/-- The machine right after reset (R75, R351): memory with nothing listed, and no turn listed
(DESIGN CHOICE, unsafe: logs 2, 4, 5). -/
def State.reset : State := State.powerOn [] [] []

end Sys2Proof.Machine
end

