-- ==== Sys2Proof/Machine/Arith.lean ====
section
/-! DEFINITION. The arithmetic of `00_scope.md` R8 to R11, exact integers narrowed explicitly. -/

namespace Sys2Proof.Machine

open Sys2Proof

/-- The largest and the smallest signed word (R6). -/
def maxWord : Int := 2147483647
def minWord : Int := -2147483648

/-- The integer value of `sat32` (R8). -/
def clamp32 (v : Int) : Int := if v > maxWord then maxWord else if v < minWord then minWord else v

/-- `sat32` (R8); whether it clamped, which is what sets SAT, is `clamps`. -/
def sat32 (v : Int) : Word := BitVec.ofInt 32 (clamp32 v)

/-- `sat32` clamps `v` (R8, the first two cases). -/
def clamps (v : Int) : Bool := decide (v > maxWord) || decide (v < minWord)

/-- `rnd16` (R9): `Int` division by a positive number is the floor. -/
def rnd16 (v : Int) : Int := (v + 32768) / 65536

/-- The exact value `mulq` saturates (R10). -/
def mulqExact (a b : Word) : Int := rnd16 (a.toInt * b.toInt)

/-- `mulq` (R10). -/
def mulq (a b : Word) : Word := sat32 (mulqExact a b)

/-- `wrap32` (R11). -/
def wrap32 (v : Int) : Word := BitVec.ofInt 32 v

/-- `floor(a / 2^n)`, the shift `a >> n` of R13. -/
def shiftRight (a : Int) (n : Nat) : Int := a / 2 ^ n

end Sys2Proof.Machine
end

