-- ==== Sys2Proof/Machine/Flags.lean ====
section
/-! DEFINITION. FLAGS: RF, SAT and MF (`10_state.md` R47, R52) and what reads and writes them. -/

namespace Sys2Proof.Machine

open Sys2Proof

/-- The flag of an index; indices 3 to 7 name bits that do not exist and read 0 (R47, R267). -/
def State.flag (s : State) (f : FlagNo) : Bool :=
  if f = 0 then s.rf else if f = 1 then s.sat else if f = 2 then s.mf else false

/-- The word a read of FLAGS returns (R52). -/
def State.flagsWord (s : State) : Word :=
  0#29 ++ BitVec.ofBool s.mf ++ BitVec.ofBool s.sat ++ BitVec.ofBool s.rf

/-- A write of FLAGS: bits [2:0] of the word, the rest ignored (R52, R270). -/
def State.setFlagsWord (w : Word) (s : State) : State :=
  { s with rf := w.getLsbD 0, sat := w.getLsbD 1, mf := w.getLsbD 2 }

/-- SAT is set when a `sat32` of the instruction clamped, and is sticky (`00_scope.md` R8, R47). -/
def State.orSat (clamped : Bool) (s : State) : State := { s with sat := s.sat || clamped }

/-- LSPROOT writes RF every time it completes (R47). -/
def State.setRf (failed : Bool) (s : State) : State := { s with rf := failed }

/-- LSPMRG writes MF every time it completes (R47). -/
def State.setMf (moved : Bool) (s : State) : State := { s with mf := moved }

end Sys2Proof.Machine
end

