-- ==== Sys2Proof/Machine/Memory.lean ====
section
/-! DEFINITION. The one representation of IMEM, DMEM and TMEM: sparse cells in canonical form, and word accesses built
from them in one place (`20_memory.md` R101, R102, R107, R108). -/

namespace Sys2Proof.Machine

open Sys2Proof

/-- One byte; an unlisted address reads `Config.unwrittenByte` (log 2). -/
def Memory.readByte : Memory → Nat → Byte
  | [], _ => Config.unwrittenByte
  | (b, x) :: rest, a => if a = b then x else Memory.readByte rest a

/-- List a byte at its place in the rising order, over what was listed there. -/
def Memory.insertByte (a : Nat) (x : Byte) : Memory → Memory
  | [] => [(a, x)]
  | (b, y) :: rest =>
    if a < b then (a, x) :: (b, y) :: rest
    else if a = b then (a, x) :: rest
    else (b, y) :: Memory.insertByte a x rest

/-- Write one byte; writing what an unlisted address reads as removes the entry, so equal memories are equal data. -/
def Memory.writeByte (m : Memory) (a : Nat) (x : Byte) : Memory :=
  if x = Config.unwrittenByte then m.filter (fun c => c.1 ≠ a) else Memory.insertByte a x m

/-- The canonical form: addresses strictly rising, no entry equal to what an unlisted address reads as. -/
abbrev Memory.wf (m : Memory) : Prop :=
  m.Pairwise (fun c c' => c.1 < c'.1) ∧ ∀ c ∈ m, c.2 ≠ Config.unwrittenByte

/-- Every listed byte lies in a memory of `words` words. -/
abbrev Memory.within (m : Memory) (words : Nat) : Prop := ∀ c ∈ m, c.1 < 4 * words

/-- The word at word address `a` (R101, R102). -/
def Memory.readWord (m : Memory) (a : Nat) : Word :=
  m.readByte (4 * a + 3) ++ m.readByte (4 * a + 2) ++ m.readByte (4 * a + 1) ++ m.readByte (4 * a)

/-- Store a word at word address `a` (R101, R107). -/
def Memory.writeWord (m : Memory) (a : Nat) (w : Word) : Memory :=
  (((m.writeByte (4 * a) (w.extractLsb' 0 8)).writeByte (4 * a + 1) (w.extractLsb' 8 8)).writeByte
    (4 * a + 2) (w.extractLsb' 16 8)).writeByte (4 * a + 3) (w.extractLsb' 24 8)

/-- `MemWrite` (R107): the words of a list at consecutive word addresses, in ascending order. -/
def Memory.writeBlock (m : Memory) (a : Nat) : List Word → Memory
  | [] => m
  | w :: ws => Memory.writeBlock (m.writeWord a w) (a + 1) ws

end Sys2Proof.Machine
end

