-- ==== Sys2Proof/Machine/Operands.lean ====
section
/-! DEFINITION. Operand forms: scalar registers, lanes, immediates, addresses and branch targets
(`30_encoding.md` R133, `10_state.md` R41 to R44, `44_sequencer_scalar.md` R271). -/

namespace Sys2Proof.Machine

open Sys2Proof

/-! ## Scalar registers and immediates -/

/-- `R[i]`, the one way a scalar register is read (R41). -/
def State.reg (s : State) (i : SReg) : Word := s.r[i]

/-- `R[i] <- w`, the one way a scalar register is written (R41: none is hardwired). -/
def State.setReg (i : SReg) (w : Word) (s : State) : State := { s with r := s.r.set i w }

/-- `sext_16(imm16)` as a word (`00_scope.md` R13). -/
def sext16 (imm : BitVec 16) : Word := BitVec.ofInt 32 imm.toInt

/-- `u32(R[i])`: a register used as an address or a count (R273 (d)). -/
def State.regNat (s : State) (i : SReg) : Nat := (s.reg i).toNat

/-- The word address `u32(wrap32(R[a] + sext_16(imm16)))` of LDW and STW (`20_memory.md` R106). -/
def State.loadStoreAddr (s : State) (ra : SReg) (imm : BitVec 16) : Nat :=
  (wrap32 ((s.reg ra).toInt + imm.toInt)).toNat

/-- The target of a branch at `pc` (R271): `(pc + 1 + sext_16(imm16)) mod 65536`. -/
def branchTarget (pc imm : BitVec 16) : BitVec 16 := BitVec.ofInt 16 (pc.toNat + 1 + imm.toInt)

/-! ## Vector registers -/

/-- `p`, the value of ORDER when the instruction starts (`00_scope.md` R13, R57). -/
def State.p (s : State) : Nat := s.order.toNat

/-- Word `k` of sixteen. The rules read `k` from 0 to 15 only. -/
def Lanes.word (x : Lanes) (k : Nat) : Word := x.getD k 0

/-- Word `k` of sixteen as a signed integer. -/
def Lanes.int (x : Lanes) (k : Nat) : Int := (x.word k).toInt

/-- `V[i]`. -/
def State.vec (s : State) (i : VReg) : Lanes := s.v[i]

/-- `V[i][k]` as a signed integer (`00_scope.md` R13). -/
def State.laneInt (s : State) (i : VReg) (k : Nat) : Int := (s.vec i).int k

/-- Lanes `lo` to `hi - 1` replaced, the others as they were. -/
def Lanes.update (x : Lanes) (lo hi : Nat) (f : Nat → Word) : Lanes :=
  Vector.ofFn fun k : Fin 16 => if lo ≤ k.val ∧ k.val < hi then f k.val else x[k]

/-- Replace the whole of `V[i]`. -/
def State.setVec (i : VReg) (x : Lanes) (s : State) : State := { s with v := s.v.set i x }

/-- Write lanes `lo` to `hi - 1` of `V[i]`; the sources are read from the state before the write. -/
def State.putLanes (i : VReg) (lo hi : Nat) (f : Nat → Word) (s : State) : State :=
  s.setVec i ((s.vec i).update lo hi f)

/-- Write `sat32` of exact integers to lanes `lo` to `hi - 1` of `V[i]`, setting SAT if any of them clamps
(`00_scope.md` R8). -/
def State.putSatLanes (i : VReg) (lo hi : Nat) (f : Nat → Int) (s : State) : State :=
  (s.putLanes i lo hi (fun k => sat32 (f k))).orSat
    ((List.range 16).any fun k => decide (lo ≤ k) && decide (k < hi) && clamps (f k))

end Sys2Proof.Machine
end

