-- ==== Sys2Proof/Machine/Stage.lean ====
section
/-! DEFINITION. Stage descriptors of the vector quantizer and the packed compound index
(`41_vector_quantizer.md` R190, R199). -/

namespace Sys2Proof.Machine

open Sys2Proof

/-- A decoded stage descriptor (R190). -/
structure StageDesc where
  base : Nat
  n : Nat
  off : Nat
  len : Nat
  wen : Bool
  ibits : Nat
  deriving DecidableEq, Repr

/-- `Desc(s)` (R190). -/
def State.desc (s : State) (st : StageNo) : StageDesc where
  base := s.sdbase[st].toNat
  n := (s.sdcfg[st].extractLsb' 0 10).toNat + 1
  off := (s.sdcfg[st].extractLsb' 10 4).toNat
  len := (s.sdcfg[st].extractLsb' 14 4).toNat + 1
  wen := s.sdcfg[st].getLsbD 18
  ibits := (s.sdcfg[st].extractLsb' 19 4).toNat

/-- Stages 0 to `min(n, 8) - 1` in ascending order. -/
def stagesBelow (n : Nat) : List StageNo := (List.finRange 8).filter (fun st => st.val < n)

/-- The stages the all-stage instructions run and CIDX packs (R62, R197 to R199). -/
def State.stages (s : State) : List StageNo := stagesBelow s.nstg.toNat

/-- `IDX[s]` (R66). -/
def State.idxNat (s : State) (st : StageNo) : Nat := s.idx[st].toNat

/-- CIDX (R199): stage 0 in the most significant position. -/
def State.cidx (s : State) : Nat :=
  (s.stages.foldl
    (fun v st => v * 2 ^ (s.desc st).ibits + s.idxNat st % 2 ^ (s.desc st).ibits) 0) % 2 ^ 64

end Sys2Proof.Machine
end

