-- ==== Sys2Proof/Machine/Csr.lean ====
section
/-! DEFINITION. The CSR space (`10_state.md` R48 to R70): the one map of its numbers, and the one read and the one
write that the program and the host share. -/

namespace Sys2Proof.Machine

open Sys2Proof

/-- The assigned CSRs (the table of R48). -/
inductive Csr where
  | id | ctrl | status | flags | ien | entry | pc | fcause | fpc | finfo
  | order | grid | cdelta | rootcnt | wnum | woff | nstg | cidxlo | cidxhi
  | sdbase (st : StageNo) | sdcfg (st : StageNo) | idx (st : StageNo)
  | synmem (k : Fin 16) | scalar (i : SReg) | lane (i : VReg) (k : Fin 16)
  deriving DecidableEq, Repr

/-- CSR numbers 0x00 to 0x1F (R48, R70). -/
def csrLow : Nat → Option Csr
  | 0x00 => some .id
  | 0x01 => some .ctrl
  | 0x02 => some .status
  | 0x03 => some .flags
  | 0x04 => some .ien
  | 0x05 => some .entry
  | 0x06 => some .pc
  | 0x07 => some .fcause
  | 0x08 => some .fpc
  | 0x09 => some .finfo
  | 0x0A => some .order
  | 0x0B => some .grid
  | 0x0C => some .cdelta
  | 0x0D => some .rootcnt
  | 0x0E => some .wnum
  | 0x0F => some .woff
  | 0x10 => some .nstg
  | 0x11 => some .cidxlo
  | 0x12 => some .cidxhi
  | _ => none

/-- The CSR of a number, none where the number is unassigned (R48, R70). -/
def csrOf (csr : BitVec 8) : Option Csr :=
  let n := csr.toNat
  if n < 0x20 then csrLow n
  else if n < 0x28 then some (.sdbase (Fin.ofNat 8 n))
  else if n < 0x30 then some (.sdcfg (Fin.ofNat 8 n))
  else if n < 0x38 then some (.idx (Fin.ofNat 8 n))
  else if n < 0x40 then none
  else if n < 0x50 then some (.synmem (Fin.ofNat 16 n))
  else if n < 0x58 then some (.scalar (Fin.ofNat 8 n))
  else if n < 0x80 then none
  else some (.lane (Fin.ofNat 8 (n / 16)) (Fin.ofNat 16 n))

/-- A program may write the CSR: it is RW in the table of R48, so neither RO nor CTRL. -/
def Csr.writable : Csr → Bool
  | .id | .ctrl | .status | .pc | .fcause | .fpc | .finfo | .rootcnt | .cidxlo | .cidxhi => false
  | .flags | .ien | .entry | .order | .grid | .cdelta | .wnum | .woff | .nstg
  | .sdbase _ | .sdcfg _ | .idx _ | .synmem _ | .scalar _ | .lane _ _ => true

/-- The interrupt output `irq`, a level (`60_exceptions.md` R320). -/
def State.irq (s : State) : Bool :=
  (s.ien.getLsbD 0 && s.state == .halted) || (s.ien.getLsbD 1 && s.state == .faulted)

/-- STATUS (R51): STATE in [1:0], HERR in [4], the level of `irq` in [8]. -/
def State.statusWord (s : State) : Word :=
  0#23 ++ BitVec.ofBool s.irq ++ 0#3 ++ BitVec.ofBool s.herr ++ 0#2 ++ s.state.code

/-- `CsrRead` (`44_sequencer_scalar.md` R269, R48): a register in the low bits, 0 above. -/
def readCsr (c : Csr) (s : State) : Word :=
  match c with
  | .id => Config.identity
  | .ctrl => 0
  | .status => s.statusWord
  | .flags => s.flagsWord
  | .ien => s.ien.setWidth 32
  | .entry => s.entry.setWidth 32
  | .pc => s.pc.setWidth 32
  | .fcause => s.fcause.setWidth 32
  | .fpc => s.fpc.setWidth 32
  | .finfo => s.finfo
  | .order => s.order.setWidth 32
  | .grid => s.grid.setWidth 32
  | .cdelta => s.cdelta
  | .rootcnt => s.rootcnt.setWidth 32
  | .wnum => s.wnum
  | .woff => s.woff
  | .nstg => s.nstg.setWidth 32
  | .cidxlo => BitVec.ofNat 32 s.cidx
  | .cidxhi => BitVec.ofNat 32 (s.cidx / 2 ^ 32)
  | .sdbase st => s.sdbase[st].setWidth 32
  | .sdcfg st => s.sdcfg[st].setWidth 32
  | .idx st => s.idx[st].setWidth 32
  | .synmem k => s.synmem[k]
  | .scalar i => s.reg i
  | .lane i k => (s.vec i)[k]

/-- `CsrWrite` (`44_sequencer_scalar.md` R270, R48): the low bits are stored as they are, the others ignored. A CSR that
no write reaches is unchanged; who refuses or faults such a write is R105 and R336. SYNMEM is written here
(R67, R270) though R44 names only SYN and SYNWR: DEDUCED, unsafe, log 8. -/
def writeCsr (c : Csr) (w : Word) (s : State) : State :=
  match c with
  | .flags => s.setFlagsWord w
  | .ien => { s with ien := w.setWidth 2 }
  | .entry => { s with entry := w.setWidth 16 }
  | .order => { s with order := w.setWidth 5 }
  | .grid => { s with grid := w.setWidth 11 }
  | .cdelta => { s with cdelta := w }
  | .wnum => { s with wnum := w }
  | .woff => { s with woff := w }
  | .nstg => { s with nstg := w.setWidth 4 }
  | .sdbase st => { s with sdbase := s.sdbase.set st (w.setWidth 16) }
  | .sdcfg st => { s with sdcfg := s.sdcfg.set st (w.setWidth 23) }
  | .idx st => { s with idx := s.idx.set st (w.setWidth 10) }
  | .synmem k => { s with synmem := s.synmem.set k w }
  | .scalar i => s.setReg i w
  | .lane i k => s.setVec i ((s.vec i).set k w)
  | .id | .ctrl | .status | .pc | .fcause | .fpc | .finfo | .rootcnt | .cidxlo | .cidxhi => s

end Sys2Proof.Machine
end

