-- ==== Sys2Proof/Machine/Ops.lean ====
section
/-! DEFINITION. The shared operations of an instruction: its faults and their entry (`60_exceptions.md` R311 to R315),
the way out of FAULTED (R316, R328), how an instruction ends, the checks that several instructions make, and
`Reset()` (`70_reset_and_hazards.md` R351). -/

namespace Sys2Proof.Machine

open Sys2Proof

/-! ## Faults of the spec, taken as a next state -/

/-- The synchronous fault causes with what FINFO reports of each (R311). -/
inductive Trap where
  /-- The word (R330). -/
  | illegalInstruction (w : Word)
  /-- The PC (R331). -/
  | imemRange (pc : BitVec 16)
  /-- The address (R332). -/
  | dmemRange (addr : Nat)
  /-- The last TMEM address of the codebook (R333). -/
  | tmemRange (last : Nat)
  /-- ORDER (R334). -/
  | badOrder (order : BitVec 5)
  /-- The sub-code (R335). -/
  | badParam (sub : Nat)
  /-- The CSR number (R336). -/
  | csrAccess (csr : BitVec 8)
  /-- The stage and its IDX (R337). -/
  | idxRange (st : StageNo) (idx : BitVec 10)
  deriving DecidableEq, Repr

/-- The cause code (R311). -/
def Trap.code : Trap → BitVec 4
  | .illegalInstruction _ => 1
  | .imemRange _ => 2
  | .dmemRange _ => 3
  | .tmemRange _ => 4
  | .badOrder _ => 5
  | .badParam _ => 6
  | .csrAccess _ => 7
  | .idxRange _ _ => 8

/-- The value FINFO receives (R311). -/
def Trap.info : Trap → Word
  | .illegalInstruction w => w
  | .imemRange pc => pc.setWidth 32
  | .dmemRange addr => BitVec.ofNat 32 addr
  | .tmemRange last => BitVec.ofNat 32 last
  | .badOrder order => order.setWidth 32
  | .badParam sub => BitVec.ofNat 32 sub
  | .csrAccess csr => csr.setWidth 32
  | .idxRange st idx => BitVec.ofNat 32 (st.val * 65536 + idx.toNat)

/-- `FaultEntry(c, v)` (R314): FCAUSE, FPC, FINFO and STATE are written, nothing else. -/
def recordFault (cause : BitVec 4) (info : Word) (s : State) : State :=
  { s with fcause := cause, fpc := s.pc, finfo := info, state := .faulted }

/-- Taking a synchronous fault (R314). -/
def takeFault (t : Trap) (s : State) : State := recordFault t.code t.info s

/-- The host's way out of HALTED or FAULTED, the CLR command's second half (R316, R328). The engine has no return
instruction. -/
def clearRun (s : State) : State :=
  { s with state := .idle, fcause := 0, fpc := 0, finfo := 0 }

/-- `Reset()` (R351): every register to its reset value; the memories are not touched. The inputs still to come and the
port `hrdata` are no registers (DESIGN CHOICE, unsafe for a claim about that port after a reset: log 10). -/
def State.resetRegisters (s : State) : State :=
  { State.powerOn s.imem s.dmem s.tmem with turns := s.turns, hrdata := s.hrdata }

/-! ## How an instruction ends -/

/-- The instruction does not branch: `PC <- (PC + 1) mod 65536` (R45, R255). -/
def State.advance (s : State) : State := { s with pc := s.pc + 1 }

/-- A taken branch (R271). -/
def State.branch (imm : BitVec 16) (s : State) : State := { s with pc := branchTarget s.pc imm }

/-- Every check of an instruction precedes every write it makes (R315): the first fault that applies is taken on the
state as it was, or the whole effect happens. -/
def finish (trap : Option Trap) (effect : State → State) (s : State) : Host.Outcome State Fault Refusal :=
  match trap with
  | some t => .next (takeFault t s)
  | none => .next (effect s)

/-! ## Checks -/

/-- The common ORDER check (`45_vector_memory.md` R299). -/
def orderTrap (s : State) : Option Trap :=
  if s.p < 1 ∨ s.p > 16 then some (.badOrder s.order) else none

/-- The ORDER check of LSPROOT and LSPPOLY (`40_lsp_transform.md` R164, R166). -/
def evenOrderTrap (s : State) : Option Trap :=
  if s.p < 2 ∨ s.p > 16 ∨ s.p % 2 = 1 then some (.badOrder s.order) else none

/-- The range check of one DMEM word (`20_memory.md` R106). -/
def wordTrap (addr : Nat) : Option Trap :=
  if addr ≥ Config.dmemWords then some (.dmemRange addr) else none

/-- The range check of a block of DMEM words (`20_memory.md` R106). -/
def blockTrap (base cnt : Nat) : Option Trap :=
  if base + cnt > Config.dmemWords then some (.dmemRange (max base Config.dmemWords)) else none

/-- `StageCheck(s)` (`41_vector_quantizer.md` R191). -/
def stageTrap (s : State) (st : StageNo) : Option Trap :=
  let d := s.desc st
  if d.off + d.len > s.p then some (.badParam (3 + 256 * st.val))
  else if d.base + d.n * d.len > Config.tmemWords then some (.tmemRange (d.base + d.n * d.len - 1))
  else none

/-- The index check of VQA and VQDEC (`41_vector_quantizer.md` R196, R198). -/
def idxTrap (s : State) (st : StageNo) : Option Trap :=
  if s.idxNat st ≥ (s.desc st).n then some (.idxRange st s.idx[st]) else none

/-- The check of NSTG (`41_vector_quantizer.md` R197, R198). -/
def nstgTrap (s : State) : Option Trap :=
  if s.nstg.toNat > 8 then some (.badParam 4) else none

/-- The checks of a filter (`42_weighting_filters.md` R223): ORDER, the source block, the destination block. -/
def filterTrap (s : State) (rs rd rn : SReg) : Option Trap :=
  (orderTrap s).or ((blockTrap (s.regNat rs) (s.regNat rn)).or (blockTrap (s.regNat rd) (s.regNat rn)))

end Sys2Proof.Machine
end

