-- ==== Sys2Proof/Machine/Filter.lean ====
section
/-! DEFINITION. The filters: BWX, FIR, IIR (`42_weighting_filters.md` R221 to R225) and SYN, SYNRD, SYNWR
(`43_synthesis_filter.md` R240 to R242). One sample loop serves FIR, IIR and SYN. -/

namespace Sys2Proof.Machine

open Sys2Proof

/-! ## Bandwidth expansion -/

/-- The loop of BWX (R221) over the source lanes that are left: the exact products to saturate, and whether a power of
gamma clamped on the way, the last one (computed and discarded) among them. -/
def bwxLoop (gamma : Word) : Word → List Word → List Int × Bool
  | _, [] => ([], false)
  | gp, a :: rest =>
    let tail := bwxLoop gamma (mulq gp gamma) rest
    (mulqExact a gp :: tail.1, clamps (mulqExact gp gamma) || tail.2)

/-- BWX (R221). -/
def execBwx (vd va : VReg) (rg : SReg) (s : State) : Host.Outcome State Fault Refusal :=
  finish (orderTrap s)
    (fun s =>
      let run := bwxLoop (s.reg rg) (s.reg rg) ((List.range s.p).map (s.vec va).word)
      ((s.putSatLanes vd 0 s.p (fun k => run.1.getD k 0)).orSat run.2).advance) s

/-! ## The sample loop -/

/-- `numerator` is `A(z)`, whose memory holds past inputs (R223); `denominator` is `1 / A(z)`, whose memory holds past
outputs (R224, R240). -/
inductive FilterKind where
  | numerator | denominator
  deriving DecidableEq, Repr

/-- What the sample loop of a filter changes: the filter memory, DMEM and SAT. -/
structure FilterState where
  mem : Lanes
  dmem : Memory
  sat : Bool
  deriving DecidableEq, Repr

/-- `sum over k = 0..p-1 of coef[k] * mem[k]`, an exact integer (R223, R224, R240). -/
def macSum (p : Nat) (coef mem : Lanes) : Int := ((List.range p).map (fun k => coef.int k * mem.int k)).sum

/-- Shift lanes 0 to `p - 1` up by one and put the newest word in lane 0 (R223). -/
def shiftIn (p : Nat) (w : Word) (mem : Lanes) : Lanes :=
  mem.update 0 p (fun k => if k = 0 then w else mem.word (k - 1))

/-- The exact output of one sample, before `sat32` (R223, R224, R240). -/
def filterExact (kind : FilterKind) (p : Nat) (coef mem : Lanes) (x : Word) : Int :=
  match kind with
  | .numerator => x.toInt + rnd16 (macSum p coef mem)
  | .denominator => x.toInt - rnd16 (macSum p coef mem)

/-- One sample: read the input word, compute, shift the memory, write the output word (R223, R224, R225). -/
def filterSample (kind : FilterKind) (p : Nat) (coef : Lanes) (src dst : Nat) (f : FilterState) : FilterState :=
  let x := f.dmem.readWord src
  let e := filterExact kind p coef f.mem x
  { mem := shiftIn p (match kind with | .numerator => x | .denominator => sat32 e) f.mem
    dmem := f.dmem.writeWord dst (sat32 e)
    sat := f.sat || clamps e }

/-- `cnt` samples from word `src` on, results to word `dst` on, `t` ascending (R223, R224, R240). -/
def filterRun (kind : FilterKind) (p : Nat) (coef : Lanes) : Nat → Nat → Nat → FilterState → FilterState
  | 0, _, _, f => f
  | cnt + 1, src, dst, f => filterRun kind p coef cnt (src + 1) (dst + 1) (filterSample kind p coef src dst f)

/-- The whole run of a filter instruction from a state: the coefficients are a snapshot of `V[vc]` (R225 (e)). -/
def State.filter (s : State) (kind : FilterKind) (mem : Lanes) (vc : VReg) (rs rd rn : SReg) : FilterState :=
  filterRun kind s.p (s.vec vc) (s.regNat rn) (s.regNat rs) (s.regNat rd) ⟨mem, s.dmem, s.sat⟩

/-- A run whose memory is the register `V[vm]` (R222). -/
def State.filterVec (kind : FilterKind) (vm vc : VReg) (rs rd rn : SReg) (s : State) : State :=
  let f := s.filter kind (s.vec vm) vc rs rd rn
  { s.setVec vm f.mem with dmem := f.dmem, sat := f.sat }

/-- FIR (R223). -/
def execFir (vm vc : VReg) (rs rd rn : SReg) (s : State) : Host.Outcome State Fault Refusal :=
  finish (filterTrap s rs rd rn) (fun s => (s.filterVec .numerator vm vc rs rd rn).advance) s

/-- IIR (R224). -/
def execIir (vm vc : VReg) (rs rd rn : SReg) (s : State) : Host.Outcome State Fault Refusal :=
  finish (filterTrap s rs rd rn) (fun s => (s.filterVec .denominator vm vc rs rd rn).advance) s

/-! ## The synthesis unit -/

/-- SYN (R240): the denominator with SYNMEM as its memory. -/
def execSyn (vc : VReg) (rs rd rn : SReg) (s : State) : Host.Outcome State Fault Refusal :=
  finish (filterTrap s rs rd rn)
    (fun s =>
      let f := s.filter .denominator s.synmem vc rs rd rn
      { s with synmem := f.mem, dmem := f.dmem, sat := f.sat }.advance) s

/-- SYNRD (R241). -/
def execSynrd (vd : VReg) (s : State) : Host.Outcome State Fault Refusal :=
  finish (orderTrap s) (fun s => (s.putLanes vd 0 s.p s.synmem.word).advance) s

/-- SYNWR (R242). -/
def execSynwr (vs : VReg) (s : State) : Host.Outcome State Fault Refusal :=
  finish (orderTrap s) (fun s => { s with synmem := s.synmem.update 0 s.p (s.vec vs).word }.advance) s

end Sys2Proof.Machine
end

