-- ==== Sys2Proof/Machine/Lsp.lean ====
section
/-! DEFINITION. The LSP unit: LSPROOT, LSPPOLY, LSPMRG (`40_lsp_transform.md` R160 to R168). -/

namespace Sys2Proof.Machine

open Sys2Proof

/-! ## The cosine (R160) -/

/-- `t` clamped to 0 to 65536 (the first two lines of R160). -/
def clampAngle (t : Int) : Int := if t < 0 then 0 else if t > 65536 then 65536 else t

/-- The even polynomial of R160 for an angle of the first quadrant, 0 to 32768. -/
def cosQuadrant (t : Int) : Int :=
  let u := t * t
  let c := 239179831
  let c := 1431634204 - shiftRight (c * u) 32
  let c := 4357904630 - shiftRight (c * u) 32
  let c := 5298702701 - shiftRight (c * u) 32
  let c := 1073741824 - shiftRight (c * u) 32
  shiftRight (c + 8192) 14

/-- `cosfx` (R160): angles above pi/2 are reflected. -/
def cosfx (t : Int) : Int :=
  if clampAngle t > 32768 then -cosQuadrant (65536 - clampAngle t) else cosQuadrant (clampAngle t)

/-! ## The two polynomials (R161, R162) -/

/-- `f[i]` of `PQcoefs` (R161), `a i` being lane `i`. -/
def symCoef (a : Nat → Int) (p : Nat) : Nat → Int
  | 0 => 65536
  | i + 1 => a i + a (p - 1 - i) - symCoef a p i

/-- `g[i]` of `PQcoefs` (R161). -/
def antiCoef (a : Nat → Int) (p : Nat) : Nat → Int
  | 0 => 65536
  | i + 1 => a i - a (p - 1 - i) + antiCoef a p i

/-- Half-coefficients in the order `Eval` meets them: `c[m], c[m-1], ..., c[0]`. -/
def halfCoefs (c : Nat → Int) (m : Nat) : List Int := (List.range (m + 1)).reverse.map c

/-- The loop of `Eval` for `n = 2` to `m` (R162) over the coefficients `c[m-2], ..., c[0]`. -/
def evalLoop (x : Int) : List Int → Int → Int → Int → Int
  | [], _, _, acc => acc
  | c :: rest, t0, t1, acc =>
    let tn := rnd16 (2 * x * t1) - t0
    evalLoop x rest t1 tn (acc + 2 * c * tn)

/-- `Eval` (R162) of half-coefficients `c[m], ..., c[0]` at the angle `t`. -/
def evalPoly (coefs : List Int) (t : Int) : Int :=
  match coefs with
  | [] => 0
  | [cm] => cm * 65536
  | cm :: cm1 :: rest => evalLoop (cosfx t) rest 65536 (cosfx t) (cm * 65536 + 2 * cm1 * cosfx t)

/-- `neg` (R162): zero is not negative. -/
def neg (v : Int) : Bool := decide (v < 0)

/-- The grid point `theta(k)` (R163). -/
def gridPoint (g k : Nat) : Nat := k * 65536 / g

/-! ## LSPROOT (R164) -/

/-- Bisection: the final interval. The first argument bounds the halvings; 17 are never used up, an interval being at
most 65536 wide (R165 (b), (c); DEDUCED, safe: log 11). -/
def bisect (coefs : List Int) (delta : Nat) : Nat → Nat → Nat → Int → Nat × Nat
  | 0, lo, hi, _ => (lo, hi)
  | fuel + 1, lo, hi, vlo =>
    if hi - lo > delta then
      let tm := (lo + hi) / 2
      let vm := evalPoly coefs tm
      if neg vm = neg vlo then bisect coefs delta fuel tm hi vm else bisect coefs delta fuel lo tm vlo
    else (lo, hi)

/-- The root reported for a cell with a sign change: the midpoint of the final interval, rounded down. -/
def rootOf (coefs : List Int) (delta lo hi : Nat) (vlo : Int) : Nat :=
  let final := bisect coefs delta 17 lo hi vlo
  (final.1 + final.2) / 2

/-- The walk over the cells that are left (`left = G + 1 - k`): the root found and the cell it was found in. -/
def findRoot (coefs : List Int) (g delta : Nat) : Nat → Nat → Nat → Int → Option (Nat × Nat)
  | 0, _, _, _ => none
  | left + 1, k, tl, vl =>
    let tr := gridPoint g k
    let vr := evalPoly coefs tr
    if neg vl ≠ neg vr then some (rootOf coefs delta tl tr vl, k)
    else findRoot coefs g delta left (k + 1) tr vr

/-- The searches `j = 0` to `p - 1`, F and G in turn (`next` is searched first), each from where the last root was
found; the roots found before the grid was exhausted, in order. -/
def findRoots (g delta : Nat) : Nat → List Int → List Int → Nat → Nat → List Nat
  | 0, _, _, _, _ => []
  | todo + 1, next, other, tl, k =>
    match findRoot next g delta (g + 1 - k) k tl (evalPoly next tl) with
    | none => []
    | some (root, k') => root :: findRoots g delta todo other next root k'

/-- The roots LSPROOT finds for the coefficients in `V[va]` under ORDER, GRID and CDELTA. -/
def State.lspRoots (s : State) (va : VReg) : List Nat :=
  let a := s.laneInt va
  let m := s.p / 2
  findRoots s.grid.toNat (max 1 s.cdelta.toInt).toNat s.p
    (halfCoefs (symCoef a s.p) m) (halfCoefs (antiCoef a s.p) m) 0 1

/-- The check of GRID (R164). -/
def gridTrap (s : State) : Option Trap :=
  if s.grid.toNat < 1 ∨ s.grid.toNat > 1024 then some (.badParam 1) else none

/-- What LSPROOT writes once it has searched: ROOTCNT and RF always, the destination only with all `p` roots. -/
def State.putRoots (vd : VReg) (roots : List Nat) (s : State) : State :=
  let counted := { s with rootcnt := BitVec.ofNat 5 roots.length }.setRf (roots.length ≠ s.p)
  if roots.length = s.p then counted.putLanes vd 0 s.p (fun k => BitVec.ofNat 32 (roots.getD k 0)) else counted

/-- LSPROOT (R164). -/
def execLsproot (vd va : VReg) (s : State) : Host.Outcome State Fault Refusal :=
  finish ((evenOrderTrap s).or (gridTrap s)) (fun s => (s.putRoots vd (s.lspRoots va)).advance) s

/-! ## LSPPOLY (R166) -/

/-- One factor `(1 - 2 x z^-1 + z^-2)` of `Expand` (R166). -/
def expandStep (poly : List Int) (x : Int) : List Int :=
  (List.range poly.length).map fun k =>
    poly.getD k 0 - (if k ≥ 1 then rnd16 (2 * x * poly.getD (k - 1) 0) else 0)
      + (if k ≥ 2 then poly.getD (k - 2) 0 else 0)

/-- `Expand` (R166): `p + 1` coefficients. -/
def expand (p : Nat) (xs : List Int) : List Int := xs.foldl expandStep (65536 :: List.replicate p 0)

/-- The cosines of the lanes `first, first + 2, ...` below `p` of an LSP vector (R166). -/
def cosinesFrom (s : State) (va : VReg) (first : Nat) : List Int :=
  (List.range (s.p / 2)).map fun i => cosfx (s.laneInt va (2 * i + first))

/-- The exact value LSPPOLY saturates for coefficient `k` (R166). -/
def polyCoef (pp qp : List Int) (k : Nat) : Int :=
  shiftRight (pp.getD k 0 + pp.getD (k - 1) 0 + qp.getD k 0 - qp.getD (k - 1) 0 + 1) 1

/-- LSPPOLY (R166). Its `sat32` follows R8 like every other; that it never clamps is R166's own claim
(DEDUCED, safe: log 13). -/
def execLsppoly (vd va : VReg) (s : State) : Host.Outcome State Fault Refusal :=
  finish (evenOrderTrap s)
    (fun s =>
      let pp := expand s.p (cosinesFrom s va 0)
      let qp := expand s.p (cosinesFrom s va 1)
      (s.putSatLanes vd 0 s.p (fun k => polyCoef pp qp (k + 1))).advance) s

/-! ## LSPMRG (R167) -/

/-- The upward walk: `lo` is the least value the next lane may hold. -/
def upwardWalk (m : Int) : Int → List Int → List Int
  | _, [] => []
  | lo, x :: rest =>
    let y := if x < lo then lo else x
    y :: upwardWalk m (y + m) rest

/-- The downward walk over the lanes from the last to the first: `hi` is the largest value the next one may hold. -/
def downwardWalk (m : Int) : Int → List Int → List Int
  | _, [] => []
  | hi, x :: rest =>
    let y := if x > hi then hi else x
    y :: downwardWalk m (y - m) rest

/-- Both walks (R167). -/
def enforceMargin (m : Int) (xs : List Int) : List Int :=
  (downwardWalk m (65536 - m) (upwardWalk m m xs).reverse).reverse

/-- The check of the margin (R167). -/
def marginTrap (s : State) (rm : SReg) : Option Trap :=
  if (s.reg rm).toInt < 1 ∨ (s.p + 1) * (s.reg rm).toInt > 65536 then some (.badParam 2) else none

/-- Lanes 0 to `p - 1` of `V[i]` as signed integers. -/
def State.activeInts (s : State) (i : VReg) : List Int := (List.range s.p).map (s.laneInt i)

/-- LSPMRG (R167): MF is 1 if any lane changed. -/
def execLspmrg (vd : VReg) (rm : SReg) (s : State) : Host.Outcome State Fault Refusal :=
  finish ((orderTrap s).or (marginTrap s rm))
    (fun s =>
      let new := enforceMargin (s.reg rm).toInt (s.activeInts vd)
      ((s.putLanes vd 0 s.p (fun k => BitVec.ofInt 32 (new.getD k 0))).setMf (new ≠ s.activeInts vd)).advance) s

end Sys2Proof.Machine
end

