-- ==== Sys2Proof/Machine/Scalar.lean ====
section
/-! DEFINITION. The sequencer and scalar instructions (`44_sequencer_scalar.md` R256 to R272). -/

namespace Sys2Proof.Machine

open Sys2Proof

/-- NOP (R256). -/
def execNop (s : State) : Host.Outcome State Fault Refusal :=
  finish none State.advance s

/-- HALT (R257): PC keeps the address of the HALT. -/
def execHalt (s : State) : Host.Outcome State Fault Refusal :=
  finish none (fun s => { s with state := .halted }) s

/-- LI (R258). -/
def execLi (rd : SReg) (imm : BitVec 16) (s : State) : Host.Outcome State Fault Refusal :=
  finish none (fun s => (s.setReg rd (sext16 imm)).advance) s

/-- LIH (R259): the high half replaced, the low half kept. -/
def execLih (rd : SReg) (imm : BitVec 16) (s : State) : Host.Outcome State Fault Refusal :=
  finish none (fun s => (s.setReg rd (imm ++ (s.reg rd).extractLsb' 0 16)).advance) s

/-- ADDI (R260). -/
def execAddi (rd ra : SReg) (imm : BitVec 16) (s : State) : Host.Outcome State Fault Refusal :=
  finish none (fun s => (s.setReg rd (wrap32 ((s.reg ra).toInt + imm.toInt))).advance) s

/-- ADD (R261). -/
def execAdd (rd ra rb : SReg) (s : State) : Host.Outcome State Fault Refusal :=
  finish none (fun s => (s.setReg rd (wrap32 ((s.reg ra).toInt + (s.reg rb).toInt))).advance) s

/-- SUB (R262). -/
def execSub (rd ra rb : SReg) (s : State) : Host.Outcome State Fault Refusal :=
  finish none (fun s => (s.setReg rd (wrap32 ((s.reg ra).toInt - (s.reg rb).toInt))).advance) s

/-- MULQ (R263): SAT is set if the product clamps. -/
def execMulq (rd ra rb : SReg) (s : State) : Host.Outcome State Fault Refusal :=
  finish none (fun s =>
    ((s.setReg rd (mulq (s.reg ra) (s.reg rb))).orSat (clamps (mulqExact (s.reg ra) (s.reg rb)))).advance) s

/-- BRA (R264). -/
def execBra (imm : BitVec 16) (s : State) : Host.Outcome State Fault Refusal :=
  finish none (State.branch imm) s

/-- BNZ (R265). -/
def execBnz (rs : SReg) (imm : BitVec 16) (s : State) : Host.Outcome State Fault Refusal :=
  finish none (fun s => if s.reg rs ≠ 0 then s.branch imm else s.advance) s

/-- BZ (R266). -/
def execBz (rs : SReg) (imm : BitVec 16) (s : State) : Host.Outcome State Fault Refusal :=
  finish none (fun s => if s.reg rs = 0 then s.branch imm else s.advance) s

/-- BFS (R267). -/
def execBfs (flag : FlagNo) (imm : BitVec 16) (s : State) : Host.Outcome State Fault Refusal :=
  finish none (fun s => if s.flag flag then s.branch imm else s.advance) s

/-- BFC (R268). -/
def execBfc (flag : FlagNo) (imm : BitVec 16) (s : State) : Host.Outcome State Fault Refusal :=
  finish none (fun s => if s.flag flag then s.advance else s.branch imm) s

/-- CSRR (R269): CsrAccess on an unassigned number. -/
def execCsrr (rd : SReg) (csr : BitVec 8) (s : State) : Host.Outcome State Fault Refusal :=
  match csrOf csr with
  | none => finish (some (.csrAccess csr)) State.advance s
  | some c => finish none (fun s => (s.setReg rd (readCsr c s)).advance) s

/-- CSRW (R270): CsrAccess on an unassigned number, a read-only register and CTRL. -/
def execCsrw (rs : SReg) (csr : BitVec 8) (s : State) : Host.Outcome State Fault Refusal :=
  match csrOf csr with
  | none => finish (some (.csrAccess csr)) State.advance s
  | some c =>
    finish (if c.writable then none else some (.csrAccess csr)) (fun s => (writeCsr c (s.reg rs) s).advance) s

end Sys2Proof.Machine
end

