-- ==== Sys2Proof/Machine/VectorMemory.lean ====
section
/-! DEFINITION. The memory and vector move instructions (`45_vector_memory.md` R290 to R299). -/

namespace Sys2Proof.Machine

open Sys2Proof

/-- LDW (R290). -/
def execLdw (rd ra : SReg) (imm : BitVec 16) (s : State) : Host.Outcome State Fault Refusal :=
  finish (wordTrap (s.loadStoreAddr ra imm))
    (fun s => (s.setReg rd (s.dmem.readWord (s.loadStoreAddr ra imm))).advance) s

/-- STW (R291). -/
def execStw (rs ra : SReg) (imm : BitVec 16) (s : State) : Host.Outcome State Fault Refusal :=
  finish (wordTrap (s.loadStoreAddr ra imm))
    (fun s => { s with dmem := s.dmem.writeWord (s.loadStoreAddr ra imm) (s.reg rs) }.advance) s

/-- VLD (R292): lane `k` from word `base + k`. -/
def execVld (vd : VReg) (ra : SReg) (s : State) : Host.Outcome State Fault Refusal :=
  finish ((orderTrap s).or (blockTrap (s.regNat ra) s.p))
    (fun s => (s.putLanes vd 0 s.p (fun k => s.dmem.readWord (s.regNat ra + k))).advance) s

/-- VST (R293): lane `k` to word `base + k`. -/
def execVst (vs : VReg) (ra : SReg) (s : State) : Host.Outcome State Fault Refusal :=
  finish ((orderTrap s).or (blockTrap (s.regNat ra) s.p))
    (fun s =>
      { s with dmem := s.dmem.writeBlock (s.regNat ra) ((List.range s.p).map (s.vec vs).word) }.advance) s

/-- VMOV (R294). -/
def execVmov (vd va : VReg) (s : State) : Host.Outcome State Fault Refusal :=
  finish (orderTrap s) (fun s => (s.putLanes vd 0 s.p (s.vec va).word).advance) s

/-- VZERO (R295). -/
def execVzero (vd : VReg) (s : State) : Host.Outcome State Fault Refusal :=
  finish (orderTrap s) (fun s => (s.putLanes vd 0 s.p (fun _ => 0)).advance) s

/-- VADD (R296). -/
def execVadd (vd va vb : VReg) (s : State) : Host.Outcome State Fault Refusal :=
  finish (orderTrap s)
    (fun s => (s.putSatLanes vd 0 s.p (fun k => s.laneInt va k + s.laneInt vb k)).advance) s

/-- VSUB (R297). -/
def execVsub (vd va vb : VReg) (s : State) : Host.Outcome State Fault Refusal :=
  finish (orderTrap s)
    (fun s => (s.putSatLanes vd 0 s.p (fun k => s.laneInt va k - s.laneInt vb k)).advance) s

/-- The exact value VLERP saturates for lane `k` (R298). -/
def lerpLane (s : State) (va vb : VReg) (rw : SReg) (k : Nat) : Int :=
  s.laneInt va k + rnd16 ((s.reg rw).toInt * (s.laneInt vb k - s.laneInt va k))

/-- VLERP (R298). -/
def execVlerp (vd va vb : VReg) (rw : SReg) (s : State) : Host.Outcome State Fault Refusal :=
  finish (orderTrap s) (fun s => (s.putSatLanes vd 0 s.p (lerpLane s va vb rw)).advance) s

end Sys2Proof.Machine
end

