-- ==== Sys2Proof/Machine/Vq.lean ====
section
/-! DEFINITION. The VQ unit: VQW, VQS, VQA, VQENC, VQDEC (`41_vector_quantizer.md` R190 to R198). -/

namespace Sys2Proof.Machine

open Sys2Proof

/-! ## Codebook, distance, search -/

/-- Element `j` of entry `e` of a codebook (`20_memory.md` R113, `TabRead` of R108). -/
def State.codeElem (s : State) (d : StageDesc) (e j : Nat) : Int :=
  (s.tmem.readWord (d.base + e * d.len + j)).toInt

/-- `clamp18` (R192). -/
def clamp18 (d : Int) : Int := max (-131071) (min 131071 d)

/-- The weight of one lane (R192). -/
def weightOf (d : StageDesc) (w : Int) : Int := if d.wen then max 0 (min 65535 w) else 1

/-- `Dist(x, wv, s, e)` (R192). -/
def State.dist (s : State) (d : StageDesc) (x wv : Lanes) (e : Nat) : Int :=
  ((List.range d.len).map fun j =>
    let diff := clamp18 (x.int (d.off + j) - s.codeElem d e j)
    weightOf d (wv.int (d.off + j)) * diff * diff).sum

/-- The loop of `Search` (R193) over the entries that are left, from `e` on. -/
def searchLoop (dist : Nat → Int) : Nat → Nat → Nat → Int → Nat
  | 0, _, best, _ => best
  | left + 1, e, best, bestd =>
    let de := dist e
    if de < bestd then searchLoop dist left (e + 1) e de else searchLoop dist left (e + 1) best bestd

/-- `Search(x, wv, s)` (R193): the nearest entry, the lowest index winning a tie. -/
def State.search (s : State) (d : StageDesc) (x wv : Lanes) : Nat :=
  searchLoop (s.dist d x wv) (d.n - 1) 1 0 (s.dist d x wv 0)

/-! ## One stage -/

/-- Subtract entry `e` of a stage from `V[vd]` (R195). -/
def State.subtractEntry (vd : VReg) (st : StageNo) (e : Nat) (s : State) : State :=
  let d := s.desc st
  s.putSatLanes vd d.off (d.off + d.len) (fun k => s.laneInt vd k - s.codeElem d e (k - d.off))

/-- Add entry `e` of a stage to `V[vd]` (R196). -/
def State.addEntry (vd : VReg) (st : StageNo) (e : Nat) (s : State) : State :=
  let d := s.desc st
  s.putSatLanes vd d.off (d.off + d.len) (fun k => s.laneInt vd k + s.codeElem d e (k - d.off))

/-- `IDX[s] <- e` (R195). -/
def State.setIdx (st : StageNo) (e : Nat) (s : State) : State :=
  { s with idx := s.idx.set st (BitVec.ofNat 10 e) }

/-- The effect of one stage of the encoder (R195, the loop body of R197). -/
def State.encodeStage (vd vw : VReg) (s : State) (st : StageNo) : State :=
  let e := s.search (s.desc st) (s.vec vd) (s.vec vw)
  (s.subtractEntry vd st e).setIdx st e

/-- The effect of one stage of the decoder (R196, the loop body of R198). -/
def State.decodeStage (vd : VReg) (s : State) (st : StageNo) : State := s.addEntry vd st (s.idxNat st)

/-! ## The instructions -/

/-- The weight VQW writes to lane `i` (R194). -/
def vqWeight (s : State) (va : VReg) (i : Nat) : Int :=
  let v := s.laneInt va
  let dl := if i = 0 then v 0 else v i - v (i - 1)
  let dr := if i = s.p - 1 then 65536 - v i else v (i + 1) - v i
  let den := s.woff.toInt + min dl dr
  min 65535 ((s.wnum.toNat : Int) / (if den < 1 then 1 else den))

/-- VQW (R194). -/
def execVqw (vd va : VReg) (s : State) : Host.Outcome State Fault Refusal :=
  finish (orderTrap s)
    (fun s => (s.putLanes vd 0 s.p (fun i => BitVec.ofInt 32 (vqWeight s va i))).advance) s

/-- VQS (R195). -/
def execVqs (vd vw : VReg) (stage : StageNo) (s : State) : Host.Outcome State Fault Refusal :=
  finish ((orderTrap s).or (stageTrap s stage)) (fun s => (s.encodeStage vd vw stage).advance) s

/-- VQA (R196). -/
def execVqa (vd : VReg) (stage : StageNo) (s : State) : Host.Outcome State Fault Refusal :=
  finish ((orderTrap s).or ((stageTrap s stage).or (idxTrap s stage)))
    (fun s => (s.decodeStage vd stage).advance) s

/-- VQENC (R197): all stages are checked before any is run. -/
def execVqenc (vd vw : VReg) (s : State) : Host.Outcome State Fault Refusal :=
  finish ((orderTrap s).or ((nstgTrap s).or (s.stages.findSome? (stageTrap s))))
    (fun s => (s.stages.foldl (State.encodeStage vd vw) s).advance) s

/-- VQDEC (R198): the checks of all stages, then of all indices, before anything is written. -/
def execVqdec (vd : VReg) (s : State) : Host.Outcome State Fault Refusal :=
  finish
    ((orderTrap s).or ((nstgTrap s).or ((s.stages.findSome? (stageTrap s)).or (s.stages.findSome? (idxTrap s)))))
    (fun s => (s.stages.foldl (State.decodeStage vd) (s.putLanes vd 0 s.p (fun _ => 0))).advance) s

end Sys2Proof.Machine
end

