-- ==== Sys2Proof/Machine/Dispatch.lean ====
section
/-! DEFINITION. One arm per instruction, each a direct call of its meaning. -/

namespace Sys2Proof.Machine

open Sys2Proof

def exec (i : Instr) (s : State) : Host.Outcome State Fault Refusal :=
  match i with
  | .nop => Sys2Proof.Machine.execNop s
  | .halt => Sys2Proof.Machine.execHalt s
  | .li rd imm => Sys2Proof.Machine.execLi rd imm s
  | .lih rd imm => Sys2Proof.Machine.execLih rd imm s
  | .addi rd ra imm => Sys2Proof.Machine.execAddi rd ra imm s
  | .add rd ra rb => Sys2Proof.Machine.execAdd rd ra rb s
  | .sub rd ra rb => Sys2Proof.Machine.execSub rd ra rb s
  | .mulq rd ra rb => Sys2Proof.Machine.execMulq rd ra rb s
  | .bra imm => Sys2Proof.Machine.execBra imm s
  | .bnz rs imm => Sys2Proof.Machine.execBnz rs imm s
  | .bz rs imm => Sys2Proof.Machine.execBz rs imm s
  | .bfs flag imm => Sys2Proof.Machine.execBfs flag imm s
  | .bfc flag imm => Sys2Proof.Machine.execBfc flag imm s
  | .csrr rd csr => Sys2Proof.Machine.execCsrr rd csr s
  | .csrw rs csr => Sys2Proof.Machine.execCsrw rs csr s
  | .ldw rd ra imm => Sys2Proof.Machine.execLdw rd ra imm s
  | .stw rs ra imm => Sys2Proof.Machine.execStw rs ra imm s
  | .vld vd ra => Sys2Proof.Machine.execVld vd ra s
  | .vst vs ra => Sys2Proof.Machine.execVst vs ra s
  | .vmov vd va => Sys2Proof.Machine.execVmov vd va s
  | .vzero vd => Sys2Proof.Machine.execVzero vd s
  | .vadd vd va vb => Sys2Proof.Machine.execVadd vd va vb s
  | .vsub vd va vb => Sys2Proof.Machine.execVsub vd va vb s
  | .vlerp vd va vb rw => Sys2Proof.Machine.execVlerp vd va vb rw s
  | .synrd vd => Sys2Proof.Machine.execSynrd vd s
  | .synwr vs => Sys2Proof.Machine.execSynwr vs s
  | .lsproot vd va => Sys2Proof.Machine.execLsproot vd va s
  | .lsppoly vd va => Sys2Proof.Machine.execLsppoly vd va s
  | .lspmrg vd rm => Sys2Proof.Machine.execLspmrg vd rm s
  | .vqw vd va => Sys2Proof.Machine.execVqw vd va s
  | .vqs vd vw stage => Sys2Proof.Machine.execVqs vd vw stage s
  | .vqa vd stage => Sys2Proof.Machine.execVqa vd stage s
  | .vqenc vd vw => Sys2Proof.Machine.execVqenc vd vw s
  | .vqdec vd => Sys2Proof.Machine.execVqdec vd s
  | .bwx vd va rg => Sys2Proof.Machine.execBwx vd va rg s
  | .fir vm vc rs rd rn => Sys2Proof.Machine.execFir vm vc rs rd rn s
  | .iir vm vc rs rd rn => Sys2Proof.Machine.execIir vm vc rs rd rn s
  | .syn vc rs rd rn => Sys2Proof.Machine.execSyn vc rs rd rn s

end Sys2Proof.Machine
end

