-- ==== Sys2Proof/WellFormed.lean ====
section
/-! DEFINITION. Which words are instructions: the formats of `30_encoding.md` R132, the opcode map of R134 and the
test of R136. Every `Instr` is well formed by its types, so the checks are on the word. -/

namespace Sys2Proof

/-- The ten formats (R132). -/
inductive Format where
  | z | r1 | r2 | r3 | r4 | r5 | j | i | m | k
  deriving DecidableEq, Repr

/-- The reserved bits of a format: those that are neither `op` nor a field of it (R132). -/
def Format.reserved : Format → Word
  | .z => 0x03FFFFFF#32
  | .r1 => 0x007FFFFF#32
  | .r2 => 0x000FFFFF#32
  | .r3 => 0x0001FFFF#32
  | .r4 => 0x00003FFF#32
  | .r5 => 0x000007FF#32
  | .j => 0x03FF0000#32
  | .i => 0x007F0000#32
  | .m => 0x000F0000#32
  | .k => 0x007FFF00#32

/-- One row of the opcode map (R134). -/
structure Row where
  mnemonic : String
  op : BitVec 6
  format : Format
  deriving DecidableEq, Repr

/-- The mask of a row: a 1 at every `op` bit and every reserved bit (R136). -/
def Row.mask (row : Row) : Word := 0xFC000000#32 ||| row.format.reserved

/-- The match of a row: its word with all operand fields zero (R134, R136). -/
def Row.pattern (row : Row) : Word := row.op ++ 0#26

/-- The opcode map (R134). -/
def opcodeMap : List Row :=
  [⟨"NOP", 0x00, .z⟩, ⟨"HALT", 0x01, .z⟩, ⟨"LI", 0x02, .i⟩, ⟨"LIH", 0x03, .i⟩, ⟨"ADDI", 0x04, .m⟩,
   ⟨"ADD", 0x05, .r3⟩, ⟨"SUB", 0x06, .r3⟩, ⟨"MULQ", 0x07, .r3⟩, ⟨"BRA", 0x08, .j⟩, ⟨"BNZ", 0x09, .i⟩,
   ⟨"BZ", 0x0A, .i⟩, ⟨"BFS", 0x0B, .i⟩, ⟨"BFC", 0x0C, .i⟩, ⟨"CSRR", 0x0D, .k⟩, ⟨"CSRW", 0x0E, .k⟩] ++
  [⟨"LDW", 0x10, .m⟩, ⟨"STW", 0x11, .m⟩, ⟨"VLD", 0x12, .r2⟩, ⟨"VST", 0x13, .r2⟩, ⟨"VMOV", 0x14, .r2⟩,
   ⟨"VZERO", 0x15, .r1⟩, ⟨"VADD", 0x16, .r3⟩, ⟨"VSUB", 0x17, .r3⟩, ⟨"VLERP", 0x18, .r4⟩,
   ⟨"SYNRD", 0x19, .r1⟩, ⟨"SYNWR", 0x1A, .r1⟩] ++
  [⟨"LSPROOT", 0x20, .r2⟩, ⟨"LSPPOLY", 0x21, .r2⟩, ⟨"LSPMRG", 0x22, .r2⟩,
   ⟨"VQW", 0x28, .r2⟩, ⟨"VQS", 0x29, .r3⟩, ⟨"VQA", 0x2A, .r2⟩, ⟨"VQENC", 0x2B, .r2⟩, ⟨"VQDEC", 0x2C, .r1⟩,
   ⟨"BWX", 0x30, .r3⟩, ⟨"FIR", 0x31, .r5⟩, ⟨"IIR", 0x32, .r5⟩, ⟨"SYN", 0x33, .r4⟩]

/-- The test of R136: `(w AND mask) = match`. -/
def Row.matches (row : Row) (w : Word) : Bool := w &&& row.mask == row.pattern

/-- A word is an instruction when a row of the opcode map matches it (R136, R138). -/
def wellFormedWord (w : Word) : Bool := opcodeMap.any (·.matches w)

end Sys2Proof
end

