-- ==== Sys2Proof/Decode.lean ====
section
/-! DEFINITION. The decoder, total on every word and rejecting by name (`30_encoding.md` R131 to R138), and after it
the encoder, written from the bit layouts of R132. -/

namespace Sys2Proof

/-- Why a word is no instruction. Raised by `decode`; the engine turns both into IllegalInstruction (R330). -/
inductive DecodeError where
  /-- The `op` field is one of the 26 reserved values (R135). -/
  | reservedOpcode (op : BitVec 6)
  /-- The `op` field is assigned and a reserved bit of its format is 1 (R136). -/
  | reservedBits (format : Format)
  deriving DecidableEq, Repr

/-! ## The fields of a word (R131) -/

/-- `op`, bits [31:26]. -/
def fieldOp (w : Word) : BitVec 6 := w.extractLsb' 26 6
/-- `A`, bits [25:23]. -/
def fieldA (w : Word) : Fin 8 := (w.extractLsb' 23 3).toFin
/-- `B`, bits [22:20]. -/
def fieldB (w : Word) : Fin 8 := (w.extractLsb' 20 3).toFin
/-- `C`, bits [19:17]. -/
def fieldC (w : Word) : Fin 8 := (w.extractLsb' 17 3).toFin
/-- `D`, bits [16:14]. -/
def fieldD (w : Word) : Fin 8 := (w.extractLsb' 14 3).toFin
/-- `E`, bits [13:11]. -/
def fieldE (w : Word) : Fin 8 := (w.extractLsb' 11 3).toFin
/-- `imm16`, bits [15:0]. -/
def fieldImm (w : Word) : BitVec 16 := w.extractLsb' 0 16
/-- `csr8`, bits [7:0]. -/
def fieldCsr (w : Word) : BitVec 8 := w.extractLsb' 0 8

/-- The instruction `i` of format `f`, if every reserved bit of the format is 0 in `w` (R132, R136). -/
def ifReservedClear (w : Word) (f : Format) (i : Instr) : Except DecodeError Instr :=
  if w &&& f.reserved = 0 then .ok i else .error (.reservedBits f)

/-- The decoder (R134 to R138): it reads the word and nothing of the state. -/
def decode (w : Word) : Except DecodeError Instr :=
  let a := fieldA w
  let b := fieldB w
  let c := fieldC w
  let d := fieldD w
  let e := fieldE w
  let imm := fieldImm w
  let csr := fieldCsr w
  match (fieldOp w).toNat with
  | 0x00 => ifReservedClear w .z .nop
  | 0x01 => ifReservedClear w .z .halt
  | 0x02 => ifReservedClear w .i (.li a imm)
  | 0x03 => ifReservedClear w .i (.lih a imm)
  | 0x04 => ifReservedClear w .m (.addi a b imm)
  | 0x05 => ifReservedClear w .r3 (.add a b c)
  | 0x06 => ifReservedClear w .r3 (.sub a b c)
  | 0x07 => ifReservedClear w .r3 (.mulq a b c)
  | 0x08 => ifReservedClear w .j (.bra imm)
  | 0x09 => ifReservedClear w .i (.bnz a imm)
  | 0x0A => ifReservedClear w .i (.bz a imm)
  | 0x0B => ifReservedClear w .i (.bfs a imm)
  | 0x0C => ifReservedClear w .i (.bfc a imm)
  | 0x0D => ifReservedClear w .k (.csrr a csr)
  | 0x0E => ifReservedClear w .k (.csrw a csr)
  | 0x10 => ifReservedClear w .m (.ldw a b imm)
  | 0x11 => ifReservedClear w .m (.stw a b imm)
  | 0x12 => ifReservedClear w .r2 (.vld a b)
  | 0x13 => ifReservedClear w .r2 (.vst a b)
  | 0x14 => ifReservedClear w .r2 (.vmov a b)
  | 0x15 => ifReservedClear w .r1 (.vzero a)
  | 0x16 => ifReservedClear w .r3 (.vadd a b c)
  | 0x17 => ifReservedClear w .r3 (.vsub a b c)
  | 0x18 => ifReservedClear w .r4 (.vlerp a b c d)
  | 0x19 => ifReservedClear w .r1 (.synrd a)
  | 0x1A => ifReservedClear w .r1 (.synwr a)
  | 0x20 => ifReservedClear w .r2 (.lsproot a b)
  | 0x21 => ifReservedClear w .r2 (.lsppoly a b)
  | 0x22 => ifReservedClear w .r2 (.lspmrg a b)
  | 0x28 => ifReservedClear w .r2 (.vqw a b)
  | 0x29 => ifReservedClear w .r3 (.vqs a b c)
  | 0x2A => ifReservedClear w .r2 (.vqa a b)
  | 0x2B => ifReservedClear w .r2 (.vqenc a b)
  | 0x2C => ifReservedClear w .r1 (.vqdec a)
  | 0x30 => ifReservedClear w .r3 (.bwx a b c)
  | 0x31 => ifReservedClear w .r5 (.fir a b c d e)
  | 0x32 => ifReservedClear w .r5 (.iir a b c d e)
  | 0x33 => ifReservedClear w .r4 (.syn a b c d)
  | _ => .error (.reservedOpcode (fieldOp w))

/-- What the decoder reads from an instruction whose bits are `w`, numbered as `opcode_table.json` numbers them. Every
instruction is one 32-bit word (R130), so bits from 32 on belong to no instruction of the table. -/
def decodeTableWord (nbits w : Nat) : Option Instr :=
  match decode (BitVec.ofNat 32 (w % 2 ^ nbits)) with
  | .ok i => some i
  | .error _ => none

/-! ## The encoder (the bit layouts of R132) -/

/-- A 3-bit operand field (R133: the number itself). -/
def bits3 (n : Fin 8) : BitVec 3 := BitVec.ofFin n

def encodeZ (op : BitVec 6) : Word := op ++ 0#26
def encodeR1 (op : BitVec 6) (a : Fin 8) : Word := op ++ bits3 a ++ 0#23
def encodeR2 (op : BitVec 6) (a b : Fin 8) : Word := op ++ bits3 a ++ bits3 b ++ 0#20
def encodeR3 (op : BitVec 6) (a b c : Fin 8) : Word := op ++ bits3 a ++ bits3 b ++ bits3 c ++ 0#17
def encodeR4 (op : BitVec 6) (a b c d : Fin 8) : Word :=
  op ++ bits3 a ++ bits3 b ++ bits3 c ++ bits3 d ++ 0#14
def encodeR5 (op : BitVec 6) (a b c d e : Fin 8) : Word :=
  op ++ bits3 a ++ bits3 b ++ bits3 c ++ bits3 d ++ bits3 e ++ 0#11
def encodeJ (op : BitVec 6) (imm : BitVec 16) : Word := op ++ 0#10 ++ imm
def encodeI (op : BitVec 6) (a : Fin 8) (imm : BitVec 16) : Word := op ++ bits3 a ++ 0#7 ++ imm
def encodeM (op : BitVec 6) (a b : Fin 8) (imm : BitVec 16) : Word := op ++ bits3 a ++ bits3 b ++ 0#4 ++ imm
def encodeK (op : BitVec 6) (a : Fin 8) (csr : BitVec 8) : Word := op ++ bits3 a ++ 0#15 ++ csr

/-- The word of an instruction (R132, R134). -/
def encode : Instr → Word
  | .nop => encodeZ 0x00
  | .halt => encodeZ 0x01
  | .li rd imm => encodeI 0x02 rd imm
  | .lih rd imm => encodeI 0x03 rd imm
  | .addi rd ra imm => encodeM 0x04 rd ra imm
  | .add rd ra rb => encodeR3 0x05 rd ra rb
  | .sub rd ra rb => encodeR3 0x06 rd ra rb
  | .mulq rd ra rb => encodeR3 0x07 rd ra rb
  | .bra imm => encodeJ 0x08 imm
  | .bnz rs imm => encodeI 0x09 rs imm
  | .bz rs imm => encodeI 0x0A rs imm
  | .bfs flag imm => encodeI 0x0B flag imm
  | .bfc flag imm => encodeI 0x0C flag imm
  | .csrr rd csr => encodeK 0x0D rd csr
  | .csrw rs csr => encodeK 0x0E rs csr
  | .ldw rd ra imm => encodeM 0x10 rd ra imm
  | .stw rs ra imm => encodeM 0x11 rs ra imm
  | .vld vd ra => encodeR2 0x12 vd ra
  | .vst vs ra => encodeR2 0x13 vs ra
  | .vmov vd va => encodeR2 0x14 vd va
  | .vzero vd => encodeR1 0x15 vd
  | .vadd vd va vb => encodeR3 0x16 vd va vb
  | .vsub vd va vb => encodeR3 0x17 vd va vb
  | .vlerp vd va vb rw => encodeR4 0x18 vd va vb rw
  | .synrd vd => encodeR1 0x19 vd
  | .synwr vs => encodeR1 0x1A vs
  | .lsproot vd va => encodeR2 0x20 vd va
  | .lsppoly vd va => encodeR2 0x21 vd va
  | .lspmrg vd rm => encodeR2 0x22 vd rm
  | .vqw vd va => encodeR2 0x28 vd va
  | .vqs vd vw stage => encodeR3 0x29 vd vw stage
  | .vqa vd stage => encodeR2 0x2A vd stage
  | .vqenc vd vw => encodeR2 0x2B vd vw
  | .vqdec vd => encodeR1 0x2C vd
  | .bwx vd va rg => encodeR3 0x30 vd va rg
  | .fir vm vc rs rd rn => encodeR5 0x31 vm vc rs rd rn
  | .iir vm vc rs rd rn => encodeR5 0x32 vm vc rs rd rn
  | .syn vc rs rd rn => encodeR4 0x33 vc rs rd rn

end Sys2Proof
end

