-- ==== Sys2Proof/Machine/Fetch.lean ====
section
/-! DEFINITION. Fetch and decode, the first half of the engine step (`44_sequencer_scalar.md` R255), and where a word
must stand to be fetched next. -/

namespace Sys2Proof.Machine

open Sys2Proof

/-- `Fetch(pc)`: ImemRange where IMEM has no such word (R255, R331). -/
def fetchWord (s : State) : Except Trap Word :=
  if s.pc.toNat ≥ Config.imemWords then .error (.imemRange s.pc) else .ok (s.imem.readWord s.pc.toNat)

/-- Fetch and decode: IllegalInstruction where no row of the opcode map matches (R255, R330). -/
def fetchInstr (s : State) : Except Trap Instr :=
  match fetchWord s with
  | .error t => .error t
  | .ok w =>
    match decode w with
    | .error _ => .error (.illegalInstruction w)
    | .ok i => .ok i

/-- The PC a fetch can use: where PC is outside IMEM no word can be stored for it, and 0 is taken (DESIGN CHOICE,
safe: log 6). -/
def fetchablePc (pc : BitVec 16) : BitVec 16 := if pc.toNat < Config.imemWords then pc else 0

/-- Store a word where the next engine step fetches it, with the engine running and the turn its own: what loading a
program and START amount to (`70_reset_and_hazards.md` R353; log 6). -/
def placeForFetch (w : Word) (s : State) : State :=
  { s with
    pc := fetchablePc s.pc
    state := .running
    turns := []
    imem := s.imem.writeWord (fetchablePc s.pc).toNat w }

end Sys2Proof.Machine
end

