-- ==== Sys2Proof/Machine/Window.lean ====
section
/-! DEFINITION. The host's side: the window (`20_memory.md` R104, R105), the CTRL commands (`60_exceptions.md` R328),
reset (`70_reset_and_hazards.md` R350). -/

namespace Sys2Proof.Machine

open Sys2Proof

/-! ## CTRL (R328) -/

/-- ABORT (R323, R328). -/
def ctrlAbort (s : State) : State := if s.state = .running then recordFault 15 0 s else s

/-- CLR (R328). -/
def ctrlClr (s : State) : State :=
  let cleared := { s with herr := false }
  if s.state = .halted ∨ s.state = .faulted then clearRun cleared else cleared

/-- START (R328, R76). -/
def ctrlStart (s : State) : State :=
  if s.state = .idle ∨ s.state = .halted then { s with pc := s.entry, state := .running }
  else { s with herr := true }

/-- `CtrlWrite(v)` (R328): SRST alone, else ABORT, CLR, START, each on the STATE the earlier ones left. -/
def ctrlWrite (v : Word) (s : State) : State :=
  if v.getLsbD 3 then s.resetRegisters
  else
    let aborted := if v.getLsbD 2 then ctrlAbort s else s
    let cleared := if v.getLsbD 1 then ctrlClr aborted else aborted
    if v.getLsbD 0 then ctrlStart cleared else cleared

/-! ## The window (R104, R105) -/

/-- What a window address names (the table of R104). -/
inductive Target where
  | imem (a : Nat) | csr (n : BitVec 8) | tmem (a : Nat) | dmem (a : Nat) | unmapped
  deriving DecidableEq, Repr

/-- The table of R104; a slot beyond its memory's size is unmapped. -/
def windowTarget (addr : BitVec 14) : Target :=
  let a := addr.toNat
  if a < 0x0400 then (if a < Config.imemWords then .imem a else .unmapped)
  else if a < 0x0500 then .csr (BitVec.ofNat 8 (a - 0x0400))
  else if a < 0x1000 then .unmapped
  else if a < 0x2000 then (if a - 0x1000 < Config.tmemWords then .tmem (a - 0x1000) else .unmapped)
  else if a < 0x3000 then (if a - 0x2000 < Config.dmemWords then .dmem (a - 0x2000) else .unmapped)
  else .unmapped

/-- The CSRs the host may read in any STATE (R105 item 1). -/
def Csr.alwaysReadable : Csr → Bool
  | .id | .ctrl | .status => true
  | _ => false

/-- `hread(addr)`: the word, none where the operation is refused (R105). -/
def hostRead (addr : BitVec 14) (s : State) : Option Word :=
  match windowTarget addr with
  | .unmapped => none
  | .csr n =>
    match csrOf n with
    | none => none
    | some c => if s.state = .running ∧ c.alwaysReadable = false then none else some (readCsr c s)
  | .imem a => if s.state = .running then none else some (s.imem.readWord a)
  | .tmem a => if s.state = .running then none else some (s.tmem.readWord a)
  | .dmem a => if s.state = .running then none else some (s.dmem.readWord a)

/-- `hwrite(addr, v)`: the state after it, none where the operation is refused (R105). A write of
ID or STATUS while RUNNING is refused, by R321 (DEDUCED, unsafe: log 7). -/
def hostWrite (addr : BitVec 14) (v : Word) (s : State) : Option State :=
  match windowTarget addr with
  | .unmapped => none
  | .csr n =>
    match csrOf n with
    | none => none
    | some .ctrl => some (ctrlWrite v s)
    | some c => if s.state = .running ∨ c.writable = false then none else some (writeCsr c v s)
  | .imem a => if s.state = .running then none else some { s with imem := s.imem.writeWord a v }
  | .tmem a => if s.state = .running then none else some { s with tmem := s.tmem.writeWord a v }
  | .dmem a => if s.state = .running then none else some { s with dmem := s.dmem.writeWord a v }

/-- One host operation as one atomic step (R14). A refused one changes nothing but HERR, and a refused read returns 0
(R105, R321). -/
def hostStep (op : HostOp) (s : State) : State :=
  match op with
  | .hread addr =>
    match hostRead addr s with
    | some w => { s with hrdata := w }
    | none => { s with hrdata := 0, herr := true }
  | .hwrite addr v => (hostWrite addr v s).getD { s with herr := true }
  | .reset => s.resetRegisters

end Sys2Proof.Machine
end

