-- ==== Sys2Proof/Machine/Step.lean ====
section
/-! DEFINITION. One step of the machine: the engine's or the host's, as the turns in the state say
(`00_scope.md` R14, `44_sequencer_scalar.md` R255). -/

namespace Sys2Proof.Machine

open Sys2Proof

/-- `EngineStep` (R255): nothing unless STATE = RUNNING; a fault of fetch or decode is taken. `exec` has a meaning in
the other states too, which no step reaches (DEDUCED, safe: log 14). -/
def engineStep (s : State) : Host.Outcome State Fault Refusal :=
  if s.state = .running then
    match fetchInstr s with
    | .error t => .next (takeFault t s)
    | .ok i => exec i s
  else .next s

/-- One step (R14): the agent whose turn it is takes it; with no turn listed it is the engine's. -/
def step (s : State) : Host.Outcome State Fault Refusal :=
  match s.turns with
  | [] => engineStep s
  | .engine :: rest => engineStep { s with turns := rest }
  | .host op :: rest => .next (hostStep op { s with turns := rest })

/-- `s` with the instruction whose bits are `w` where `step` fetches its next instruction (log 6). -/
def State.withFetchWord (s : State) (nbits w : Nat) : State := placeForFetch (BitVec.ofNat 32 (w % 2 ^ nbits)) s

end Sys2Proof.Machine
end

