-- ==== Sys2Proof/Safety.lean ====
section
/-! DEFINITION. The vocabulary of the statements: legal machine states (the invariants every step of either agent
keeps), legal settings, and the rules' arithmetic and filter recurrence written without the model's own operations. -/

namespace Sys2Proof.Machine

open Sys2Proof

/-! ## Invariants -/

/-- FAULTED exactly when a cause is recorded (`60_exceptions.md` R317), the cause one of those of R311, the fault
registers 0 when none is recorded (`10_state.md` R56), and PC the address of the faulting instruction (R315). -/
def State.FaultConsistent (s : State) : Prop :=
  (s.state = .faulted ↔ s.fcause ≠ 0) ∧
  (s.fcause.toNat ≤ 8 ∨ s.fcause = 15) ∧
  (s.fcause = 0 → s.fpc = 0 ∧ s.finfo = 0) ∧
  (s.state = .faulted → s.fpc = s.pc)

/-- The three memories are in canonical form and hold no byte outside their sizes (`10_state.md` R71 to R73). -/
def State.MemoriesCanonical (s : State) : Prop :=
  (s.imem.wf ∧ s.imem.within Config.imemWords) ∧
  (s.dmem.wf ∧ s.dmem.within Config.dmemWords) ∧
  (s.tmem.wf ∧ s.tmem.within Config.tmemWords)

/-- A legal machine state; ROOTCNT is 0 to 16 (`10_state.md` R60). -/
def State.Legal (s : State) : Prop :=
  s.FaultConsistent ∧ s.MemoriesCanonical ∧ s.rootcnt.toNat ≤ 16

/-! ## Turns -/

/-- The next step is the engine's. -/
abbrev State.EngineNext (s : State) : Prop := s.turns = [] ∨ ∃ rest, s.turns = .engine :: rest

/-- The state with the turn of this step taken off the list. -/
def State.turnTaken (s : State) : State := { s with turns := s.turns.tail }

/-! ## Legal settings -/

/-- ORDER is legal for the vector and unit instructions (`45_vector_memory.md` R299). -/
abbrev State.OrderLegal (s : State) : Prop := 1 ≤ s.order.toNat ∧ s.order.toNat ≤ 16

/-- ORDER is legal for LSPROOT and LSPPOLY (`40_lsp_transform.md` R164, R166). -/
abbrev State.EvenOrderLegal (s : State) : Prop :=
  2 ≤ s.order.toNat ∧ s.order.toNat ≤ 16 ∧ s.order.toNat % 2 = 0

/-- The lanes of a stage are active ones (`41_vector_quantizer.md` R191, first test). -/
abbrev State.StageLanesLegal (s : State) (st : StageNo) : Prop :=
  (s.desc st).off + (s.desc st).len ≤ s.order.toNat

/-- The codebook of a stage lies in TMEM (`41_vector_quantizer.md` R191, second test). -/
abbrev State.StageTableLegal (s : State) (st : StageNo) : Prop :=
  (s.desc st).base + (s.desc st).n * (s.desc st).len ≤ Config.tmemWords

/-- Stage `st` passes `StageCheck` (`41_vector_quantizer.md` R191). -/
abbrev State.StageLegal (s : State) (st : StageNo) : Prop := s.StageLanesLegal st ∧ s.StageTableLegal st

/-- `IDX[s]` names an entry of stage `s` (`41_vector_quantizer.md` R196). -/
abbrev State.IndexLegal (s : State) (st : StageNo) : Prop := s.idx[st].toNat < (s.desc st).n

/-- The margin of LSPMRG is legal (`40_lsp_transform.md` R167). -/
abbrev State.MarginLegal (s : State) (rm : SReg) : Prop :=
  1 ≤ s.r[rm].toInt ∧ ((s.order.toNat : Int) + 1) * s.r[rm].toInt ≤ 65536

/-- The blocks of a filter lie in DMEM (`20_memory.md` R106). -/
abbrev State.BlocksLegal (s : State) (rs rd rn : SReg) : Prop :=
  s.r[rs].toNat + s.r[rn].toNat ≤ Config.dmemWords ∧ s.r[rd].toNat + s.r[rn].toNat ≤ Config.dmemWords

/-- The instruction begins with the common ORDER check (`45_vector_memory.md` R299). -/
def usesOrder : Instr → Bool
  | .vld .. | .vst .. | .vmov .. | .vzero .. | .vadd .. | .vsub .. | .vlerp .. | .synrd .. | .synwr ..
  | .lsproot .. | .lsppoly .. | .lspmrg .. | .vqw .. | .vqs .. | .vqa .. | .vqenc .. | .vqdec ..
  | .bwx .. | .fir .. | .iir .. | .syn .. => true
  | .nop | .halt | .li .. | .lih .. | .addi .. | .add .. | .sub .. | .mulq .. | .bra .. | .bnz .. | .bz ..
  | .bfs .. | .bfc .. | .csrr .. | .csrw .. | .ldw .. | .stw .. => false

/-! ## The rules' arithmetic -/

/-- `sat32` clamps (`00_scope.md` R8). -/
abbrev OutOfRange (v : Int) : Prop := v > 2147483647 ∨ v < -2147483648

/-- The integer `sat32` yields (`00_scope.md` R8). -/
def saturated (v : Int) : Int := max (-2147483648) (min 2147483647 v)

/-- `floor((v + 32768) / 65536)` (`00_scope.md` R9). -/
def rounded (v : Int) : Int := (v + 32768) / 65536

/-- Lane `k` of `V[i]` as a signed word. -/
abbrev State.lane (s : State) (i : VReg) (k : Fin 16) : Int := (s.v[i])[k].toInt

/-! ## The LSP unit's polynomials (`40_lsp_transform.md` R161 to R166) -/

/-- `PQcoefs`: the half-coefficients `f` and `g` of the symmetric and the antisymmetric polynomial of the lanes `a`
(R161). -/
def HalfCoefficientsRule (a : Nat → Int) (p : Nat) (f g : Nat → Int) : Prop :=
  f 0 = 65536 ∧ g 0 = 65536 ∧
  ∀ i, i < p / 2 → f (i + 1) = a i + a (p - 1 - i) - f i ∧ g (i + 1) = a i - a (p - 1 - i) + g i

/-- The Chebyshev recurrence `T_n` at the cosine `x` (R162). -/
def chebyshev (x : Int) : Nat → Int
  | 0 => 65536
  | 1 => x
  | n + 2 => rounded (2 * x * chebyshev x (n + 1)) - chebyshev x n

/-- The value at the angle `t` of the polynomial with the half-coefficients `c 0` to `c m` (R162). -/
def polynomialValue (c : Nat → Int) (m t : Nat) : Int :=
  c m * 65536 + ∑ n ∈ Finset.range m, 2 * c (m - (n + 1)) * chebyshev (cosfx t) (n + 1)

/-- The polynomial has one sign at `t` and `u`, zero counting as not negative (`neg` of R162). -/
abbrev SameSign (c : Nat → Int) (m t u : Nat) : Prop := polynomialValue c m t < 0 ↔ polynomialValue c m u < 0

/-- `root` comes from halving the interval from `left` to `right`, the sign change kept inside, until it is no wider
than `delta`: the midpoint of the last interval, rounded down (R164). -/
def BisectionRule (c : Nat → Int) (m : Nat) (delta : Int) (left right root : Nat) : Prop :=
  ∃ (n : Nat) (lo hi : Nat → Nat), lo 0 = left ∧ hi 0 = right ∧
    (∀ i, i < n → (hi i : Int) - lo i > delta ∧
      (SameSign c m ((lo i + hi i) / 2) (lo i) → lo (i + 1) = (lo i + hi i) / 2 ∧ hi (i + 1) = hi i) ∧
      (¬ SameSign c m ((lo i + hi i) / 2) (lo i) → lo (i + 1) = lo i ∧ hi (i + 1) = (lo i + hi i) / 2)) ∧
    left ≤ lo n ∧ lo n < hi n ∧ hi n ≤ right ∧ (hi n : Int) - lo n ≤ delta ∧ ¬ SameSign c m (lo n) (hi n) ∧
    root = (lo n + hi n) / 2

/-- `Expand`: `poly n` holds the coefficients of the product of the first `n` of the factors `1 - 2 x z^-1 + z^-2`
(R166). -/
def ExpansionRule (x : Nat → Int) (m : Nat) (poly : Nat → Nat → Int) : Prop :=
  (∀ k, poly 0 k = if k = 0 then 65536 else 0) ∧
  ∀ n, n < m → ∀ k, poly (n + 1) k =
    poly n k - (if 1 ≤ k then rounded (2 * x n * poly n (k - 1)) else 0) + if 2 ≤ k then poly n (k - 2) else 0

/-! ## Faults, CSRs, codebooks, filters -/

/-- The fault state of cause `cause` with information `info` (`60_exceptions.md` R314). -/
def State.withFault (s : State) (cause info : Nat) : State :=
  { s with fcause := BitVec.ofNat 4 cause, fpc := s.pc, finfo := BitVec.ofNat 32 info, state := .faulted }

/-- CSR numbers that no register has (`10_state.md` R70). -/
abbrev CsrUnassigned (n : Nat) : Prop := (0x13 ≤ n ∧ n < 0x20) ∨ (0x38 ≤ n ∧ n < 0x40) ∨ (0x58 ≤ n ∧ n < 0x80)

/-- The read-only CSR numbers (`10_state.md` R48). -/
abbrev csrReadOnly : List Nat := [0x00, 0x02, 0x06, 0x07, 0x08, 0x09, 0x0D, 0x11, 0x12]

/-- What reading each assigned CSR but STATUS delivers, `reads n w` saying that number `n` delivers `w`
(`44_sequencer_scalar.md` R269, `10_state.md` R48). -/
def State.CsrReads (s : State) (reads : Nat → Word → Prop) : Prop :=
  reads 0x00 0x4C535031 ∧ reads 0x01 0 ∧
  reads 0x03 (BitVec.ofNat 32 (s.rf.toNat + 2 * s.sat.toNat + 4 * s.mf.toNat)) ∧
  reads 0x04 (BitVec.ofNat 32 s.ien.toNat) ∧ reads 0x05 (BitVec.ofNat 32 s.entry.toNat) ∧
  reads 0x06 (BitVec.ofNat 32 s.pc.toNat) ∧ reads 0x07 (BitVec.ofNat 32 s.fcause.toNat) ∧
  reads 0x08 (BitVec.ofNat 32 s.fpc.toNat) ∧ reads 0x09 s.finfo ∧
  reads 0x0A (BitVec.ofNat 32 s.order.toNat) ∧ reads 0x0B (BitVec.ofNat 32 s.grid.toNat) ∧
  reads 0x0C s.cdelta ∧ reads 0x0D (BitVec.ofNat 32 s.rootcnt.toNat) ∧ reads 0x0E s.wnum ∧ reads 0x0F s.woff ∧
  reads 0x10 (BitVec.ofNat 32 s.nstg.toNat) ∧
  reads 0x11 (BitVec.ofNat 32 (s.cidx % 2 ^ 32)) ∧ reads 0x12 (BitVec.ofNat 32 (s.cidx / 2 ^ 32)) ∧
  (∀ st : StageNo, reads (0x20 + st.val) (BitVec.ofNat 32 s.sdbase[st].toNat) ∧
    reads (0x28 + st.val) (BitVec.ofNat 32 s.sdcfg[st].toNat) ∧
    reads (0x30 + st.val) (BitVec.ofNat 32 s.idx[st].toNat)) ∧
  (∀ k : Fin 16, reads (0x40 + k.val) s.synmem[k]) ∧ (∀ i : SReg, reads (0x50 + i.val) s.r[i]) ∧
  ∀ (i : VReg) (k : Fin 16), reads (0x80 + 16 * i.val + k.val) (s.v[i])[k]

/-- What writing `w` to each writable CSR leaves, `writes n t` saying that a write of number `n` leaves `t`
(`44_sequencer_scalar.md` R270, `10_state.md` R48). -/
def State.CsrWrites (s : State) (w : Word) (writes : Nat → State → Prop) : Prop :=
  writes 0x03 { s with rf := w.getLsbD 0, sat := w.getLsbD 1, mf := w.getLsbD 2 } ∧
  writes 0x04 { s with ien := w.extractLsb' 0 2 } ∧ writes 0x05 { s with entry := w.extractLsb' 0 16 } ∧
  writes 0x0A { s with order := w.extractLsb' 0 5 } ∧ writes 0x0B { s with grid := w.extractLsb' 0 11 } ∧
  writes 0x0C { s with cdelta := w } ∧ writes 0x0E { s with wnum := w } ∧ writes 0x0F { s with woff := w } ∧
  writes 0x10 { s with nstg := w.extractLsb' 0 4 } ∧
  (∀ st : StageNo, writes (0x20 + st.val) { s with sdbase := s.sdbase.set st (w.extractLsb' 0 16) } ∧
    writes (0x28 + st.val) { s with sdcfg := s.sdcfg.set st (w.extractLsb' 0 23) } ∧
    writes (0x30 + st.val) { s with idx := s.idx.set st (w.extractLsb' 0 10) }) ∧
  (∀ k : Fin 16, writes (0x40 + k.val) { s with synmem := s.synmem.set k w }) ∧
  (∀ i : SReg, writes (0x50 + i.val) { s with r := s.r.set i w }) ∧
  ∀ (i : VReg) (k : Fin 16), writes (0x80 + 16 * i.val + k.val) { s with v := s.v.set i ((s.v[i]).set k w) }

/-- The element of a codebook at `BASE + e * LEN + j` (`20_memory.md` R113). -/
abbrev State.element (s : State) (st : StageNo) (e j : Nat) : Int :=
  (s.tmem.readWord ((s.desc st).base + e * (s.desc st).len + j)).toInt

/-- The distance of the lanes of `V[d]` to entry `e` of a stage with the weights `V[w]`
(`41_vector_quantizer.md` R192). -/
def State.distance (s : State) (d w : VReg) (st : StageNo) (e : Nat) : Int :=
  ∑ k : Fin 16, if (s.desc st).off ≤ k.val ∧ k.val < (s.desc st).off + (s.desc st).len then
    (if (s.desc st).wen then max 0 (min 65535 (s.lane w k)) else 1) *
      (max (-131071) (min 131071 (s.lane d k - s.element st e (k.val - (s.desc st).off)))) ^ 2
  else 0

/-- The rule of one sample `t` of a filter (`42_weighting_filters.md` R223, R224; `43_synthesis_filter.md` R240):
`feedback` says that the output and not the input enters the memory and that the sum is subtracted. `mem`, `m`, `sat`
are the filter memory, DMEM and SAT before the sample, the primed ones after it. -/
def FilterSampleRule (feedback : Bool) (p : Nat) (coef : Lanes) (src dst : Nat) (mem : Lanes) (m : Memory)
    (sat : Bool) (mem' : Lanes) (m' : Memory) (sat' : Bool) : Prop :=
  let x := m.readWord src
  let acc : Int := ∑ k : Fin 16, if k.val < p then coef[k].toInt * mem[k].toInt else 0
  let exact := if feedback then x.toInt - rounded acc else x.toInt + rounded acc
  let y : Word := BitVec.ofInt 32 (saturated exact)
  m'.readWord dst = y ∧
  (∀ b, b / 4 ≠ dst → m'.readByte b = m.readByte b) ∧
  (∀ k : Fin 16, mem'[k] =
    if k.val = 0 then (if feedback then y else x) else if k.val < p then mem[k.val - 1] else mem[k]) ∧
  (sat' = true ↔ sat = true ∨ OutOfRange exact)

/-- `cnt` samples one after another, addresses ascending, from the memory `mem`, DMEM `m` and SAT `sat` to the primed
ones. -/
def FilterRule (feedback : Bool) (p : Nat) (coef : Lanes) :
    (cnt src dst : Nat) → Lanes → Memory → Bool → Lanes → Memory → Bool → Prop
  | 0, _, _, mem, m, sat, mem', m', sat' => mem' = mem ∧ m' = m ∧ sat' = sat
  | cnt + 1, src, dst, mem, m, sat, mem', m', sat' =>
    ∃ mem1 m1 sat1, FilterSampleRule feedback p coef src dst mem m sat mem1 m1 sat1 ∧
      FilterRule feedback p coef cnt (src + 1) (dst + 1) mem1 m1 sat1 mem' m' sat'

/-- Instructions executed one after another, none where one of them stops. -/
def execAll : List Instr → State → Option State
  | [], s => some s
  | i :: rest, s =>
    match exec i s with
    | .next t => execAll rest t
    | .fault _ => none
    | .refused _ => none

end Sys2Proof.Machine
end

