-- ==== Sys2Proof/Certificates/Slice0/Obligations.lean ====
section
/-! DEFINITION. The statements for the provers, from the numbered rules of the spec. A record update in a conclusion is
the frame: every field it does not name, every register, flag, special register and memory among them, is unchanged. -/

open Sys2Proof Sys2Proof.Machine

/-! ## Encoding -/

/-- Decoding the word of any instruction gives the instruction back (`30_encoding.md` R131, R132, R134). -/
def Obligations.DecodeInvertsEncode : Prop := ∀ i : Instr, decode (encode i) = .ok i

/-- A word that decodes is the one word of its instruction: no bit is dropped (`30_encoding.md` R132, R136). -/
def Obligations.EncodeInvertsDecode : Prop := ∀ (w : Word) (i : Instr), decode w = .ok i → encode i = w

/-- Decoding is total: exactly one row of the opcode map matches and the word is an instruction, or none does and it is
illegal (`30_encoding.md` R138, with the test of R136). -/
def Obligations.DecodingIsTotal : Prop :=
  ∀ w : Word,
    (∃ row ∈ opcodeMap, w &&& row.mask = row.pattern ∧
      (∀ row' ∈ opcodeMap, w &&& row'.mask = row'.pattern → row' = row) ∧ ∃ i, decode w = .ok i) ∨
    ((∀ row ∈ opcodeMap, w &&& row.mask ≠ row.pattern) ∧ ∃ e, decode w = .error e)

/-- The worked encodings of `30_encoding.md` R141. -/
def Obligations.WorkedEncodingsDecode : Prop :=
  decode 0x08800100 = .ok (.li 1 0x100) ∧ decode 0x0A808000 = .ok (.li 5 0x8000) ∧
  decode 0x0E800000 = .ok (.lih 5 0) ∧ decode 0x1240FFFF = .ok (.addi 4 4 0xFFFF) ∧
  decode 0x14960000 = .ok (.add 1 1 3) ∧ decode 0x30000001 = .ok (.bfc 0 1) ∧
  decode 0x2600FFF7 = .ok (.bnz 4 0xFFF7) ∧ decode 0x35800011 = .ok (.csrr 3 0x11) ∧
  decode 0x45A00004 = .ok (.stw 3 2 4) ∧ decode 0x48100000 = .ok (.vld 0 1) ∧
  decode 0x61034000 = .ok (.vlerp 2 0 1 5) ∧ decode 0x80800000 = .ok (.lsproot 1 0) ∧
  decode 0x88C00000 = .ok (.lspmrg 1 4) ∧ decode 0xAD100000 = .ok (.vqenc 2 1) ∧
  decode 0xC5972800 = .ok (.fir 3 1 3 4 5) ∧ decode 0xCD94C000 = .ok (.syn 3 1 2 3)

/-! ## The step, fetch, faults -/

/-- The engine's step runs the decoded instruction (`44_sequencer_scalar.md` R255); the turn is taken off the model's
own list of turns (log 4). -/
def Obligations.StepRunsTheDecodedInstruction : Prop :=
  ∀ (s : State) (i : Instr), s.EngineNext → s.state = .running → s.pc.toNat < Config.imemWords →
    decode (s.imem.readWord s.pc.toNat) = .ok i → step s = exec i s.turnTaken

/-- An engine that is not RUNNING performs no step and changes nothing (`44_sequencer_scalar.md` R255); the turn
is taken off the model's own list of turns (log 4). -/
def Obligations.EngineRestsUnlessRunning : Prop :=
  ∀ s : State, s.EngineNext → s.state ≠ .running → step s = .next s.turnTaken

/-- A fetch at `PC >= IMEM_WORDS` raises ImemRange with FINFO = FPC = PC (`60_exceptions.md` R331). `IMEM_WORDS` is the
default size (log 1), and whose turn it is stands in the model's own list of turns (log 4). -/
def Obligations.FetchOutsideImemFaults : Prop :=
  ∀ s : State, s.EngineNext → s.state = .running → s.pc.toNat ≥ Config.imemWords →
    step s = .next (s.turnTaken.withFault 2 s.pc.toNat)

/-- A word with a reserved `op`, or with a 1 in a reserved bit of its format, raises IllegalInstruction with FINFO =
the word, whatever the state of ORDER or the flags (`30_encoding.md` R135, R136, `60_exceptions.md` R330). Whose turn it
is stands in the model's own list of turns (log 4). -/
def Obligations.IllegalWordsFault : Prop :=
  ∀ (s : State) (w : Word), s.EngineNext → s.state = .running → s.pc.toNat < Config.imemWords →
    s.imem.readWord s.pc.toNat = w →
    ((fieldOp w).toNat ∈ [0x0F, 0x1B, 0x1C, 0x1D, 0x1E, 0x1F, 0x23, 0x24, 0x25, 0x26, 0x27, 0x2D, 0x2E, 0x2F, 0x34,
        0x35, 0x36, 0x37, 0x38, 0x39, 0x3A, 0x3B, 0x3C, 0x3D, 0x3E, 0x3F] ∨
      ∃ row ∈ opcodeMap, fieldOp w = row.op ∧ w &&& row.format.reserved ≠ 0) →
    step s = .next (s.turnTaken.withFault 1 w.toNat)

/-- Faults are precise: an engine step that ends FAULTED changed FCAUSE, FPC, FINFO and STATE and nothing else, and
FPC is the address of the faulting instruction (`60_exceptions.md` R314, R315); the turn is taken off the model's own
list of turns (log 4). -/
def Obligations.FaultsArePrecise : Prop :=
  ∀ s t : State, s.EngineNext → s.state = .running → step s = .next t → t.state = .faulted →
    t.fcause ≠ 0 ∧ t.fcause.toNat ≤ 8 ∧
      t = { s.turnTaken with fcause := t.fcause, fpc := s.pc, finfo := t.finfo, state := .faulted }

/-- Every instruction, and every step of either agent, ends in a next state: nothing stops the model
(`70_reset_and_hazards.md` R361, `30_encoding.md` R138; that a fault is a next state is log 9). -/
def Obligations.EveryStepAnswersNext : Prop :=
  (∀ (i : Instr) (s : State), ∃ t, exec i s = .next t) ∧ ∀ s : State, ∃ t, step s = .next t

/-- While the engine runs, no step of either agent changes IMEM or TMEM, and no host step changes DMEM, a general
register or a lane unless it resets the registers (`20_memory.md` R105, R112, `10_state.md` R73). Whose turn it is
stands in the model's own list of turns (log 4), which a reset keeps with the port `hrdata` (log 10). -/
def Obligations.NothingWritesCodeWhileRunning : Prop :=
  ∀ s t : State, s.state = .running → step s = .next t →
    t.imem = s.imem ∧ t.tmem = s.tmem ∧
      (¬ s.EngineNext → t.dmem = s.dmem ∧ (t = s.turnTaken.resetRegisters ∨ (t.r = s.r ∧ t.v = s.v)))

/-- Of the instructions only HALT takes a running engine to HALTED, and every other one leaves it RUNNING or takes a
fault (`60_exceptions.md` R328, `44_sequencer_scalar.md` R257). -/
def Obligations.OnlyHaltHalts : Prop :=
  ∀ (i : Instr) (s t : State), s.state = .running → exec i s = .next t →
    (i = .halt ∧ t.state = .halted) ∨ (i ≠ .halt ∧ (t.state = .running ∨ t.state = .faulted))

/-- The only instructions that change SYNMEM are SYN, SYNWR and a CSRW to CSR 0x40 to 0x4F (`43_synthesis_filter.md`
R244 with `10_state.md` R67; the model's reading of the two, log 8). -/
def Obligations.SynmemHasThreeWriters : Prop :=
  ∀ (i : Instr) (s t : State), exec i s = .next t → t.synmem ≠ s.synmem →
    (∃ vc rs rd rn, i = .syn vc rs rd rn) ∨ (∃ vs, i = .synwr vs) ∨
      ∃ rs csr, i = .csrw rs csr ∧ 0x40 ≤ csr.toNat ∧ csr.toNat < 0x50

/-- Who writes the flags: RF by LSPROOT, MF by LSPMRG, SAT set by the twelve instructions that can clamp and never
cleared, each of them also by CSRW of FLAGS (`10_state.md` R47). -/
def Obligations.FlagsHaveTheirWriters : Prop :=
  ∀ (i : Instr) (s t : State), exec i s = .next t → (∀ rs, i ≠ .csrw rs 0x03) →
    (t.rf ≠ s.rf → ∃ vd va, i = .lsproot vd va) ∧
    (t.mf ≠ s.mf → ∃ vd rm, i = .lspmrg vd rm) ∧
    (s.sat = true → t.sat = true) ∧
    (t.sat ≠ s.sat → (∃ d a b, i = .mulq d a b) ∨ (∃ d a b, i = .vadd d a b) ∨ (∃ d a b, i = .vsub d a b) ∨
      (∃ d a b w, i = .vlerp d a b w) ∨ (∃ d w st, i = .vqs d w st) ∨ (∃ d st, i = .vqa d st) ∨
      (∃ d w, i = .vqenc d w) ∨ (∃ d, i = .vqdec d) ∨ (∃ d a g, i = .bwx d a g) ∨
      (∃ m c s d n, i = .fir m c s d n) ∨ (∃ m c s d n, i = .iir m c s d n) ∨ (∃ c s d n, i = .syn c s d n))

/-- Every step of either agent keeps a legal state legal: FAULTED if and only if FCAUSE is not 0
(`60_exceptions.md` R317), the memories canonical, ROOTCNT at most 16. -/
def Obligations.LegalStatesStayLegal : Prop :=
  ∀ s t : State, s.Legal → step s = .next t → t.Legal

/-- The reset state is legal, and so is the state after power-on with any canonical memory contents
(`70_reset_and_hazards.md` R351, R352). That reset itself lists no byte is the model's choice (log 2). -/
def Obligations.ResetIsLegal : Prop :=
  State.reset.Legal ∧
    ∀ imem dmem tmem : Memory, imem.wf → imem.within Config.imemWords → dmem.wf → dmem.within Config.dmemWords →
      tmem.wf → tmem.within Config.tmemWords → (State.powerOn imem dmem tmem).Legal

/-! ## Sequencer and scalar instructions -/

/-- NOP only advances PC; HALT only sets STATE, which raises `irq` if DONE_IE is set (`44_sequencer_scalar.md` R256,
R257). -/
def Obligations.NopAndHalt : Prop :=
  encode .nop = 0x00000000 ∧ encode .halt = 0x04000000 ∧
  ∀ s : State, exec .nop s = .next { s with pc := s.pc + 1 } ∧
    exec .halt s = .next { s with state := .halted } ∧
    (s.ien.getLsbD 0 = true → State.irq { s with state := .halted } = true)

/-- LI sign-extends its immediate; LIH replaces the high half and keeps the low half (`44_sequencer_scalar.md` R258,
R259). -/
def Obligations.ConstantLoads : Prop :=
  ∀ (d : SReg) (imm : BitVec 16) (s : State),
    encode (.li d imm) = encodeI 0x02 d imm ∧ encode (.lih d imm) = encodeI 0x03 d imm ∧
    exec (.li d imm) s = .next { s with r := s.r.set d (BitVec.ofInt 32 imm.toInt), pc := s.pc + 1 } ∧
    exec (.lih d imm) s = .next
      { s with r := s.r.set d (BitVec.ofNat 32 (imm.toNat * 65536 + s.r[d].toNat % 65536)), pc := s.pc + 1 }

/-- LI then LIH on one register yields the 32-bit constant whose halves they carry, whatever the register held before
(`44_sequencer_scalar.md` R273 (c)). -/
def Obligations.LiThenLihLoadsAnyConstant : Prop :=
  ∀ (d : SReg) (w : Word) (s : State),
    execAll [.li d (w.extractLsb' 0 16), .lih d (w.extractLsb' 16 16)] s =
      some { s with r := s.r.set d w, pc := s.pc + 2 }

/-- ADDI, ADD and SUB wrap modulo 2^32 and change no flag (`44_sequencer_scalar.md` R260, R261, R262). -/
def Obligations.ScalarArithmeticWraps : Prop :=
  ∀ (d a b : SReg) (imm : BitVec 16) (s : State),
    encode (.addi d a imm) = encodeM 0x04 d a imm ∧ encode (.add d a b) = encodeR3 0x05 d a b ∧
    encode (.sub d a b) = encodeR3 0x06 d a b ∧
    exec (.addi d a imm) s = .next
      { s with r := s.r.set d (BitVec.ofInt 32 (s.r[a].toInt + imm.toInt)), pc := s.pc + 1 } ∧
    exec (.add d a b) s = .next
      { s with r := s.r.set d (BitVec.ofInt 32 (s.r[a].toInt + s.r[b].toInt)), pc := s.pc + 1 } ∧
    exec (.sub d a b) s = .next
      { s with r := s.r.set d (BitVec.ofInt 32 (s.r[a].toInt - s.r[b].toInt)), pc := s.pc + 1 }

/-- MULQ rounds the exact product, saturates it, and sets SAT exactly if it clamps (`44_sequencer_scalar.md` R263,
`00_scope.md` R10). -/
def Obligations.MulqRoundsAndSaturates : Prop :=
  ∀ (d a b : SReg) (s : State),
    encode (.mulq d a b) = encodeR3 0x07 d a b ∧
    exec (.mulq d a b) s = .next
      { s with
        r := s.r.set d (BitVec.ofInt 32 (saturated (rounded (s.r[a].toInt * s.r[b].toInt))))
        sat := s.sat || decide (OutOfRange (rounded (s.r[a].toInt * s.r[b].toInt)))
        pc := s.pc + 1 }

/-- The branches change PC alone: the target is `(pc + 1 + sext_16(imm16)) mod 65536` (`44_sequencer_scalar.md` R264 to
R268, R271); flag indices 3 to 7 read 0. -/
def Obligations.BranchesGoToTheirTarget : Prop :=
  ∀ (r : SReg) (f : FlagNo) (imm : BitVec 16) (s : State),
    let target := BitVec.ofInt 16 (s.pc.toNat + 1 + imm.toInt)
    let flag := (f = 0 ∧ s.rf = true) ∨ (f = 1 ∧ s.sat = true) ∨ (f = 2 ∧ s.mf = true)
    encode (.bra imm) = encodeJ 0x08 imm ∧ encode (.bnz r imm) = encodeI 0x09 r imm ∧
    encode (.bz r imm) = encodeI 0x0A r imm ∧ encode (.bfs f imm) = encodeI 0x0B f imm ∧
    encode (.bfc f imm) = encodeI 0x0C f imm ∧
    exec (.bra imm) s = .next { s with pc := target } ∧
    exec (.bnz r imm) s = .next { s with pc := if s.r[r] ≠ 0 then target else s.pc + 1 } ∧
    exec (.bz r imm) s = .next { s with pc := if s.r[r] = 0 then target else s.pc + 1 } ∧
    exec (.bfs f imm) s = .next { s with pc := if flag then target else s.pc + 1 } ∧
    exec (.bfc f imm) s = .next { s with pc := if flag then s.pc + 1 else target }

/-- CSRR delivers every assigned CSR zero-extended from its width, with no side effect, and raises CsrAccess on an
unassigned number (`44_sequencer_scalar.md` R269). CIDX is `State.cidx`, of which another statement says what it
packs. -/
def Obligations.CsrrDeliversEveryCsr : Prop :=
  ∀ (d : SReg) (s : State), s.state = .running →
    let reads (n : Nat) (w : Word) : Prop :=
      exec (.csrr d (BitVec.ofNat 8 n)) s = .next { s with r := s.r.set d w, pc := s.pc + 1 }
    (∀ n, encode (.csrr d n) = encodeK 0x0D d n) ∧
    s.CsrReads reads ∧ reads 0x02 (BitVec.ofNat 32 (1 + 16 * s.herr.toNat)) ∧
    ∀ n : Nat, CsrUnassigned n → exec (.csrr d (BitVec.ofNat 8 n)) s = .next (s.withFault 7 n)

/-- CSRW stores the low bits of R[s] in every writable CSR, and raises CsrAccess on a read-only one, on CTRL and on an
unassigned number (`44_sequencer_scalar.md` R270). -/
def Obligations.CsrwStoresEveryWritableCsr : Prop :=
  ∀ (a : SReg) (s : State),
    (∀ n, encode (.csrw a n) = encodeK 0x0E a n) ∧
    s.CsrWrites s.r[a]
      (fun n t => exec (.csrw a (BitVec.ofNat 8 n)) s = .next { t with pc := s.pc + 1 }) ∧
    ∀ n : Nat, n ∈ csrReadOnly ∨ n = 0x01 ∨ CsrUnassigned n →
      exec (.csrw a (BitVec.ofNat 8 n)) s = .next (s.withFault 7 n)

/-- The packed compound index holds the low IBITS bits of every active stage's index, stage 0 in the most significant
position; where the active IBITS sum to more than 64, the bits above bit 63, those of the earliest stages, are lost
(`41_vector_quantizer.md` R199, `20_memory.md` R117). -/
def Obligations.CidxPacksStageZeroFirst : Prop :=
  ∀ s : State,
    let n := min s.nstg.toNat 8
    let bits (st : StageNo) : Nat := (s.desc st).ibits
    let total : Nat := ∑ u : StageNo, if u.val < n then bits u else 0
    let below (st : StageNo) : Nat := ∑ u : StageNo, if st < u ∧ u.val < n then bits u else 0
    let kept (st : StageNo) : Nat := min (bits st) (64 - below st)
    s.cidx < 2 ^ min total 64 ∧
    ∀ st : StageNo, st.val < n → s.cidx / 2 ^ below st % 2 ^ kept st = s.idx[st].toNat % 2 ^ kept st

/-! ## Memory and vector moves -/

/-- LDW loads the word at `u32(wrap32(R[a] + sext_16(imm16)))`, or raises DmemRange (`45_vector_memory.md` R290). -/
def Obligations.LdwLoadsAWord : Prop :=
  ∀ (d a : SReg) (imm : BitVec 16) (s : State),
    let addr := (BitVec.ofInt 32 (s.r[a].toInt + imm.toInt)).toNat
    encode (.ldw d a imm) = encodeM 0x10 d a imm ∧
    (addr < Config.dmemWords →
      exec (.ldw d a imm) s = .next { s with r := s.r.set d (s.dmem.readWord addr), pc := s.pc + 1 }) ∧
    (addr ≥ Config.dmemWords → exec (.ldw d a imm) s = .next (s.withFault 3 addr))

/-- STW stores R[s] at its word address and no other byte, or raises DmemRange before the write
(`45_vector_memory.md` R291). -/
def Obligations.StwStoresAWord : Prop :=
  ∀ (b a : SReg) (imm : BitVec 16) (s : State),
    let addr := (BitVec.ofInt 32 (s.r[a].toInt + imm.toInt)).toNat
    encode (.stw b a imm) = encodeM 0x11 b a imm ∧
    (addr < Config.dmemWords →
      ∃ m : Memory, exec (.stw b a imm) s = .next { s with dmem := m, pc := s.pc + 1 } ∧
        m.readWord addr = s.r[b] ∧ ∀ byte, byte / 4 ≠ addr → m.readByte byte = s.dmem.readByte byte) ∧
    (addr ≥ Config.dmemWords → exec (.stw b a imm) s = .next (s.withFault 3 addr))

/-- VLD loads lane `k < p` from word `base + k` and keeps the other lanes; BadOrder, then DmemRange
(`45_vector_memory.md` R292). -/
def Obligations.VldLoadsActiveLanes : Prop :=
  ∀ (d : VReg) (a : SReg) (s : State),
    let p := s.order.toNat
    let base := s.r[a].toNat
    encode (.vld d a) = encodeR2 0x12 d a ∧
    (s.OrderLegal → base + p ≤ Config.dmemWords →
      ∃ x : Lanes, exec (.vld d a) s = .next { s with v := s.v.set d x, pc := s.pc + 1 } ∧
        ∀ k : Fin 16, x[k] = if k.val < p then s.dmem.readWord (base + k.val) else (s.v[d])[k]) ∧
    (¬ s.OrderLegal → exec (.vld d a) s = .next (s.withFault 5 p)) ∧
    (s.OrderLegal → base + p > Config.dmemWords →
      exec (.vld d a) s = .next (s.withFault 3 (max base Config.dmemWords)))

/-- VST stores lane `k < p` at word `base + k` and no other byte; BadOrder, then DmemRange, before any word is written
(`45_vector_memory.md` R293). -/
def Obligations.VstStoresActiveLanes : Prop :=
  ∀ (b : VReg) (a : SReg) (s : State),
    let p := s.order.toNat
    let base := s.r[a].toNat
    encode (.vst b a) = encodeR2 0x13 b a ∧
    (s.OrderLegal → base + p ≤ Config.dmemWords →
      ∃ m : Memory, exec (.vst b a) s = .next { s with dmem := m, pc := s.pc + 1 } ∧
        (∀ k : Fin 16, k.val < p → m.readWord (base + k.val) = (s.v[b])[k]) ∧
        ∀ byte, byte < 4 * base ∨ 4 * (base + p) ≤ byte → m.readByte byte = s.dmem.readByte byte) ∧
    (¬ s.OrderLegal → exec (.vst b a) s = .next (s.withFault 5 p)) ∧
    (s.OrderLegal → base + p > Config.dmemWords →
      exec (.vst b a) s = .next (s.withFault 3 (max base Config.dmemWords)))

/-- VMOV, VZERO and SYNRD write the active lanes of Vd and nothing else (`45_vector_memory.md` R294, R295,
`43_synthesis_filter.md` R241). -/
def Obligations.VectorMovesWriteActiveLanes : Prop :=
  ∀ (d a : VReg) (s : State),
    let p := s.order.toNat
    encode (.vmov d a) = encodeR2 0x14 d a ∧ encode (.vzero d) = encodeR1 0x15 d ∧
    encode (.synrd d) = encodeR1 0x19 d ∧
    (s.OrderLegal →
      (∃ x : Lanes, exec (.vmov d a) s = .next { s with v := s.v.set d x, pc := s.pc + 1 } ∧
        ∀ k : Fin 16, x[k] = if k.val < p then (s.v[a])[k] else (s.v[d])[k]) ∧
      (∃ x : Lanes, exec (.vzero d) s = .next { s with v := s.v.set d x, pc := s.pc + 1 } ∧
        ∀ k : Fin 16, x[k] = if k.val < p then 0 else (s.v[d])[k]) ∧
      (∃ x : Lanes, exec (.synrd d) s = .next { s with v := s.v.set d x, pc := s.pc + 1 } ∧
        ∀ k : Fin 16, x[k] = if k.val < p then s.synmem[k] else (s.v[d])[k])) ∧
    (¬ s.OrderLegal → exec (.vmov d a) s = .next (s.withFault 5 p) ∧
      exec (.vzero d) s = .next (s.withFault 5 p) ∧ exec (.synrd d) s = .next (s.withFault 5 p))

/-- SYNWR loads SYNMEM words 0 to p-1 from a vector register and keeps words p to 15 (`43_synthesis_filter.md`
R242). -/
def Obligations.SynwrLoadsSynmem : Prop :=
  ∀ (b : VReg) (s : State),
    let p := s.order.toNat
    encode (.synwr b) = encodeR1 0x1A b ∧
    (s.OrderLegal →
      ∃ x : Lanes, exec (.synwr b) s = .next { s with synmem := x, pc := s.pc + 1 } ∧
        ∀ k : Fin 16, x[k] = if k.val < p then (s.v[b])[k] else s.synmem[k]) ∧
    (¬ s.OrderLegal → exec (.synwr b) s = .next (s.withFault 5 p))

/-- VADD and VSUB saturate lane by lane, all sources read before any lane is written, and set SAT exactly if a lane
clamps (`45_vector_memory.md` R296, R297). -/
def Obligations.VaddVsubSaturate : Prop :=
  ∀ (d a b : VReg) (s : State),
    let p := s.order.toNat
    let result (i : Instr) (e : Fin 16 → Int) : Prop :=
      ∃ (x : Lanes) (sat : Bool), exec i s = .next { s with v := s.v.set d x, sat := sat, pc := s.pc + 1 } ∧
        (∀ k : Fin 16, x[k] = if k.val < p then BitVec.ofInt 32 (saturated (e k)) else (s.v[d])[k]) ∧
        (sat = true ↔ s.sat = true ∨ ∃ k : Fin 16, k.val < p ∧ OutOfRange (e k))
    encode (.vadd d a b) = encodeR3 0x16 d a b ∧ encode (.vsub d a b) = encodeR3 0x17 d a b ∧
    (s.OrderLegal → result (.vadd d a b) (fun k => s.lane a k + s.lane b k) ∧
      result (.vsub d a b) (fun k => s.lane a k - s.lane b k)) ∧
    (¬ s.OrderLegal → exec (.vadd d a b) s = .next (s.withFault 5 p) ∧
      exec (.vsub d a b) s = .next (s.withFault 5 p))

/-- VLERP interpolates with one rounding and saturates; weight 0 gives Va and weight 65536 gives Vb exactly
(`45_vector_memory.md` R298). -/
def Obligations.VlerpInterpolates : Prop :=
  ∀ (d a b : VReg) (w : SReg) (s : State),
    let p := s.order.toNat
    let e (k : Fin 16) : Int := s.lane a k + rounded (s.r[w].toInt * (s.lane b k - s.lane a k))
    encode (.vlerp d a b w) = encodeR4 0x18 d a b w ∧
    (s.OrderLegal →
      ∃ (x : Lanes) (sat : Bool),
        exec (.vlerp d a b w) s = .next { s with v := s.v.set d x, sat := sat, pc := s.pc + 1 } ∧
        (∀ k : Fin 16, x[k] = if k.val < p then BitVec.ofInt 32 (saturated (e k)) else (s.v[d])[k]) ∧
        (sat = true ↔ s.sat = true ∨ ∃ k : Fin 16, k.val < p ∧ OutOfRange (e k)) ∧
        (s.r[w] = 0 → ∀ k : Fin 16, k.val < p → x[k] = (s.v[a])[k]) ∧
        (s.r[w] = 65536 → ∀ k : Fin 16, k.val < p → x[k] = (s.v[b])[k])) ∧
    (¬ s.OrderLegal → exec (.vlerp d a b w) s = .next (s.withFault 5 p))

/-- Every vector and unit instruction raises BadOrder with FINFO = ORDER when ORDER is 0 or above 16, before any other
check, and LSPROOT and LSPPOLY also when it is odd (`60_exceptions.md` R334). -/
def Obligations.BadOrderComesFirst : Prop :=
  ∀ s : State,
    (¬ s.OrderLegal → ∀ i : Instr, usesOrder i = true → exec i s = .next (s.withFault 5 s.order.toNat)) ∧
    (¬ s.EvenOrderLegal → ∀ d a : VReg, exec (.lsproot d a) s = .next (s.withFault 5 s.order.toNat) ∧
      exec (.lsppoly d a) s = .next (s.withFault 5 s.order.toNat))

/-- A filter whose source or destination block leaves DMEM raises DmemRange, the source tested first, a count of 0
included, and moves nothing (`60_exceptions.md` R332, `20_memory.md` R106). -/
def Obligations.FilterBlocksAreRangeChecked : Prop :=
  ∀ (i : Instr) (m c : VReg) (rs rd rn : SReg) (s : State),
    i = .fir m c rs rd rn ∨ i = .iir m c rs rd rn ∨ i = .syn c rs rd rn → s.OrderLegal →
    (s.r[rs].toNat + s.r[rn].toNat > Config.dmemWords →
      exec i s = .next (s.withFault 3 (max s.r[rs].toNat Config.dmemWords))) ∧
    (s.r[rs].toNat + s.r[rn].toNat ≤ Config.dmemWords → s.r[rd].toNat + s.r[rn].toNat > Config.dmemWords →
      exec i s = .next (s.withFault 3 (max s.r[rd].toNat Config.dmemWords)))

/-- BadParam and its sub-codes: GRID, the margin, the lanes of a stage, NSTG (`60_exceptions.md` R335). -/
def Obligations.IllegalSettingsRaiseBadParam : Prop :=
  ∀ (s : State) (d a : VReg) (rm : SReg) (st : StageNo),
    (s.EvenOrderLegal → s.grid.toNat = 0 ∨ s.grid.toNat > 1024 →
      exec (.lsproot d a) s = .next (s.withFault 6 1)) ∧
    (s.OrderLegal → ¬ s.MarginLegal rm → exec (.lspmrg d rm) s = .next (s.withFault 6 2)) ∧
    (s.OrderLegal → ¬ s.StageLanesLegal st → exec (.vqs d a st) s = .next (s.withFault 6 (3 + 256 * st.val)) ∧
      exec (.vqa d st) s = .next (s.withFault 6 (3 + 256 * st.val))) ∧
    (s.OrderLegal → s.nstg.toNat > 8 → exec (.vqenc d a) s = .next (s.withFault 6 4) ∧
      exec (.vqdec d) s = .next (s.withFault 6 4)) ∧
    (s.OrderLegal → s.nstg.toNat ≤ 8 → st.val < s.nstg.toNat → (∀ u : StageNo, u < st → s.StageLegal u) →
      ¬ s.StageLanesLegal st → exec (.vqenc d a) s = .next (s.withFault 6 (3 + 256 * st.val)) ∧
        exec (.vqdec d) s = .next (s.withFault 6 (3 + 256 * st.val)))

/-- TmemRange of the lowest stage whose codebook leaves TMEM, and IdxRange of the lowest stage whose index names no
entry, the latter after all descriptor faults (`60_exceptions.md` R333, R337). -/
def Obligations.TablesAndIndicesAreChecked : Prop :=
  ∀ (s : State) (d a : VReg) (st : StageNo), s.OrderLegal →
    let last := (s.desc st).base + (s.desc st).n * (s.desc st).len - 1
    let pair := st.val * 65536 + s.idx[st].toNat
    (s.StageLanesLegal st → ¬ s.StageTableLegal st → exec (.vqs d a st) s = .next (s.withFault 4 last) ∧
      exec (.vqa d st) s = .next (s.withFault 4 last)) ∧
    (s.StageLegal st → ¬ s.IndexLegal st → exec (.vqa d st) s = .next (s.withFault 8 pair)) ∧
    (s.nstg.toNat ≤ 8 → st.val < s.nstg.toNat → (∀ u : StageNo, u < st → s.StageLegal u) → s.StageLanesLegal st →
      ¬ s.StageTableLegal st → exec (.vqenc d a) s = .next (s.withFault 4 last) ∧
        exec (.vqdec d) s = .next (s.withFault 4 last)) ∧
    (s.nstg.toNat ≤ 8 → st.val < s.nstg.toNat → (∀ u : StageNo, u.val < s.nstg.toNat → s.StageLegal u) →
      (∀ u : StageNo, u < st → s.IndexLegal u) → ¬ s.IndexLegal st →
      exec (.vqdec d) s = .next (s.withFault 8 pair))

/-! ## The LSP unit -/

/-- The engine's cosine: its polynomial on the first quadrant, its values at 0, pi/2 and pi, its antisymmetry about
pi/2, its range, and the clamping of angles outside 0 to pi (`40_lsp_transform.md` R160). -/
def Obligations.CosineIsAntisymmetric : Prop :=
  (∀ t : Int, 0 ≤ t → t ≤ 32768 →
    let next (k c : Int) : Int := k - c * (t * t) / 4294967296
    cosfx t = (next 1073741824 (next 5298702701 (next 4357904630 (next 1431634204 239179831))) + 8192) / 16384) ∧
  cosfx 0 = 65536 ∧ cosfx 32768 = 0 ∧ cosfx 65536 = -65536 ∧
  (∀ t : Int, 0 ≤ t → t ≤ 65536 → cosfx (65536 - t) = -cosfx t) ∧
  (∀ t : Int, |cosfx t| ≤ 65536) ∧
  (∀ t : Int, t < 0 → cosfx t = 65536) ∧ ∀ t : Int, t > 65536 → cosfx t = -65536

/-- LSPROOT completes with the count in ROOTCNT and the failure in RF, and writes the lanes of Vd only when it found
all p roots (`40_lsp_transform.md` R164). -/
def Obligations.LsprootReportsItsCount : Prop :=
  ∀ (d a : VReg) (s : State), s.EvenOrderLegal → 1 ≤ s.grid.toNat → s.grid.toNat ≤ 1024 →
    let p := s.order.toNat
    let roots := s.lspRoots a
    roots.length ≤ p ∧
    (roots.length < p →
      exec (.lsproot d a) s =
        .next { s with rootcnt := BitVec.ofNat 5 roots.length, rf := true, pc := s.pc + 1 }) ∧
    (roots.length = p →
      ∃ x : Lanes,
        exec (.lsproot d a) s =
          .next { s with v := s.v.set d x, rootcnt := BitVec.ofNat 5 p, rf := false, pc := s.pc + 1 } ∧
        (∀ (k : Fin 16) (h : k.val < roots.length), x[k].toInt = roots[k]) ∧
        ∀ k : Fin 16, p ≤ k.val → x[k] = (s.v[d])[k])

/-- The roots LSPROOT finds are those of the rule's search: root `j` of F (`j` even) or G (`j` odd) lies in the first
cell, from where root `j - 1` was found (the angle 0 for the first) upward over the grid, whose ends differ in sign, and
bisection halves that cell down to it; the search ends short only where the polynomial has one sign at the last root
and at every grid point that is left. Roots are non-decreasing and at most pi (`40_lsp_transform.md` R161 to R164, R165
(a)). -/
def Obligations.RootsIsolateSignChanges : Prop :=
  ∀ (a : VReg) (s : State), s.EvenOrderLegal → 1 ≤ s.grid.toNat → s.grid.toNat ≤ 1024 →
    let p := s.order.toNat
    let m := p / 2
    let roots := s.lspRoots a
    let theta (k : Nat) : Nat := k * 65536 / s.grid.toNat
    ∃ (f g : Nat → Int) (cell : Nat → Nat),
      let c (j : Nat) : Nat → Int := if j % 2 = 0 then f else g
      let start (j : Nat) : Nat := if j = 0 then 0 else roots.getD (j - 1) 0
      let first (j : Nat) : Nat := if j = 0 then 1 else cell (j - 1)
      HalfCoefficientsRule (s.laneInt a) p f g ∧ roots.length ≤ p ∧
      (∀ (j : Nat) (h : j < roots.length),
        first j ≤ cell j ∧ cell j ≤ s.grid.toNat ∧
        (∀ k, first j ≤ k → k < cell j → SameSign (c j) m (start j) (theta k)) ∧
        ¬ SameSign (c j) m (start j) (theta (cell j)) ∧
        BisectionRule (c j) m (max 1 s.cdelta.toInt) (if cell j = first j then start j else theta (cell j - 1))
          (theta (cell j)) roots[j]) ∧
      (roots.length < p → ∀ k, first roots.length ≤ k → k ≤ s.grid.toNat →
        SameSign (c roots.length) m (start roots.length) (theta k)) ∧
      (∀ (j : Nat) (h : j + 1 < roots.length), roots[j] ≤ roots[j + 1]) ∧
      ∀ root ∈ roots, root ≤ 65536

/-- LSPPOLY writes the halved sums of the two expanded polynomials to the active lanes of Vd, exactly: its `sat32` never
clamps, so SAT is unchanged (`40_lsp_transform.md` R166). -/
def Obligations.LsppolyNeverSaturates : Prop :=
  ∀ (d a : VReg) (s : State), s.EvenOrderLegal →
    let p := s.order.toNat
    let m := p / 2
    ∃ (x : Lanes) (pp qp : Nat → Nat → Int),
      exec (.lsppoly d a) s = .next { s with v := s.v.set d x, pc := s.pc + 1 } ∧
      ExpansionRule (fun i => cosfx (s.laneInt a (2 * i))) m pp ∧
      ExpansionRule (fun i => cosfx (s.laneInt a (2 * i + 1))) m qp ∧
      (∀ k : Fin 16, k.val < p →
        x[k].toInt = (pp m (k.val + 1) + pp m k.val + qp m (k.val + 1) - qp m k.val + 1) / 2) ∧
      ∀ k : Fin 16, p ≤ k.val → x[k] = (s.v[d])[k]

/-- LSPMRG completes, writes to the active lanes of Vd what the upward walk from M and then the downward walk from
`65536 - M` leave, and sets MF exactly if it changed one (`40_lsp_transform.md` R167). -/
def Obligations.LspmrgReportsMoves : Prop :=
  ∀ (d : VReg) (rm : SReg) (s : State), s.OrderLegal → s.MarginLegal rm →
    let p := s.order.toNat
    let M := s.r[rm].toInt
    ∃ (x : Lanes) (mf : Bool) (u : Nat → Int),
      exec (.lspmrg d rm) s = .next { s with v := s.v.set d x, mf := mf, pc := s.pc + 1 } ∧
      (∀ k : Fin 16, k.val < p → u k.val = max (s.lane d k) (if k.val = 0 then M else u (k.val - 1) + M)) ∧
      (∀ k : Fin 16, k.val < p → x[k].toInt = min (u k.val)
        (if h : k.val + 1 < p ∧ k.val + 1 < 16 then x[k.val + 1].toInt - M else 65536 - M)) ∧
      (∀ k : Fin 16, p ≤ k.val → x[k] = (s.v[d])[k]) ∧
      (mf = true ↔ x ≠ s.v[d])

/-- After LSPMRG, for every input: neighbours at least M apart, every value from M to 65536 - M; a second LSPMRG
changes nothing and writes MF = 0; a lane that satisfies all constraints against its final neighbours is not moved
(`40_lsp_transform.md` R168). -/
def Obligations.MarginIsEnforced : Prop :=
  ∀ (d : VReg) (rm : SReg) (s : State), s.OrderLegal → s.MarginLegal rm →
    let p := s.order.toNat
    let M := s.r[rm].toInt
    ∃ t : State, exec (.lspmrg d rm) s = .next t ∧
      (∀ (k : Fin 16) (h : k.val + 1 < 16), k.val + 1 < p → t.lane d ⟨k.val + 1, h⟩ - t.lane d k ≥ M) ∧
      (∀ k : Fin 16, k.val < p → M ≤ t.lane d k ∧ t.lane d k ≤ 65536 - M) ∧
      exec (.lspmrg d rm) t = .next { t with mf := false, pc := t.pc + 1 } ∧
      ∀ k : Fin 16, k.val < p →
        (if h : k.val = 0 then s.lane d k ≥ M else s.lane d k - t.lane d ⟨k.val - 1, by omega⟩ ≥ M) →
        (if h : k.val + 1 < p ∧ k.val + 1 < 16 then t.lane d ⟨k.val + 1, h.2⟩ - s.lane d k ≥ M
          else s.lane d k ≤ 65536 - M) →
        t.lane d k = s.lane d k

/-! ## The VQ unit -/

/-- VQW writes to every active lane the weight of its nearer spacing, with the angles 0 and pi as the outer neighbours
(`41_vector_quantizer.md` R194). -/
def Obligations.VqwWeighsBySpacing : Prop :=
  ∀ (d a : VReg) (s : State),
    let p := s.order.toNat
    encode (.vqw d a) = encodeR2 0x28 d a ∧
    (s.OrderLegal →
      ∃ x : Lanes, exec (.vqw d a) s = .next { s with v := s.v.set d x, pc := s.pc + 1 } ∧
        (∀ k : Fin 16, k.val < p →
          let dl : Int := if h : k.val = 0 then s.lane a k else s.lane a k - s.lane a ⟨k.val - 1, by omega⟩
          let dr : Int := if h : k.val + 1 < p ∧ k.val + 1 < 16 then s.lane a ⟨k.val + 1, h.2⟩ - s.lane a k
            else 65536 - s.lane a k
          x[k].toInt = min 65535 ((s.wnum.toNat : Int) / max 1 (s.woff.toInt + min dl dr))) ∧
        ∀ k : Fin 16, p ≤ k.val → x[k] = (s.v[d])[k]) ∧
    (¬ s.OrderLegal → exec (.vqw d a) s = .next (s.withFault 5 p))

/-- VQS chooses the entry at the least distance, the lowest index among equals, subtracts it from the lanes of its
stage with saturation, and records it in IDX (`41_vector_quantizer.md` R192, R193, R195). -/
def Obligations.VqsSubtractsTheNearestEntry : Prop :=
  ∀ (d w : VReg) (st : StageNo) (s : State), s.OrderLegal → s.StageLegal st →
    let lo := (s.desc st).off
    let hi := (s.desc st).off + (s.desc st).len
    ∃ (e : Nat) (x : Lanes) (sat : Bool),
      exec (.vqs d w st) s = .next
        { s with v := s.v.set d x, idx := s.idx.set st (BitVec.ofNat 10 e), sat := sat, pc := s.pc + 1 } ∧
      e < (s.desc st).n ∧
      (∀ e', e' < (s.desc st).n → s.distance d w st e ≤ s.distance d w st e') ∧
      (∀ e', e' < e → s.distance d w st e < s.distance d w st e') ∧
      (∀ k : Fin 16, x[k] =
        if lo ≤ k.val ∧ k.val < hi then BitVec.ofInt 32 (saturated (s.lane d k - s.element st e (k.val - lo)))
        else (s.v[d])[k]) ∧
      (sat = true ↔ s.sat = true ∨
        ∃ k : Fin 16, lo ≤ k.val ∧ k.val < hi ∧ OutOfRange (s.lane d k - s.element st e (k.val - lo)))

/-- VQA adds entry IDX[s] to the lanes of its stage with saturation (`41_vector_quantizer.md` R196). -/
def Obligations.VqaAddsTheIndexedEntry : Prop :=
  ∀ (d : VReg) (st : StageNo) (s : State), s.OrderLegal → s.StageLegal st → s.IndexLegal st →
    let lo := (s.desc st).off
    let hi := (s.desc st).off + (s.desc st).len
    let entry (k : Fin 16) : Int := s.element st s.idx[st].toNat (k.val - lo)
    ∃ (x : Lanes) (sat : Bool),
      exec (.vqa d st) s = .next { s with v := s.v.set d x, sat := sat, pc := s.pc + 1 } ∧
      (∀ k : Fin 16, x[k] =
        if lo ≤ k.val ∧ k.val < hi then BitVec.ofInt 32 (saturated (s.lane d k + entry k)) else (s.v[d])[k]) ∧
      (sat = true ↔ s.sat = true ∨
        ∃ k : Fin 16, lo ≤ k.val ∧ k.val < hi ∧ OutOfRange (s.lane d k + entry k))

/-- VQENC is exactly VQS of stages 0 to NSTG-1 in turn, in one instruction (`41_vector_quantizer.md` R197). -/
def Obligations.VqencRunsItsStagesInTurn : Prop :=
  ∀ (d w : VReg) (s : State), s.OrderLegal → s.nstg.toNat ≤ 8 →
    (∀ st : StageNo, st.val < s.nstg.toNat → s.StageLegal st) →
    ∃ t : State,
      execAll (((List.finRange 8).filter (fun st => st.val < s.nstg.toNat)).map (Instr.vqs d w)) s = some t ∧
      t.state = s.state ∧ exec (.vqenc d w) s = .next { t with pc := s.pc + 1 }

/-- VQDEC is exactly VZERO and then VQA of stages 0 to NSTG-1, in one instruction (`41_vector_quantizer.md` R198). -/
def Obligations.VqdecIsVzeroThenVqa : Prop :=
  ∀ (d : VReg) (s : State), s.OrderLegal → s.nstg.toNat ≤ 8 →
    (∀ st : StageNo, st.val < s.nstg.toNat → s.StageLegal st ∧ s.IndexLegal st) →
    ∃ t : State,
      execAll (.vzero d :: ((List.finRange 8).filter (fun st => st.val < s.nstg.toNat)).map (Instr.vqa d)) s = some t ∧
      t.state = s.state ∧ exec (.vqdec d) s = .next { t with pc := s.pc + 1 }

/-- If nothing clamped, the decoder's vector plus the encoder's residual is the original: after VQENC Vd, Vw and
VQDEC Ve, `original[i] = V[e][i] + V[d][i]` for every active lane. That something clamped is SAT at the end of the same
two instructions run with SAT clear (`41_vector_quantizer.md` R200 (b)). -/
def Obligations.ResidualCompletesReconstruction : Prop :=
  ∀ (d w e : VReg) (s : State), d ≠ e → s.OrderLegal → s.nstg.toNat ≤ 8 →
    (∀ st : StageNo, st.val < s.nstg.toNat → s.StageLegal st) →
    ∃ (t u t' : State) (clamped : Bool),
      exec (.vqenc d w) s = .next t ∧ exec (.vqdec e) t = .next u ∧
      exec (.vqenc d w) { s with sat := false } = .next t' ∧ exec (.vqdec e) t' = .next { u with sat := clamped } ∧
      u.state = s.state ∧ u.sat = (s.sat || clamped) ∧
      (clamped = false → ∀ k : Fin 16, k.val < s.order.toNat → s.lane d k = u.lane e k + u.lane d k)

/-! ## The filters -/

/-- BWX scales lane `i` by the rounded power chain of gamma, and sets SAT exactly if a product or a power clamps, the
last, discarded power included (`42_weighting_filters.md` R221). -/
def Obligations.BwxScalesByPowers : Prop :=
  ∀ (d a : VReg) (g : SReg) (s : State),
    let p := s.order.toNat
    encode (.bwx d a g) = encodeR3 0x30 d a g ∧
    (s.OrderLegal →
      ∃ (x : Lanes) (sat : Bool) (power : Nat → Int),
        exec (.bwx d a g) s = .next { s with v := s.v.set d x, sat := sat, pc := s.pc + 1 } ∧
        power 0 = s.r[g].toInt ∧ (∀ k, power (k + 1) = saturated (rounded (power k * s.r[g].toInt))) ∧
        (∀ k : Fin 16, x[k] =
          if k.val < p then BitVec.ofInt 32 (saturated (rounded (s.lane a k * power k))) else (s.v[d])[k]) ∧
        (sat = true ↔ s.sat = true ∨ ∃ k : Fin 16, k.val < p ∧
          (OutOfRange (rounded (s.lane a k * power k)) ∨ OutOfRange (rounded (power k * s.r[g].toInt))))) ∧
    (¬ s.OrderLegal → exec (.bwx d a g) s = .next (s.withFault 5 p))

/-- FIR filters sample by sample through the numerator: each input enters the memory, each output is stored, nothing
else changes (`42_weighting_filters.md` R223, with the counts and overlaps of R225). -/
def Obligations.FirFollowsItsRecurrence : Prop :=
  ∀ (vm vc : VReg) (rs rd rn : SReg) (s : State), s.OrderLegal → s.BlocksLegal rs rd rn →
    ∃ (mem : Lanes) (m : Memory) (sat : Bool),
      exec (.fir vm vc rs rd rn) s = .next { s with v := s.v.set vm mem, dmem := m, sat := sat, pc := s.pc + 1 } ∧
      FilterRule false s.order.toNat s.v[vc] s.r[rn].toNat s.r[rs].toNat s.r[rd].toNat s.v[vm] s.dmem s.sat mem m sat

/-- IIR filters sample by sample through the denominator: each output, clamped, enters the memory and is stored
(`42_weighting_filters.md` R224, with the counts and overlaps of R225). -/
def Obligations.IirFollowsItsRecurrence : Prop :=
  ∀ (vm vc : VReg) (rs rd rn : SReg) (s : State), s.OrderLegal → s.BlocksLegal rs rd rn →
    ∃ (mem : Lanes) (m : Memory) (sat : Bool),
      exec (.iir vm vc rs rd rn) s = .next { s with v := s.v.set vm mem, dmem := m, sat := sat, pc := s.pc + 1 } ∧
      FilterRule true s.order.toNat s.v[vc] s.r[rn].toNat s.r[rs].toNat s.r[rd].toNat s.v[vm] s.dmem s.sat mem m sat

/-- SYN is the denominator with SYNMEM in the place of the register (`43_synthesis_filter.md` R240). -/
def Obligations.SynFollowsItsRecurrence : Prop :=
  ∀ (vc : VReg) (rs rd rn : SReg) (s : State), s.OrderLegal → s.BlocksLegal rs rd rn →
    ∃ (mem : Lanes) (m : Memory) (sat : Bool),
      exec (.syn vc rs rd rn) s = .next { s with synmem := mem, dmem := m, sat := sat, pc := s.pc + 1 } ∧
      FilterRule true s.order.toNat s.v[vc] s.r[rn].toNat s.r[rs].toNat s.r[rd].toNat s.synmem s.dmem s.sat mem m sat

/-- Filter-memory decomposability: one run over `n1 + n2` samples and a run over `n1` followed by a run over the next
`n2` (only the scalar registers changed in between) leave the same DMEM, the same memory and the same SAT, for SYN with
SYNMEM and for FIR and IIR with a memory register that is not also the coefficients (`43_synthesis_filter.md` R243);
with Vm = Vc the first run overwrites the coefficients (`70_reset_and_hazards.md` R357 (b)). -/
def Obligations.FiltersAreDecomposable : Prop :=
  ∀ (i : Instr) (vm vc : VReg) (rs rd rn : SReg) (s : State) (r1 r2 : Vector Word 8) (src dst n1 n2 : Nat),
    i = .syn vc rs rd rn ∨ (vm ≠ vc ∧ (i = .fir vm vc rs rd rn ∨ i = .iir vm vc rs rd rn)) →
    s.OrderLegal → src + (n1 + n2) ≤ Config.dmemWords → dst + (n1 + n2) ≤ Config.dmemWords →
    s.r[rs].toNat = src → s.r[rd].toNat = dst → s.r[rn].toNat = n1 + n2 →
    r1[rs].toNat = src → r1[rd].toNat = dst → r1[rn].toNat = n1 →
    r2[rs].toNat = src + n1 → r2[rd].toNat = dst + n1 → r2[rn].toNat = n2 →
    ∃ t t1 t2 : State, exec i s = .next t ∧ exec i { s with r := r1 } = .next t1 ∧
      exec i { t1 with r := r2 } = .next t2 ∧ t.state = s.state ∧
      t2.dmem = t.dmem ∧ t2.synmem = t.synmem ∧ t2.v = t.v ∧ t2.sat = t.sat

/-! ## The host -/

/-- The host's CTRL commands in their order, with the bits above 3 ignored (`60_exceptions.md` R328): SRST alone; ABORT
acts only on a running engine; CLR clears HERR and leaves HALTED or FAULTED; START starts an IDLE or HALTED engine at
ENTRY and is refused otherwise. The turn is taken off the model's own list of turns (log 4). -/
def Obligations.CtrlCommandsActInOrder : Prop :=
  ∀ (s : State) (v : Word) (rest : List Turn) (s0 s1 s2 s3 s4 : State),
    s.turns = .host (.hwrite 0x0401 v) :: rest →
    s0 = { s with turns := rest } →
    s1 = (if v.getLsbD 2 ∧ s0.state = .running
      then { s0 with fcause := 15, fpc := s0.pc, finfo := 0, state := .faulted } else s0) →
    s2 = (if v.getLsbD 1 then { s1 with herr := false } else s1) →
    s3 = (if v.getLsbD 1 ∧ (s2.state = .halted ∨ s2.state = .faulted)
      then { s2 with state := .idle, fcause := 0, fpc := 0, finfo := 0 } else s2) →
    s4 = (if v.getLsbD 0 then
      (if s3.state = .idle ∨ s3.state = .halted then { s3 with pc := s3.entry, state := .running }
        else { s3 with herr := true }) else s3) →
    step s = .next (if v.getLsbD 3 then s0.resetRegisters else s4)

/-- `Reset()`, by SRST or by the reset input, sets every register to 0 and touches no memory; afterwards `irq` is low,
STATUS reads 0 and the engine does nothing (`70_reset_and_hazards.md` R351). The model's own list of turns (log 4)
and the port `hrdata` (log 5) keep their values (log 10). -/
def Obligations.ResetClearsRegistersOnly : Prop :=
  ∀ (s : State) (v : Word) (rest : List Turn),
    s.turns = .host .reset :: rest ∨ (s.turns = .host (.hwrite 0x0401 v) :: rest ∧ v.getLsbD 3 = true) →
    ∃ t : State, step s = .next t ∧
      (∀ i : SReg, t.r[i] = 0) ∧ (∀ (i : VReg) (k : Fin 16), (t.v[i])[k] = 0) ∧ (∀ k : Fin 16, t.synmem[k] = 0) ∧
      t.pc = 0 ∧ t.state = .idle ∧ t.rf = false ∧ t.sat = false ∧ t.mf = false ∧ t.herr = false ∧ t.ien = 0 ∧
      t.entry = 0 ∧ t.fcause = 0 ∧ t.fpc = 0 ∧ t.finfo = 0 ∧ t.order = 0 ∧ t.grid = 0 ∧ t.cdelta = 0 ∧
      t.rootcnt = 0 ∧ t.wnum = 0 ∧ t.woff = 0 ∧ t.nstg = 0 ∧
      (∀ st : StageNo, t.sdbase[st] = 0 ∧ t.sdcfg[st] = 0 ∧ t.idx[st] = 0) ∧
      t.imem = s.imem ∧ t.dmem = s.dmem ∧ t.tmem = s.tmem ∧ t.turns = rest ∧ t.hrdata = s.hrdata ∧
      t.irq = false ∧ t.statusWord = 0 ∧ engineStep t = .next t

/-- While STATE = RUNNING a host operation other than a read of ID, CTRL or STATUS and a write of CTRL is refused: a
read returns 0, a write is ignored, HERR is set and nothing else changes (`20_memory.md` R105 item 3). That a write of
ID or STATUS is among them is the model's reading of `60_exceptions.md` R321 (log 7); the list of turns and the port
`hrdata` are the model's own (logs 4, 5). -/
def Obligations.HostIsRefusedWhileRunning : Prop :=
  ∀ (s : State) (addr : BitVec 14) (v : Word) (rest : List Turn), s.state = .running →
    (s.turns = .host (.hread addr) :: rest → addr ≠ 0x0400 → addr ≠ 0x0401 → addr ≠ 0x0402 →
      step s = .next { s with turns := rest, hrdata := 0, herr := true }) ∧
    (s.turns = .host (.hwrite addr v) :: rest → addr ≠ 0x0401 →
      step s = .next { s with turns := rest, herr := true })

/-- While STATE is not RUNNING the host reaches every word of IMEM, TMEM and DMEM: a write stores the word and no other
byte, a read returns it (`20_memory.md` R104, R105 item 2); and an unmapped address is refused in any STATE (item 4).
The slots are fully mapped at the default sizes (log 1); the list of turns and the port `hrdata` are the model's own
(logs 4, 5). -/
def Obligations.HostReachesTheMemories : Prop :=
  ∀ (s : State) (addr : BitVec 14) (v : Word) (rest : List Turn),
    let a := addr.toNat
    let target : Option Memory :=
      if a < 0x0400 then some s.imem else if 0x1000 ≤ a ∧ a < 0x2000 then some s.tmem
      else if 0x2000 ≤ a ∧ a < 0x3000 then some s.dmem else none
    let word := if a < 0x0400 then a else if a < 0x2000 then a - 0x1000 else a - 0x2000
    (∀ m, target = some m → s.state ≠ .running →
      (s.turns = .host (.hread addr) :: rest →
        step s = .next { s with turns := rest, hrdata := m.readWord word }) ∧
      (s.turns = .host (.hwrite addr v) :: rest →
        ∃ m' : Memory, m'.readWord word = v ∧ (∀ b, b / 4 ≠ word → m'.readByte b = m.readByte b) ∧
          step s = .next (if a < 0x0400 then { s with turns := rest, imem := m' }
            else if a < 0x2000 then { s with turns := rest, tmem := m' } else { s with turns := rest, dmem := m' }))) ∧
    ((0x0500 ≤ a ∧ a < 0x1000) ∨ 0x3000 ≤ a →
      (s.turns = .host (.hread addr) :: rest →
        step s = .next { s with turns := rest, hrdata := 0, herr := true }) ∧
      (s.turns = .host (.hwrite addr v) :: rest → step s = .next { s with turns := rest, herr := true }))

/-- The interrupt output is a level, a function of IEN and STATE alone, and STATUS shows STATE, HERR and that level
(`60_exceptions.md` R320, `10_state.md` R51). -/
def Obligations.IrqIsALevel : Prop :=
  ∀ s : State,
    (s.irq = true ↔ (s.ien.getLsbD 0 = true ∧ s.state = .halted) ∨ (s.ien.getLsbD 1 = true ∧ s.state = .faulted)) ∧
    s.statusWord.toNat = s.state.code.toNat + 16 * s.herr.toNat + 256 * s.irq.toNat

/-- The host and the CSR space: ID, CTRL and STATUS are read in any STATE; while STATE is not RUNNING every assigned CSR
is read and every writable one written, as R48 says, and nothing else changes; a write of a read-only CSR and any access
to an unassigned number are refused with HERR (`20_memory.md` R105 items 1 to 3, `10_state.md` R48, R70,
`60_exceptions.md` R321). That a write of ID or STATUS is refused while RUNNING too is the model's reading (log 7); the list of turns and
the port `hrdata` are the model's own (logs 4, 5). -/
def Obligations.HostReachesTheCsrs : Prop :=
  ∀ (s : State) (v : Word) (rest : List Turn),
    let addr (n : Nat) : BitVec 14 := BitVec.ofNat 14 (0x0400 + n)
    let reads (n : Nat) (w : Word) : Prop :=
      step { s with turns := .host (.hread (addr n)) :: rest } = .next { s with turns := rest, hrdata := w }
    let writes (n : Nat) (t : State) : Prop :=
      step { s with turns := .host (.hwrite (addr n) v) :: rest } = .next { t with turns := rest }
    (reads 0x00 0x4C535031 ∧ reads 0x01 0 ∧
      reads 0x02 (BitVec.ofNat 32 (s.state.code.toNat + 16 * s.herr.toNat + 256 * s.irq.toNat))) ∧
    (s.state ≠ .running → s.CsrReads reads ∧ s.CsrWrites v writes) ∧
    (∀ n ∈ csrReadOnly, writes n { s with herr := true }) ∧
    ∀ n : Nat, CsrUnassigned n → writes n { s with herr := true } ∧
      step { s with turns := .host (.hread (addr n)) :: rest } =
        .next { s with turns := rest, hrdata := 0, herr := true }
end

