-- ==== Sys2Proof/Laws/Arith.lean ====
section
/-! SUPPORT. The laws of saturation, rounding and wrapping (`00_scope.md` R8 to R11). -/

namespace Sys2Proof.Machine

open Sys2Proof

theorem clamp32_range (v : Int) : minWord ≤ clamp32 v ∧ clamp32 v ≤ maxWord := by
  unfold clamp32 minWord maxWord; split_ifs <;> omega

theorem clamp32_eq_max_min (v : Int) : clamp32 v = max (-2147483648) (min 2147483647 v) := by
  unfold clamp32 minWord maxWord; split_ifs <;> omega

theorem toInt_ofInt_of_range {v : Int} (lo : minWord ≤ v) (hi : v ≤ maxWord) : (BitVec.ofInt 32 v).toInt = v := by
  unfold minWord at lo
  unfold maxWord at hi
  rw [BitVec.toInt_ofInt, Int.bmod_def]
  split <;> omega

/-- `sat32` as an integer is the clamped integer (R8). -/
@[simp] theorem toInt_sat32 (v : Int) : (sat32 v).toInt = clamp32 v :=
  toInt_ofInt_of_range (clamp32_range v).1 (clamp32_range v).2

theorem clamps_iff (v : Int) : clamps v = true ↔ v > 2147483647 ∨ v < -2147483648 := by
  rw [clamps, Bool.or_eq_true, decide_eq_true_iff, decide_eq_true_iff]
  rfl

theorem clamps_eq_false_iff (v : Int) : clamps v = false ↔ minWord ≤ v ∧ v ≤ maxWord := by
  rw [← Bool.not_eq_true, clamps_iff]
  unfold minWord maxWord
  omega

theorem clamp32_of_not_clamps {v : Int} (h : clamps v = false) : clamp32 v = v := by
  have := (clamps_eq_false_iff v).1 h
  unfold clamp32; split_ifs <;> omega

theorem toInt_range (w : Word) : minWord ≤ w.toInt ∧ w.toInt ≤ maxWord := by
  have := BitVec.toInt_lt (x := w)
  have := BitVec.le_toInt (x := w)
  unfold minWord maxWord
  constructor <;> omega

@[simp] theorem clamp32_toInt (w : Word) : clamp32 w.toInt = w.toInt := by
  have := toInt_range w
  unfold clamp32; split_ifs <;> omega

@[simp] theorem clamps_toInt (w : Word) : clamps w.toInt = false :=
  (clamps_eq_false_iff _).2 (toInt_range w)

@[simp] theorem sat32_toInt (w : Word) : sat32 w.toInt = w := by
  simp [sat32]

/-- Rounding is monotone (R9). -/
theorem rnd16_mono {a b : Int} (h : a ≤ b) : rnd16 a ≤ rnd16 b := by
  unfold rnd16; omega

/-- Rounding an exact multiple of 65536 (R9). -/
@[simp] theorem rnd16_mul (a : Int) : rnd16 (a * 65536) = a := by
  unfold rnd16; omega

/-- A bound by an integer survives the rounding (R9). -/
theorem abs_rnd16_le {v n : Int} (h : |v| ≤ n * 65536) : |rnd16 v| ≤ n := by
  rw [abs_le] at h ⊢
  unfold rnd16
  omega

end Sys2Proof.Machine
end

