-- ==== Sys2Proof/Laws/State.lean ====
section
/-! SUPPORT. One lemma per field per update of the state, so that no proof unfolds a record update. -/

namespace Sys2Proof.Machine

open Sys2Proof

/-! ## `State.advance`: the end of an instruction that does not branch (R45) -/

@[simp] theorem State.advance_r (s : State) : s.advance.r = s.r := rfl
@[simp] theorem State.advance_v (s : State) : s.advance.v = s.v := rfl
@[simp] theorem State.advance_synmem (s : State) : s.advance.synmem = s.synmem := rfl
@[simp] theorem State.advance_pc (s : State) : s.advance.pc = s.pc + 1 := rfl
@[simp] theorem State.advance_state (s : State) : s.advance.state = s.state := rfl
@[simp] theorem State.advance_rf (s : State) : s.advance.rf = s.rf := rfl
@[simp] theorem State.advance_sat (s : State) : s.advance.sat = s.sat := rfl
@[simp] theorem State.advance_mf (s : State) : s.advance.mf = s.mf := rfl
@[simp] theorem State.advance_herr (s : State) : s.advance.herr = s.herr := rfl
@[simp] theorem State.advance_ien (s : State) : s.advance.ien = s.ien := rfl
@[simp] theorem State.advance_entry (s : State) : s.advance.entry = s.entry := rfl
@[simp] theorem State.advance_fcause (s : State) : s.advance.fcause = s.fcause := rfl
@[simp] theorem State.advance_fpc (s : State) : s.advance.fpc = s.fpc := rfl
@[simp] theorem State.advance_finfo (s : State) : s.advance.finfo = s.finfo := rfl
@[simp] theorem State.advance_order (s : State) : s.advance.order = s.order := rfl
@[simp] theorem State.advance_grid (s : State) : s.advance.grid = s.grid := rfl
@[simp] theorem State.advance_cdelta (s : State) : s.advance.cdelta = s.cdelta := rfl
@[simp] theorem State.advance_rootcnt (s : State) : s.advance.rootcnt = s.rootcnt := rfl
@[simp] theorem State.advance_wnum (s : State) : s.advance.wnum = s.wnum := rfl
@[simp] theorem State.advance_woff (s : State) : s.advance.woff = s.woff := rfl
@[simp] theorem State.advance_nstg (s : State) : s.advance.nstg = s.nstg := rfl
@[simp] theorem State.advance_sdbase (s : State) : s.advance.sdbase = s.sdbase := rfl
@[simp] theorem State.advance_sdcfg (s : State) : s.advance.sdcfg = s.sdcfg := rfl
@[simp] theorem State.advance_idx (s : State) : s.advance.idx = s.idx := rfl
@[simp] theorem State.advance_imem (s : State) : s.advance.imem = s.imem := rfl
@[simp] theorem State.advance_dmem (s : State) : s.advance.dmem = s.dmem := rfl
@[simp] theorem State.advance_tmem (s : State) : s.advance.tmem = s.tmem := rfl
@[simp] theorem State.advance_turns (s : State) : s.advance.turns = s.turns := rfl
@[simp] theorem State.advance_hrdata (s : State) : s.advance.hrdata = s.hrdata := rfl

/-! ## `State.branch`: a taken branch (R271) -/

@[simp] theorem State.branch_r (imm : BitVec 16) (s : State) : (s.branch imm).r = s.r := rfl
@[simp] theorem State.branch_v (imm : BitVec 16) (s : State) : (s.branch imm).v = s.v := rfl
@[simp] theorem State.branch_synmem (imm : BitVec 16) (s : State) : (s.branch imm).synmem = s.synmem := rfl
@[simp] theorem State.branch_pc (imm : BitVec 16) (s : State) : (s.branch imm).pc = branchTarget s.pc imm := rfl
@[simp] theorem State.branch_state (imm : BitVec 16) (s : State) : (s.branch imm).state = s.state := rfl
@[simp] theorem State.branch_rf (imm : BitVec 16) (s : State) : (s.branch imm).rf = s.rf := rfl
@[simp] theorem State.branch_sat (imm : BitVec 16) (s : State) : (s.branch imm).sat = s.sat := rfl
@[simp] theorem State.branch_mf (imm : BitVec 16) (s : State) : (s.branch imm).mf = s.mf := rfl
@[simp] theorem State.branch_herr (imm : BitVec 16) (s : State) : (s.branch imm).herr = s.herr := rfl
@[simp] theorem State.branch_ien (imm : BitVec 16) (s : State) : (s.branch imm).ien = s.ien := rfl
@[simp] theorem State.branch_entry (imm : BitVec 16) (s : State) : (s.branch imm).entry = s.entry := rfl
@[simp] theorem State.branch_fcause (imm : BitVec 16) (s : State) : (s.branch imm).fcause = s.fcause := rfl
@[simp] theorem State.branch_fpc (imm : BitVec 16) (s : State) : (s.branch imm).fpc = s.fpc := rfl
@[simp] theorem State.branch_finfo (imm : BitVec 16) (s : State) : (s.branch imm).finfo = s.finfo := rfl
@[simp] theorem State.branch_order (imm : BitVec 16) (s : State) : (s.branch imm).order = s.order := rfl
@[simp] theorem State.branch_grid (imm : BitVec 16) (s : State) : (s.branch imm).grid = s.grid := rfl
@[simp] theorem State.branch_cdelta (imm : BitVec 16) (s : State) : (s.branch imm).cdelta = s.cdelta := rfl
@[simp] theorem State.branch_rootcnt (imm : BitVec 16) (s : State) : (s.branch imm).rootcnt = s.rootcnt := rfl
@[simp] theorem State.branch_wnum (imm : BitVec 16) (s : State) : (s.branch imm).wnum = s.wnum := rfl
@[simp] theorem State.branch_woff (imm : BitVec 16) (s : State) : (s.branch imm).woff = s.woff := rfl
@[simp] theorem State.branch_nstg (imm : BitVec 16) (s : State) : (s.branch imm).nstg = s.nstg := rfl
@[simp] theorem State.branch_sdbase (imm : BitVec 16) (s : State) : (s.branch imm).sdbase = s.sdbase := rfl
@[simp] theorem State.branch_sdcfg (imm : BitVec 16) (s : State) : (s.branch imm).sdcfg = s.sdcfg := rfl
@[simp] theorem State.branch_idx (imm : BitVec 16) (s : State) : (s.branch imm).idx = s.idx := rfl
@[simp] theorem State.branch_imem (imm : BitVec 16) (s : State) : (s.branch imm).imem = s.imem := rfl
@[simp] theorem State.branch_dmem (imm : BitVec 16) (s : State) : (s.branch imm).dmem = s.dmem := rfl
@[simp] theorem State.branch_tmem (imm : BitVec 16) (s : State) : (s.branch imm).tmem = s.tmem := rfl
@[simp] theorem State.branch_turns (imm : BitVec 16) (s : State) : (s.branch imm).turns = s.turns := rfl
@[simp] theorem State.branch_hrdata (imm : BitVec 16) (s : State) : (s.branch imm).hrdata = s.hrdata := rfl

/-! ## `State.setReg`: a write of a scalar register (R41) -/

@[simp] theorem State.setReg_r (i : SReg) (w : Word) (s : State) : (s.setReg i w).r = s.r.set i w := rfl
@[simp] theorem State.setReg_v (i : SReg) (w : Word) (s : State) : (s.setReg i w).v = s.v := rfl
@[simp] theorem State.setReg_synmem (i : SReg) (w : Word) (s : State) : (s.setReg i w).synmem = s.synmem := rfl
@[simp] theorem State.setReg_pc (i : SReg) (w : Word) (s : State) : (s.setReg i w).pc = s.pc := rfl
@[simp] theorem State.setReg_state (i : SReg) (w : Word) (s : State) : (s.setReg i w).state = s.state := rfl
@[simp] theorem State.setReg_rf (i : SReg) (w : Word) (s : State) : (s.setReg i w).rf = s.rf := rfl
@[simp] theorem State.setReg_sat (i : SReg) (w : Word) (s : State) : (s.setReg i w).sat = s.sat := rfl
@[simp] theorem State.setReg_mf (i : SReg) (w : Word) (s : State) : (s.setReg i w).mf = s.mf := rfl
@[simp] theorem State.setReg_herr (i : SReg) (w : Word) (s : State) : (s.setReg i w).herr = s.herr := rfl
@[simp] theorem State.setReg_ien (i : SReg) (w : Word) (s : State) : (s.setReg i w).ien = s.ien := rfl
@[simp] theorem State.setReg_entry (i : SReg) (w : Word) (s : State) : (s.setReg i w).entry = s.entry := rfl
@[simp] theorem State.setReg_fcause (i : SReg) (w : Word) (s : State) : (s.setReg i w).fcause = s.fcause := rfl
@[simp] theorem State.setReg_fpc (i : SReg) (w : Word) (s : State) : (s.setReg i w).fpc = s.fpc := rfl
@[simp] theorem State.setReg_finfo (i : SReg) (w : Word) (s : State) : (s.setReg i w).finfo = s.finfo := rfl
@[simp] theorem State.setReg_order (i : SReg) (w : Word) (s : State) : (s.setReg i w).order = s.order := rfl
@[simp] theorem State.setReg_grid (i : SReg) (w : Word) (s : State) : (s.setReg i w).grid = s.grid := rfl
@[simp] theorem State.setReg_cdelta (i : SReg) (w : Word) (s : State) : (s.setReg i w).cdelta = s.cdelta := rfl
@[simp] theorem State.setReg_rootcnt (i : SReg) (w : Word) (s : State) : (s.setReg i w).rootcnt = s.rootcnt := rfl
@[simp] theorem State.setReg_wnum (i : SReg) (w : Word) (s : State) : (s.setReg i w).wnum = s.wnum := rfl
@[simp] theorem State.setReg_woff (i : SReg) (w : Word) (s : State) : (s.setReg i w).woff = s.woff := rfl
@[simp] theorem State.setReg_nstg (i : SReg) (w : Word) (s : State) : (s.setReg i w).nstg = s.nstg := rfl
@[simp] theorem State.setReg_sdbase (i : SReg) (w : Word) (s : State) : (s.setReg i w).sdbase = s.sdbase := rfl
@[simp] theorem State.setReg_sdcfg (i : SReg) (w : Word) (s : State) : (s.setReg i w).sdcfg = s.sdcfg := rfl
@[simp] theorem State.setReg_idx (i : SReg) (w : Word) (s : State) : (s.setReg i w).idx = s.idx := rfl
@[simp] theorem State.setReg_imem (i : SReg) (w : Word) (s : State) : (s.setReg i w).imem = s.imem := rfl
@[simp] theorem State.setReg_dmem (i : SReg) (w : Word) (s : State) : (s.setReg i w).dmem = s.dmem := rfl
@[simp] theorem State.setReg_tmem (i : SReg) (w : Word) (s : State) : (s.setReg i w).tmem = s.tmem := rfl
@[simp] theorem State.setReg_turns (i : SReg) (w : Word) (s : State) : (s.setReg i w).turns = s.turns := rfl
@[simp] theorem State.setReg_hrdata (i : SReg) (w : Word) (s : State) : (s.setReg i w).hrdata = s.hrdata := rfl

/-! ## `State.setVec`: a write of a vector register (R42) -/

@[simp] theorem State.setVec_r (i : VReg) (x : Lanes) (s : State) : (s.setVec i x).r = s.r := rfl
@[simp] theorem State.setVec_v (i : VReg) (x : Lanes) (s : State) : (s.setVec i x).v = s.v.set i x := rfl
@[simp] theorem State.setVec_synmem (i : VReg) (x : Lanes) (s : State) : (s.setVec i x).synmem = s.synmem := rfl
@[simp] theorem State.setVec_pc (i : VReg) (x : Lanes) (s : State) : (s.setVec i x).pc = s.pc := rfl
@[simp] theorem State.setVec_state (i : VReg) (x : Lanes) (s : State) : (s.setVec i x).state = s.state := rfl
@[simp] theorem State.setVec_rf (i : VReg) (x : Lanes) (s : State) : (s.setVec i x).rf = s.rf := rfl
@[simp] theorem State.setVec_sat (i : VReg) (x : Lanes) (s : State) : (s.setVec i x).sat = s.sat := rfl
@[simp] theorem State.setVec_mf (i : VReg) (x : Lanes) (s : State) : (s.setVec i x).mf = s.mf := rfl
@[simp] theorem State.setVec_herr (i : VReg) (x : Lanes) (s : State) : (s.setVec i x).herr = s.herr := rfl
@[simp] theorem State.setVec_ien (i : VReg) (x : Lanes) (s : State) : (s.setVec i x).ien = s.ien := rfl
@[simp] theorem State.setVec_entry (i : VReg) (x : Lanes) (s : State) : (s.setVec i x).entry = s.entry := rfl
@[simp] theorem State.setVec_fcause (i : VReg) (x : Lanes) (s : State) : (s.setVec i x).fcause = s.fcause := rfl
@[simp] theorem State.setVec_fpc (i : VReg) (x : Lanes) (s : State) : (s.setVec i x).fpc = s.fpc := rfl
@[simp] theorem State.setVec_finfo (i : VReg) (x : Lanes) (s : State) : (s.setVec i x).finfo = s.finfo := rfl
@[simp] theorem State.setVec_order (i : VReg) (x : Lanes) (s : State) : (s.setVec i x).order = s.order := rfl
@[simp] theorem State.setVec_grid (i : VReg) (x : Lanes) (s : State) : (s.setVec i x).grid = s.grid := rfl
@[simp] theorem State.setVec_cdelta (i : VReg) (x : Lanes) (s : State) : (s.setVec i x).cdelta = s.cdelta := rfl
@[simp] theorem State.setVec_rootcnt (i : VReg) (x : Lanes) (s : State) : (s.setVec i x).rootcnt = s.rootcnt := rfl
@[simp] theorem State.setVec_wnum (i : VReg) (x : Lanes) (s : State) : (s.setVec i x).wnum = s.wnum := rfl
@[simp] theorem State.setVec_woff (i : VReg) (x : Lanes) (s : State) : (s.setVec i x).woff = s.woff := rfl
@[simp] theorem State.setVec_nstg (i : VReg) (x : Lanes) (s : State) : (s.setVec i x).nstg = s.nstg := rfl
@[simp] theorem State.setVec_sdbase (i : VReg) (x : Lanes) (s : State) : (s.setVec i x).sdbase = s.sdbase := rfl
@[simp] theorem State.setVec_sdcfg (i : VReg) (x : Lanes) (s : State) : (s.setVec i x).sdcfg = s.sdcfg := rfl
@[simp] theorem State.setVec_idx (i : VReg) (x : Lanes) (s : State) : (s.setVec i x).idx = s.idx := rfl
@[simp] theorem State.setVec_imem (i : VReg) (x : Lanes) (s : State) : (s.setVec i x).imem = s.imem := rfl
@[simp] theorem State.setVec_dmem (i : VReg) (x : Lanes) (s : State) : (s.setVec i x).dmem = s.dmem := rfl
@[simp] theorem State.setVec_tmem (i : VReg) (x : Lanes) (s : State) : (s.setVec i x).tmem = s.tmem := rfl
@[simp] theorem State.setVec_turns (i : VReg) (x : Lanes) (s : State) : (s.setVec i x).turns = s.turns := rfl
@[simp] theorem State.setVec_hrdata (i : VReg) (x : Lanes) (s : State) : (s.setVec i x).hrdata = s.hrdata := rfl

/-! ## `State.putLanes`: a write of lanes (R43) -/

@[simp] theorem State.putLanes_r (i : VReg) (lo hi : Nat) (f : Nat → Word) (s : State) : (s.putLanes i lo hi f).r = s.r := rfl
@[simp] theorem State.putLanes_v (i : VReg) (lo hi : Nat) (f : Nat → Word) (s : State) : (s.putLanes i lo hi f).v = s.v.set i ((s.vec i).update lo hi f) := rfl
@[simp] theorem State.putLanes_synmem (i : VReg) (lo hi : Nat) (f : Nat → Word) (s : State) : (s.putLanes i lo hi f).synmem = s.synmem := rfl
@[simp] theorem State.putLanes_pc (i : VReg) (lo hi : Nat) (f : Nat → Word) (s : State) : (s.putLanes i lo hi f).pc = s.pc := rfl
@[simp] theorem State.putLanes_state (i : VReg) (lo hi : Nat) (f : Nat → Word) (s : State) : (s.putLanes i lo hi f).state = s.state := rfl
@[simp] theorem State.putLanes_rf (i : VReg) (lo hi : Nat) (f : Nat → Word) (s : State) : (s.putLanes i lo hi f).rf = s.rf := rfl
@[simp] theorem State.putLanes_sat (i : VReg) (lo hi : Nat) (f : Nat → Word) (s : State) : (s.putLanes i lo hi f).sat = s.sat := rfl
@[simp] theorem State.putLanes_mf (i : VReg) (lo hi : Nat) (f : Nat → Word) (s : State) : (s.putLanes i lo hi f).mf = s.mf := rfl
@[simp] theorem State.putLanes_herr (i : VReg) (lo hi : Nat) (f : Nat → Word) (s : State) : (s.putLanes i lo hi f).herr = s.herr := rfl
@[simp] theorem State.putLanes_ien (i : VReg) (lo hi : Nat) (f : Nat → Word) (s : State) : (s.putLanes i lo hi f).ien = s.ien := rfl
@[simp] theorem State.putLanes_entry (i : VReg) (lo hi : Nat) (f : Nat → Word) (s : State) : (s.putLanes i lo hi f).entry = s.entry := rfl
@[simp] theorem State.putLanes_fcause (i : VReg) (lo hi : Nat) (f : Nat → Word) (s : State) : (s.putLanes i lo hi f).fcause = s.fcause := rfl
@[simp] theorem State.putLanes_fpc (i : VReg) (lo hi : Nat) (f : Nat → Word) (s : State) : (s.putLanes i lo hi f).fpc = s.fpc := rfl
@[simp] theorem State.putLanes_finfo (i : VReg) (lo hi : Nat) (f : Nat → Word) (s : State) : (s.putLanes i lo hi f).finfo = s.finfo := rfl
@[simp] theorem State.putLanes_order (i : VReg) (lo hi : Nat) (f : Nat → Word) (s : State) : (s.putLanes i lo hi f).order = s.order := rfl
@[simp] theorem State.putLanes_grid (i : VReg) (lo hi : Nat) (f : Nat → Word) (s : State) : (s.putLanes i lo hi f).grid = s.grid := rfl
@[simp] theorem State.putLanes_cdelta (i : VReg) (lo hi : Nat) (f : Nat → Word) (s : State) : (s.putLanes i lo hi f).cdelta = s.cdelta := rfl
@[simp] theorem State.putLanes_rootcnt (i : VReg) (lo hi : Nat) (f : Nat → Word) (s : State) : (s.putLanes i lo hi f).rootcnt = s.rootcnt := rfl
@[simp] theorem State.putLanes_wnum (i : VReg) (lo hi : Nat) (f : Nat → Word) (s : State) : (s.putLanes i lo hi f).wnum = s.wnum := rfl
@[simp] theorem State.putLanes_woff (i : VReg) (lo hi : Nat) (f : Nat → Word) (s : State) : (s.putLanes i lo hi f).woff = s.woff := rfl
@[simp] theorem State.putLanes_nstg (i : VReg) (lo hi : Nat) (f : Nat → Word) (s : State) : (s.putLanes i lo hi f).nstg = s.nstg := rfl
@[simp] theorem State.putLanes_sdbase (i : VReg) (lo hi : Nat) (f : Nat → Word) (s : State) : (s.putLanes i lo hi f).sdbase = s.sdbase := rfl
@[simp] theorem State.putLanes_sdcfg (i : VReg) (lo hi : Nat) (f : Nat → Word) (s : State) : (s.putLanes i lo hi f).sdcfg = s.sdcfg := rfl
@[simp] theorem State.putLanes_idx (i : VReg) (lo hi : Nat) (f : Nat → Word) (s : State) : (s.putLanes i lo hi f).idx = s.idx := rfl
@[simp] theorem State.putLanes_imem (i : VReg) (lo hi : Nat) (f : Nat → Word) (s : State) : (s.putLanes i lo hi f).imem = s.imem := rfl
@[simp] theorem State.putLanes_dmem (i : VReg) (lo hi : Nat) (f : Nat → Word) (s : State) : (s.putLanes i lo hi f).dmem = s.dmem := rfl
@[simp] theorem State.putLanes_tmem (i : VReg) (lo hi : Nat) (f : Nat → Word) (s : State) : (s.putLanes i lo hi f).tmem = s.tmem := rfl
@[simp] theorem State.putLanes_turns (i : VReg) (lo hi : Nat) (f : Nat → Word) (s : State) : (s.putLanes i lo hi f).turns = s.turns := rfl
@[simp] theorem State.putLanes_hrdata (i : VReg) (lo hi : Nat) (f : Nat → Word) (s : State) : (s.putLanes i lo hi f).hrdata = s.hrdata := rfl

/-! ## `State.orSat`: SAT, sticky (R8, R47) -/

@[simp] theorem State.orSat_r (b : Bool) (s : State) : (s.orSat b).r = s.r := rfl
@[simp] theorem State.orSat_v (b : Bool) (s : State) : (s.orSat b).v = s.v := rfl
@[simp] theorem State.orSat_synmem (b : Bool) (s : State) : (s.orSat b).synmem = s.synmem := rfl
@[simp] theorem State.orSat_pc (b : Bool) (s : State) : (s.orSat b).pc = s.pc := rfl
@[simp] theorem State.orSat_state (b : Bool) (s : State) : (s.orSat b).state = s.state := rfl
@[simp] theorem State.orSat_rf (b : Bool) (s : State) : (s.orSat b).rf = s.rf := rfl
@[simp] theorem State.orSat_sat (b : Bool) (s : State) : (s.orSat b).sat = (s.sat || b) := rfl
@[simp] theorem State.orSat_mf (b : Bool) (s : State) : (s.orSat b).mf = s.mf := rfl
@[simp] theorem State.orSat_herr (b : Bool) (s : State) : (s.orSat b).herr = s.herr := rfl
@[simp] theorem State.orSat_ien (b : Bool) (s : State) : (s.orSat b).ien = s.ien := rfl
@[simp] theorem State.orSat_entry (b : Bool) (s : State) : (s.orSat b).entry = s.entry := rfl
@[simp] theorem State.orSat_fcause (b : Bool) (s : State) : (s.orSat b).fcause = s.fcause := rfl
@[simp] theorem State.orSat_fpc (b : Bool) (s : State) : (s.orSat b).fpc = s.fpc := rfl
@[simp] theorem State.orSat_finfo (b : Bool) (s : State) : (s.orSat b).finfo = s.finfo := rfl
@[simp] theorem State.orSat_order (b : Bool) (s : State) : (s.orSat b).order = s.order := rfl
@[simp] theorem State.orSat_grid (b : Bool) (s : State) : (s.orSat b).grid = s.grid := rfl
@[simp] theorem State.orSat_cdelta (b : Bool) (s : State) : (s.orSat b).cdelta = s.cdelta := rfl
@[simp] theorem State.orSat_rootcnt (b : Bool) (s : State) : (s.orSat b).rootcnt = s.rootcnt := rfl
@[simp] theorem State.orSat_wnum (b : Bool) (s : State) : (s.orSat b).wnum = s.wnum := rfl
@[simp] theorem State.orSat_woff (b : Bool) (s : State) : (s.orSat b).woff = s.woff := rfl
@[simp] theorem State.orSat_nstg (b : Bool) (s : State) : (s.orSat b).nstg = s.nstg := rfl
@[simp] theorem State.orSat_sdbase (b : Bool) (s : State) : (s.orSat b).sdbase = s.sdbase := rfl
@[simp] theorem State.orSat_sdcfg (b : Bool) (s : State) : (s.orSat b).sdcfg = s.sdcfg := rfl
@[simp] theorem State.orSat_idx (b : Bool) (s : State) : (s.orSat b).idx = s.idx := rfl
@[simp] theorem State.orSat_imem (b : Bool) (s : State) : (s.orSat b).imem = s.imem := rfl
@[simp] theorem State.orSat_dmem (b : Bool) (s : State) : (s.orSat b).dmem = s.dmem := rfl
@[simp] theorem State.orSat_tmem (b : Bool) (s : State) : (s.orSat b).tmem = s.tmem := rfl
@[simp] theorem State.orSat_turns (b : Bool) (s : State) : (s.orSat b).turns = s.turns := rfl
@[simp] theorem State.orSat_hrdata (b : Bool) (s : State) : (s.orSat b).hrdata = s.hrdata := rfl

/-! ## `State.putSatLanes`: a saturating write of lanes (R8) -/

@[simp] theorem State.putSatLanes_r (i : VReg) (lo hi : Nat) (f : Nat → Int) (s : State) : (s.putSatLanes i lo hi f).r = s.r := rfl
@[simp] theorem State.putSatLanes_v (i : VReg) (lo hi : Nat) (f : Nat → Int) (s : State) : (s.putSatLanes i lo hi f).v = s.v.set i ((s.vec i).update lo hi fun k => sat32 (f k)) := rfl
@[simp] theorem State.putSatLanes_synmem (i : VReg) (lo hi : Nat) (f : Nat → Int) (s : State) : (s.putSatLanes i lo hi f).synmem = s.synmem := rfl
@[simp] theorem State.putSatLanes_pc (i : VReg) (lo hi : Nat) (f : Nat → Int) (s : State) : (s.putSatLanes i lo hi f).pc = s.pc := rfl
@[simp] theorem State.putSatLanes_state (i : VReg) (lo hi : Nat) (f : Nat → Int) (s : State) : (s.putSatLanes i lo hi f).state = s.state := rfl
@[simp] theorem State.putSatLanes_rf (i : VReg) (lo hi : Nat) (f : Nat → Int) (s : State) : (s.putSatLanes i lo hi f).rf = s.rf := rfl
@[simp] theorem State.putSatLanes_sat (i : VReg) (lo hi : Nat) (f : Nat → Int) (s : State) : (s.putSatLanes i lo hi f).sat = (s.sat || (List.range 16).any fun k => decide (lo ≤ k) && decide (k < hi) && clamps (f k)) := rfl
@[simp] theorem State.putSatLanes_mf (i : VReg) (lo hi : Nat) (f : Nat → Int) (s : State) : (s.putSatLanes i lo hi f).mf = s.mf := rfl
@[simp] theorem State.putSatLanes_herr (i : VReg) (lo hi : Nat) (f : Nat → Int) (s : State) : (s.putSatLanes i lo hi f).herr = s.herr := rfl
@[simp] theorem State.putSatLanes_ien (i : VReg) (lo hi : Nat) (f : Nat → Int) (s : State) : (s.putSatLanes i lo hi f).ien = s.ien := rfl
@[simp] theorem State.putSatLanes_entry (i : VReg) (lo hi : Nat) (f : Nat → Int) (s : State) : (s.putSatLanes i lo hi f).entry = s.entry := rfl
@[simp] theorem State.putSatLanes_fcause (i : VReg) (lo hi : Nat) (f : Nat → Int) (s : State) : (s.putSatLanes i lo hi f).fcause = s.fcause := rfl
@[simp] theorem State.putSatLanes_fpc (i : VReg) (lo hi : Nat) (f : Nat → Int) (s : State) : (s.putSatLanes i lo hi f).fpc = s.fpc := rfl
@[simp] theorem State.putSatLanes_finfo (i : VReg) (lo hi : Nat) (f : Nat → Int) (s : State) : (s.putSatLanes i lo hi f).finfo = s.finfo := rfl
@[simp] theorem State.putSatLanes_order (i : VReg) (lo hi : Nat) (f : Nat → Int) (s : State) : (s.putSatLanes i lo hi f).order = s.order := rfl
@[simp] theorem State.putSatLanes_grid (i : VReg) (lo hi : Nat) (f : Nat → Int) (s : State) : (s.putSatLanes i lo hi f).grid = s.grid := rfl
@[simp] theorem State.putSatLanes_cdelta (i : VReg) (lo hi : Nat) (f : Nat → Int) (s : State) : (s.putSatLanes i lo hi f).cdelta = s.cdelta := rfl
@[simp] theorem State.putSatLanes_rootcnt (i : VReg) (lo hi : Nat) (f : Nat → Int) (s : State) : (s.putSatLanes i lo hi f).rootcnt = s.rootcnt := rfl
@[simp] theorem State.putSatLanes_wnum (i : VReg) (lo hi : Nat) (f : Nat → Int) (s : State) : (s.putSatLanes i lo hi f).wnum = s.wnum := rfl
@[simp] theorem State.putSatLanes_woff (i : VReg) (lo hi : Nat) (f : Nat → Int) (s : State) : (s.putSatLanes i lo hi f).woff = s.woff := rfl
@[simp] theorem State.putSatLanes_nstg (i : VReg) (lo hi : Nat) (f : Nat → Int) (s : State) : (s.putSatLanes i lo hi f).nstg = s.nstg := rfl
@[simp] theorem State.putSatLanes_sdbase (i : VReg) (lo hi : Nat) (f : Nat → Int) (s : State) : (s.putSatLanes i lo hi f).sdbase = s.sdbase := rfl
@[simp] theorem State.putSatLanes_sdcfg (i : VReg) (lo hi : Nat) (f : Nat → Int) (s : State) : (s.putSatLanes i lo hi f).sdcfg = s.sdcfg := rfl
@[simp] theorem State.putSatLanes_idx (i : VReg) (lo hi : Nat) (f : Nat → Int) (s : State) : (s.putSatLanes i lo hi f).idx = s.idx := rfl
@[simp] theorem State.putSatLanes_imem (i : VReg) (lo hi : Nat) (f : Nat → Int) (s : State) : (s.putSatLanes i lo hi f).imem = s.imem := rfl
@[simp] theorem State.putSatLanes_dmem (i : VReg) (lo hi : Nat) (f : Nat → Int) (s : State) : (s.putSatLanes i lo hi f).dmem = s.dmem := rfl
@[simp] theorem State.putSatLanes_tmem (i : VReg) (lo hi : Nat) (f : Nat → Int) (s : State) : (s.putSatLanes i lo hi f).tmem = s.tmem := rfl
@[simp] theorem State.putSatLanes_turns (i : VReg) (lo hi : Nat) (f : Nat → Int) (s : State) : (s.putSatLanes i lo hi f).turns = s.turns := rfl
@[simp] theorem State.putSatLanes_hrdata (i : VReg) (lo hi : Nat) (f : Nat → Int) (s : State) : (s.putSatLanes i lo hi f).hrdata = s.hrdata := rfl

/-! ## `State.setRf`: RF (R47) -/

@[simp] theorem State.setRf_r (b : Bool) (s : State) : (s.setRf b).r = s.r := rfl
@[simp] theorem State.setRf_v (b : Bool) (s : State) : (s.setRf b).v = s.v := rfl
@[simp] theorem State.setRf_synmem (b : Bool) (s : State) : (s.setRf b).synmem = s.synmem := rfl
@[simp] theorem State.setRf_pc (b : Bool) (s : State) : (s.setRf b).pc = s.pc := rfl
@[simp] theorem State.setRf_state (b : Bool) (s : State) : (s.setRf b).state = s.state := rfl
@[simp] theorem State.setRf_rf (b : Bool) (s : State) : (s.setRf b).rf = b := rfl
@[simp] theorem State.setRf_sat (b : Bool) (s : State) : (s.setRf b).sat = s.sat := rfl
@[simp] theorem State.setRf_mf (b : Bool) (s : State) : (s.setRf b).mf = s.mf := rfl
@[simp] theorem State.setRf_herr (b : Bool) (s : State) : (s.setRf b).herr = s.herr := rfl
@[simp] theorem State.setRf_ien (b : Bool) (s : State) : (s.setRf b).ien = s.ien := rfl
@[simp] theorem State.setRf_entry (b : Bool) (s : State) : (s.setRf b).entry = s.entry := rfl
@[simp] theorem State.setRf_fcause (b : Bool) (s : State) : (s.setRf b).fcause = s.fcause := rfl
@[simp] theorem State.setRf_fpc (b : Bool) (s : State) : (s.setRf b).fpc = s.fpc := rfl
@[simp] theorem State.setRf_finfo (b : Bool) (s : State) : (s.setRf b).finfo = s.finfo := rfl
@[simp] theorem State.setRf_order (b : Bool) (s : State) : (s.setRf b).order = s.order := rfl
@[simp] theorem State.setRf_grid (b : Bool) (s : State) : (s.setRf b).grid = s.grid := rfl
@[simp] theorem State.setRf_cdelta (b : Bool) (s : State) : (s.setRf b).cdelta = s.cdelta := rfl
@[simp] theorem State.setRf_rootcnt (b : Bool) (s : State) : (s.setRf b).rootcnt = s.rootcnt := rfl
@[simp] theorem State.setRf_wnum (b : Bool) (s : State) : (s.setRf b).wnum = s.wnum := rfl
@[simp] theorem State.setRf_woff (b : Bool) (s : State) : (s.setRf b).woff = s.woff := rfl
@[simp] theorem State.setRf_nstg (b : Bool) (s : State) : (s.setRf b).nstg = s.nstg := rfl
@[simp] theorem State.setRf_sdbase (b : Bool) (s : State) : (s.setRf b).sdbase = s.sdbase := rfl
@[simp] theorem State.setRf_sdcfg (b : Bool) (s : State) : (s.setRf b).sdcfg = s.sdcfg := rfl
@[simp] theorem State.setRf_idx (b : Bool) (s : State) : (s.setRf b).idx = s.idx := rfl
@[simp] theorem State.setRf_imem (b : Bool) (s : State) : (s.setRf b).imem = s.imem := rfl
@[simp] theorem State.setRf_dmem (b : Bool) (s : State) : (s.setRf b).dmem = s.dmem := rfl
@[simp] theorem State.setRf_tmem (b : Bool) (s : State) : (s.setRf b).tmem = s.tmem := rfl
@[simp] theorem State.setRf_turns (b : Bool) (s : State) : (s.setRf b).turns = s.turns := rfl
@[simp] theorem State.setRf_hrdata (b : Bool) (s : State) : (s.setRf b).hrdata = s.hrdata := rfl

/-! ## `State.setMf`: MF (R47) -/

@[simp] theorem State.setMf_r (b : Bool) (s : State) : (s.setMf b).r = s.r := rfl
@[simp] theorem State.setMf_v (b : Bool) (s : State) : (s.setMf b).v = s.v := rfl
@[simp] theorem State.setMf_synmem (b : Bool) (s : State) : (s.setMf b).synmem = s.synmem := rfl
@[simp] theorem State.setMf_pc (b : Bool) (s : State) : (s.setMf b).pc = s.pc := rfl
@[simp] theorem State.setMf_state (b : Bool) (s : State) : (s.setMf b).state = s.state := rfl
@[simp] theorem State.setMf_rf (b : Bool) (s : State) : (s.setMf b).rf = s.rf := rfl
@[simp] theorem State.setMf_sat (b : Bool) (s : State) : (s.setMf b).sat = s.sat := rfl
@[simp] theorem State.setMf_mf (b : Bool) (s : State) : (s.setMf b).mf = b := rfl
@[simp] theorem State.setMf_herr (b : Bool) (s : State) : (s.setMf b).herr = s.herr := rfl
@[simp] theorem State.setMf_ien (b : Bool) (s : State) : (s.setMf b).ien = s.ien := rfl
@[simp] theorem State.setMf_entry (b : Bool) (s : State) : (s.setMf b).entry = s.entry := rfl
@[simp] theorem State.setMf_fcause (b : Bool) (s : State) : (s.setMf b).fcause = s.fcause := rfl
@[simp] theorem State.setMf_fpc (b : Bool) (s : State) : (s.setMf b).fpc = s.fpc := rfl
@[simp] theorem State.setMf_finfo (b : Bool) (s : State) : (s.setMf b).finfo = s.finfo := rfl
@[simp] theorem State.setMf_order (b : Bool) (s : State) : (s.setMf b).order = s.order := rfl
@[simp] theorem State.setMf_grid (b : Bool) (s : State) : (s.setMf b).grid = s.grid := rfl
@[simp] theorem State.setMf_cdelta (b : Bool) (s : State) : (s.setMf b).cdelta = s.cdelta := rfl
@[simp] theorem State.setMf_rootcnt (b : Bool) (s : State) : (s.setMf b).rootcnt = s.rootcnt := rfl
@[simp] theorem State.setMf_wnum (b : Bool) (s : State) : (s.setMf b).wnum = s.wnum := rfl
@[simp] theorem State.setMf_woff (b : Bool) (s : State) : (s.setMf b).woff = s.woff := rfl
@[simp] theorem State.setMf_nstg (b : Bool) (s : State) : (s.setMf b).nstg = s.nstg := rfl
@[simp] theorem State.setMf_sdbase (b : Bool) (s : State) : (s.setMf b).sdbase = s.sdbase := rfl
@[simp] theorem State.setMf_sdcfg (b : Bool) (s : State) : (s.setMf b).sdcfg = s.sdcfg := rfl
@[simp] theorem State.setMf_idx (b : Bool) (s : State) : (s.setMf b).idx = s.idx := rfl
@[simp] theorem State.setMf_imem (b : Bool) (s : State) : (s.setMf b).imem = s.imem := rfl
@[simp] theorem State.setMf_dmem (b : Bool) (s : State) : (s.setMf b).dmem = s.dmem := rfl
@[simp] theorem State.setMf_tmem (b : Bool) (s : State) : (s.setMf b).tmem = s.tmem := rfl
@[simp] theorem State.setMf_turns (b : Bool) (s : State) : (s.setMf b).turns = s.turns := rfl
@[simp] theorem State.setMf_hrdata (b : Bool) (s : State) : (s.setMf b).hrdata = s.hrdata := rfl

/-! ## `State.setFlagsWord`: a write of FLAGS (R52) -/

@[simp] theorem State.setFlagsWord_r (w : Word) (s : State) : (s.setFlagsWord w).r = s.r := rfl
@[simp] theorem State.setFlagsWord_v (w : Word) (s : State) : (s.setFlagsWord w).v = s.v := rfl
@[simp] theorem State.setFlagsWord_synmem (w : Word) (s : State) : (s.setFlagsWord w).synmem = s.synmem := rfl
@[simp] theorem State.setFlagsWord_pc (w : Word) (s : State) : (s.setFlagsWord w).pc = s.pc := rfl
@[simp] theorem State.setFlagsWord_state (w : Word) (s : State) : (s.setFlagsWord w).state = s.state := rfl
@[simp] theorem State.setFlagsWord_rf (w : Word) (s : State) : (s.setFlagsWord w).rf = w.getLsbD 0 := rfl
@[simp] theorem State.setFlagsWord_sat (w : Word) (s : State) : (s.setFlagsWord w).sat = w.getLsbD 1 := rfl
@[simp] theorem State.setFlagsWord_mf (w : Word) (s : State) : (s.setFlagsWord w).mf = w.getLsbD 2 := rfl
@[simp] theorem State.setFlagsWord_herr (w : Word) (s : State) : (s.setFlagsWord w).herr = s.herr := rfl
@[simp] theorem State.setFlagsWord_ien (w : Word) (s : State) : (s.setFlagsWord w).ien = s.ien := rfl
@[simp] theorem State.setFlagsWord_entry (w : Word) (s : State) : (s.setFlagsWord w).entry = s.entry := rfl
@[simp] theorem State.setFlagsWord_fcause (w : Word) (s : State) : (s.setFlagsWord w).fcause = s.fcause := rfl
@[simp] theorem State.setFlagsWord_fpc (w : Word) (s : State) : (s.setFlagsWord w).fpc = s.fpc := rfl
@[simp] theorem State.setFlagsWord_finfo (w : Word) (s : State) : (s.setFlagsWord w).finfo = s.finfo := rfl
@[simp] theorem State.setFlagsWord_order (w : Word) (s : State) : (s.setFlagsWord w).order = s.order := rfl
@[simp] theorem State.setFlagsWord_grid (w : Word) (s : State) : (s.setFlagsWord w).grid = s.grid := rfl
@[simp] theorem State.setFlagsWord_cdelta (w : Word) (s : State) : (s.setFlagsWord w).cdelta = s.cdelta := rfl
@[simp] theorem State.setFlagsWord_rootcnt (w : Word) (s : State) : (s.setFlagsWord w).rootcnt = s.rootcnt := rfl
@[simp] theorem State.setFlagsWord_wnum (w : Word) (s : State) : (s.setFlagsWord w).wnum = s.wnum := rfl
@[simp] theorem State.setFlagsWord_woff (w : Word) (s : State) : (s.setFlagsWord w).woff = s.woff := rfl
@[simp] theorem State.setFlagsWord_nstg (w : Word) (s : State) : (s.setFlagsWord w).nstg = s.nstg := rfl
@[simp] theorem State.setFlagsWord_sdbase (w : Word) (s : State) : (s.setFlagsWord w).sdbase = s.sdbase := rfl
@[simp] theorem State.setFlagsWord_sdcfg (w : Word) (s : State) : (s.setFlagsWord w).sdcfg = s.sdcfg := rfl
@[simp] theorem State.setFlagsWord_idx (w : Word) (s : State) : (s.setFlagsWord w).idx = s.idx := rfl
@[simp] theorem State.setFlagsWord_imem (w : Word) (s : State) : (s.setFlagsWord w).imem = s.imem := rfl
@[simp] theorem State.setFlagsWord_dmem (w : Word) (s : State) : (s.setFlagsWord w).dmem = s.dmem := rfl
@[simp] theorem State.setFlagsWord_tmem (w : Word) (s : State) : (s.setFlagsWord w).tmem = s.tmem := rfl
@[simp] theorem State.setFlagsWord_turns (w : Word) (s : State) : (s.setFlagsWord w).turns = s.turns := rfl
@[simp] theorem State.setFlagsWord_hrdata (w : Word) (s : State) : (s.setFlagsWord w).hrdata = s.hrdata := rfl

/-! ## `recordFault`: fault entry (R314) -/

@[simp] theorem recordFault_r (c : BitVec 4) (w : Word) (s : State) : (recordFault c w s).r = s.r := rfl
@[simp] theorem recordFault_v (c : BitVec 4) (w : Word) (s : State) : (recordFault c w s).v = s.v := rfl
@[simp] theorem recordFault_synmem (c : BitVec 4) (w : Word) (s : State) : (recordFault c w s).synmem = s.synmem := rfl
@[simp] theorem recordFault_pc (c : BitVec 4) (w : Word) (s : State) : (recordFault c w s).pc = s.pc := rfl
@[simp] theorem recordFault_state (c : BitVec 4) (w : Word) (s : State) : (recordFault c w s).state = RunState.faulted := rfl
@[simp] theorem recordFault_rf (c : BitVec 4) (w : Word) (s : State) : (recordFault c w s).rf = s.rf := rfl
@[simp] theorem recordFault_sat (c : BitVec 4) (w : Word) (s : State) : (recordFault c w s).sat = s.sat := rfl
@[simp] theorem recordFault_mf (c : BitVec 4) (w : Word) (s : State) : (recordFault c w s).mf = s.mf := rfl
@[simp] theorem recordFault_herr (c : BitVec 4) (w : Word) (s : State) : (recordFault c w s).herr = s.herr := rfl
@[simp] theorem recordFault_ien (c : BitVec 4) (w : Word) (s : State) : (recordFault c w s).ien = s.ien := rfl
@[simp] theorem recordFault_entry (c : BitVec 4) (w : Word) (s : State) : (recordFault c w s).entry = s.entry := rfl
@[simp] theorem recordFault_fcause (c : BitVec 4) (w : Word) (s : State) : (recordFault c w s).fcause = c := rfl
@[simp] theorem recordFault_fpc (c : BitVec 4) (w : Word) (s : State) : (recordFault c w s).fpc = s.pc := rfl
@[simp] theorem recordFault_finfo (c : BitVec 4) (w : Word) (s : State) : (recordFault c w s).finfo = w := rfl
@[simp] theorem recordFault_order (c : BitVec 4) (w : Word) (s : State) : (recordFault c w s).order = s.order := rfl
@[simp] theorem recordFault_grid (c : BitVec 4) (w : Word) (s : State) : (recordFault c w s).grid = s.grid := rfl
@[simp] theorem recordFault_cdelta (c : BitVec 4) (w : Word) (s : State) : (recordFault c w s).cdelta = s.cdelta := rfl
@[simp] theorem recordFault_rootcnt (c : BitVec 4) (w : Word) (s : State) : (recordFault c w s).rootcnt = s.rootcnt := rfl
@[simp] theorem recordFault_wnum (c : BitVec 4) (w : Word) (s : State) : (recordFault c w s).wnum = s.wnum := rfl
@[simp] theorem recordFault_woff (c : BitVec 4) (w : Word) (s : State) : (recordFault c w s).woff = s.woff := rfl
@[simp] theorem recordFault_nstg (c : BitVec 4) (w : Word) (s : State) : (recordFault c w s).nstg = s.nstg := rfl
@[simp] theorem recordFault_sdbase (c : BitVec 4) (w : Word) (s : State) : (recordFault c w s).sdbase = s.sdbase := rfl
@[simp] theorem recordFault_sdcfg (c : BitVec 4) (w : Word) (s : State) : (recordFault c w s).sdcfg = s.sdcfg := rfl
@[simp] theorem recordFault_idx (c : BitVec 4) (w : Word) (s : State) : (recordFault c w s).idx = s.idx := rfl
@[simp] theorem recordFault_imem (c : BitVec 4) (w : Word) (s : State) : (recordFault c w s).imem = s.imem := rfl
@[simp] theorem recordFault_dmem (c : BitVec 4) (w : Word) (s : State) : (recordFault c w s).dmem = s.dmem := rfl
@[simp] theorem recordFault_tmem (c : BitVec 4) (w : Word) (s : State) : (recordFault c w s).tmem = s.tmem := rfl
@[simp] theorem recordFault_turns (c : BitVec 4) (w : Word) (s : State) : (recordFault c w s).turns = s.turns := rfl
@[simp] theorem recordFault_hrdata (c : BitVec 4) (w : Word) (s : State) : (recordFault c w s).hrdata = s.hrdata := rfl

/-! ## `takeFault`: taking a synchronous fault (R314) -/

@[simp] theorem takeFault_r (t : Trap) (s : State) : (takeFault t s).r = s.r := rfl
@[simp] theorem takeFault_v (t : Trap) (s : State) : (takeFault t s).v = s.v := rfl
@[simp] theorem takeFault_synmem (t : Trap) (s : State) : (takeFault t s).synmem = s.synmem := rfl
@[simp] theorem takeFault_pc (t : Trap) (s : State) : (takeFault t s).pc = s.pc := rfl
@[simp] theorem takeFault_state (t : Trap) (s : State) : (takeFault t s).state = RunState.faulted := rfl
@[simp] theorem takeFault_rf (t : Trap) (s : State) : (takeFault t s).rf = s.rf := rfl
@[simp] theorem takeFault_sat (t : Trap) (s : State) : (takeFault t s).sat = s.sat := rfl
@[simp] theorem takeFault_mf (t : Trap) (s : State) : (takeFault t s).mf = s.mf := rfl
@[simp] theorem takeFault_herr (t : Trap) (s : State) : (takeFault t s).herr = s.herr := rfl
@[simp] theorem takeFault_ien (t : Trap) (s : State) : (takeFault t s).ien = s.ien := rfl
@[simp] theorem takeFault_entry (t : Trap) (s : State) : (takeFault t s).entry = s.entry := rfl
@[simp] theorem takeFault_fcause (t : Trap) (s : State) : (takeFault t s).fcause = t.code := rfl
@[simp] theorem takeFault_fpc (t : Trap) (s : State) : (takeFault t s).fpc = s.pc := rfl
@[simp] theorem takeFault_finfo (t : Trap) (s : State) : (takeFault t s).finfo = t.info := rfl
@[simp] theorem takeFault_order (t : Trap) (s : State) : (takeFault t s).order = s.order := rfl
@[simp] theorem takeFault_grid (t : Trap) (s : State) : (takeFault t s).grid = s.grid := rfl
@[simp] theorem takeFault_cdelta (t : Trap) (s : State) : (takeFault t s).cdelta = s.cdelta := rfl
@[simp] theorem takeFault_rootcnt (t : Trap) (s : State) : (takeFault t s).rootcnt = s.rootcnt := rfl
@[simp] theorem takeFault_wnum (t : Trap) (s : State) : (takeFault t s).wnum = s.wnum := rfl
@[simp] theorem takeFault_woff (t : Trap) (s : State) : (takeFault t s).woff = s.woff := rfl
@[simp] theorem takeFault_nstg (t : Trap) (s : State) : (takeFault t s).nstg = s.nstg := rfl
@[simp] theorem takeFault_sdbase (t : Trap) (s : State) : (takeFault t s).sdbase = s.sdbase := rfl
@[simp] theorem takeFault_sdcfg (t : Trap) (s : State) : (takeFault t s).sdcfg = s.sdcfg := rfl
@[simp] theorem takeFault_idx (t : Trap) (s : State) : (takeFault t s).idx = s.idx := rfl
@[simp] theorem takeFault_imem (t : Trap) (s : State) : (takeFault t s).imem = s.imem := rfl
@[simp] theorem takeFault_dmem (t : Trap) (s : State) : (takeFault t s).dmem = s.dmem := rfl
@[simp] theorem takeFault_tmem (t : Trap) (s : State) : (takeFault t s).tmem = s.tmem := rfl
@[simp] theorem takeFault_turns (t : Trap) (s : State) : (takeFault t s).turns = s.turns := rfl
@[simp] theorem takeFault_hrdata (t : Trap) (s : State) : (takeFault t s).hrdata = s.hrdata := rfl

/-! ## `clearRun`: the way out of FAULTED (R316) -/

@[simp] theorem clearRun_r (s : State) : (clearRun s).r = s.r := rfl
@[simp] theorem clearRun_v (s : State) : (clearRun s).v = s.v := rfl
@[simp] theorem clearRun_synmem (s : State) : (clearRun s).synmem = s.synmem := rfl
@[simp] theorem clearRun_pc (s : State) : (clearRun s).pc = s.pc := rfl
@[simp] theorem clearRun_state (s : State) : (clearRun s).state = RunState.idle := rfl
@[simp] theorem clearRun_rf (s : State) : (clearRun s).rf = s.rf := rfl
@[simp] theorem clearRun_sat (s : State) : (clearRun s).sat = s.sat := rfl
@[simp] theorem clearRun_mf (s : State) : (clearRun s).mf = s.mf := rfl
@[simp] theorem clearRun_herr (s : State) : (clearRun s).herr = s.herr := rfl
@[simp] theorem clearRun_ien (s : State) : (clearRun s).ien = s.ien := rfl
@[simp] theorem clearRun_entry (s : State) : (clearRun s).entry = s.entry := rfl
@[simp] theorem clearRun_fcause (s : State) : (clearRun s).fcause = 0 := rfl
@[simp] theorem clearRun_fpc (s : State) : (clearRun s).fpc = 0 := rfl
@[simp] theorem clearRun_finfo (s : State) : (clearRun s).finfo = 0 := rfl
@[simp] theorem clearRun_order (s : State) : (clearRun s).order = s.order := rfl
@[simp] theorem clearRun_grid (s : State) : (clearRun s).grid = s.grid := rfl
@[simp] theorem clearRun_cdelta (s : State) : (clearRun s).cdelta = s.cdelta := rfl
@[simp] theorem clearRun_rootcnt (s : State) : (clearRun s).rootcnt = s.rootcnt := rfl
@[simp] theorem clearRun_wnum (s : State) : (clearRun s).wnum = s.wnum := rfl
@[simp] theorem clearRun_woff (s : State) : (clearRun s).woff = s.woff := rfl
@[simp] theorem clearRun_nstg (s : State) : (clearRun s).nstg = s.nstg := rfl
@[simp] theorem clearRun_sdbase (s : State) : (clearRun s).sdbase = s.sdbase := rfl
@[simp] theorem clearRun_sdcfg (s : State) : (clearRun s).sdcfg = s.sdcfg := rfl
@[simp] theorem clearRun_idx (s : State) : (clearRun s).idx = s.idx := rfl
@[simp] theorem clearRun_imem (s : State) : (clearRun s).imem = s.imem := rfl
@[simp] theorem clearRun_dmem (s : State) : (clearRun s).dmem = s.dmem := rfl
@[simp] theorem clearRun_tmem (s : State) : (clearRun s).tmem = s.tmem := rfl
@[simp] theorem clearRun_turns (s : State) : (clearRun s).turns = s.turns := rfl
@[simp] theorem clearRun_hrdata (s : State) : (clearRun s).hrdata = s.hrdata := rfl

/-! ## `State.resetRegisters` (R351): what reset does not touch -/

@[simp] theorem State.resetRegisters_imem (s : State) : s.resetRegisters.imem = s.imem := rfl
@[simp] theorem State.resetRegisters_dmem (s : State) : s.resetRegisters.dmem = s.dmem := rfl
@[simp] theorem State.resetRegisters_tmem (s : State) : s.resetRegisters.tmem = s.tmem := rfl
@[simp] theorem State.resetRegisters_turns (s : State) : s.resetRegisters.turns = s.turns := rfl
@[simp] theorem State.resetRegisters_hrdata (s : State) : s.resetRegisters.hrdata = s.hrdata := rfl

@[simp] theorem State.resetRegisters_state (s : State) : s.resetRegisters.state = RunState.idle := rfl
@[simp] theorem State.resetRegisters_fcause (s : State) : s.resetRegisters.fcause = 0 := rfl
@[simp] theorem State.resetRegisters_fpc (s : State) : s.resetRegisters.fpc = 0 := rfl
@[simp] theorem State.resetRegisters_finfo (s : State) : s.resetRegisters.finfo = 0 := rfl
@[simp] theorem State.resetRegisters_pc (s : State) : s.resetRegisters.pc = 0 := rfl
@[simp] theorem State.resetRegisters_rootcnt (s : State) : s.resetRegisters.rootcnt = 0 := rfl
@[simp] theorem State.resetRegisters_herr (s : State) : s.resetRegisters.herr = false := rfl
@[simp] theorem State.resetRegisters_ien (s : State) : s.resetRegisters.ien = 0 := rfl

/-! ## Reads through the accessors -/

@[simp] theorem State.advance_reg (s : State) (j : SReg) : s.advance.reg j = s.reg j := rfl
@[simp] theorem State.advance_regNat (s : State) (j : SReg) : s.advance.regNat j = s.regNat j := rfl
@[simp] theorem State.advance_vec (s : State) (j : VReg) : s.advance.vec j = s.vec j := rfl
@[simp] theorem State.advance_laneInt (s : State) (j : VReg) : s.advance.laneInt j = s.laneInt j := rfl
@[simp] theorem State.advance_p (s : State) : s.advance.p = s.p := rfl
@[simp] theorem State.advance_desc (s : State) (st : StageNo) : s.advance.desc st = s.desc st := rfl
@[simp] theorem State.advance_stages (s : State) : s.advance.stages = s.stages := rfl
@[simp] theorem State.advance_idxNat (s : State) (st : StageNo) : s.advance.idxNat st = s.idxNat st := rfl
@[simp] theorem State.branch_reg (imm : BitVec 16) (s : State) (j : SReg) : (s.branch imm).reg j = s.reg j := rfl
@[simp] theorem State.branch_regNat (imm : BitVec 16) (s : State) (j : SReg) : (s.branch imm).regNat j = s.regNat j := rfl
@[simp] theorem State.branch_vec (imm : BitVec 16) (s : State) (j : VReg) : (s.branch imm).vec j = s.vec j := rfl
@[simp] theorem State.branch_laneInt (imm : BitVec 16) (s : State) (j : VReg) : (s.branch imm).laneInt j = s.laneInt j := rfl
@[simp] theorem State.branch_p (imm : BitVec 16) (s : State) : (s.branch imm).p = s.p := rfl
@[simp] theorem State.branch_desc (imm : BitVec 16) (s : State) (st : StageNo) : (s.branch imm).desc st = s.desc st := rfl
@[simp] theorem State.branch_stages (imm : BitVec 16) (s : State) : (s.branch imm).stages = s.stages := rfl
@[simp] theorem State.branch_idxNat (imm : BitVec 16) (s : State) (st : StageNo) : (s.branch imm).idxNat st = s.idxNat st := rfl
@[simp] theorem State.setReg_vec (i : SReg) (w : Word) (s : State) (j : VReg) : (s.setReg i w).vec j = s.vec j := rfl
@[simp] theorem State.setReg_laneInt (i : SReg) (w : Word) (s : State) (j : VReg) : (s.setReg i w).laneInt j = s.laneInt j := rfl
@[simp] theorem State.setReg_p (i : SReg) (w : Word) (s : State) : (s.setReg i w).p = s.p := rfl
@[simp] theorem State.setReg_desc (i : SReg) (w : Word) (s : State) (st : StageNo) : (s.setReg i w).desc st = s.desc st := rfl
@[simp] theorem State.setReg_stages (i : SReg) (w : Word) (s : State) : (s.setReg i w).stages = s.stages := rfl
@[simp] theorem State.setReg_idxNat (i : SReg) (w : Word) (s : State) (st : StageNo) : (s.setReg i w).idxNat st = s.idxNat st := rfl
@[simp] theorem State.setVec_reg (i : VReg) (x : Lanes) (s : State) (j : SReg) : (s.setVec i x).reg j = s.reg j := rfl
@[simp] theorem State.setVec_regNat (i : VReg) (x : Lanes) (s : State) (j : SReg) : (s.setVec i x).regNat j = s.regNat j := rfl
@[simp] theorem State.setVec_p (i : VReg) (x : Lanes) (s : State) : (s.setVec i x).p = s.p := rfl
@[simp] theorem State.setVec_desc (i : VReg) (x : Lanes) (s : State) (st : StageNo) : (s.setVec i x).desc st = s.desc st := rfl
@[simp] theorem State.setVec_stages (i : VReg) (x : Lanes) (s : State) : (s.setVec i x).stages = s.stages := rfl
@[simp] theorem State.setVec_idxNat (i : VReg) (x : Lanes) (s : State) (st : StageNo) : (s.setVec i x).idxNat st = s.idxNat st := rfl
@[simp] theorem State.putLanes_reg (i : VReg) (lo hi : Nat) (f : Nat → Word) (s : State) (j : SReg) : (s.putLanes i lo hi f).reg j = s.reg j := rfl
@[simp] theorem State.putLanes_regNat (i : VReg) (lo hi : Nat) (f : Nat → Word) (s : State) (j : SReg) : (s.putLanes i lo hi f).regNat j = s.regNat j := rfl
@[simp] theorem State.putLanes_p (i : VReg) (lo hi : Nat) (f : Nat → Word) (s : State) : (s.putLanes i lo hi f).p = s.p := rfl
@[simp] theorem State.putLanes_desc (i : VReg) (lo hi : Nat) (f : Nat → Word) (s : State) (st : StageNo) : (s.putLanes i lo hi f).desc st = s.desc st := rfl
@[simp] theorem State.putLanes_stages (i : VReg) (lo hi : Nat) (f : Nat → Word) (s : State) : (s.putLanes i lo hi f).stages = s.stages := rfl
@[simp] theorem State.putLanes_idxNat (i : VReg) (lo hi : Nat) (f : Nat → Word) (s : State) (st : StageNo) : (s.putLanes i lo hi f).idxNat st = s.idxNat st := rfl
@[simp] theorem State.orSat_reg (b : Bool) (s : State) (j : SReg) : (s.orSat b).reg j = s.reg j := rfl
@[simp] theorem State.orSat_regNat (b : Bool) (s : State) (j : SReg) : (s.orSat b).regNat j = s.regNat j := rfl
@[simp] theorem State.orSat_vec (b : Bool) (s : State) (j : VReg) : (s.orSat b).vec j = s.vec j := rfl
@[simp] theorem State.orSat_laneInt (b : Bool) (s : State) (j : VReg) : (s.orSat b).laneInt j = s.laneInt j := rfl
@[simp] theorem State.orSat_p (b : Bool) (s : State) : (s.orSat b).p = s.p := rfl
@[simp] theorem State.orSat_desc (b : Bool) (s : State) (st : StageNo) : (s.orSat b).desc st = s.desc st := rfl
@[simp] theorem State.orSat_stages (b : Bool) (s : State) : (s.orSat b).stages = s.stages := rfl
@[simp] theorem State.orSat_idxNat (b : Bool) (s : State) (st : StageNo) : (s.orSat b).idxNat st = s.idxNat st := rfl
@[simp] theorem State.putSatLanes_reg (i : VReg) (lo hi : Nat) (f : Nat → Int) (s : State) (j : SReg) : (s.putSatLanes i lo hi f).reg j = s.reg j := rfl
@[simp] theorem State.putSatLanes_regNat (i : VReg) (lo hi : Nat) (f : Nat → Int) (s : State) (j : SReg) : (s.putSatLanes i lo hi f).regNat j = s.regNat j := rfl
@[simp] theorem State.putSatLanes_p (i : VReg) (lo hi : Nat) (f : Nat → Int) (s : State) : (s.putSatLanes i lo hi f).p = s.p := rfl
@[simp] theorem State.putSatLanes_desc (i : VReg) (lo hi : Nat) (f : Nat → Int) (s : State) (st : StageNo) : (s.putSatLanes i lo hi f).desc st = s.desc st := rfl
@[simp] theorem State.putSatLanes_stages (i : VReg) (lo hi : Nat) (f : Nat → Int) (s : State) : (s.putSatLanes i lo hi f).stages = s.stages := rfl
@[simp] theorem State.putSatLanes_idxNat (i : VReg) (lo hi : Nat) (f : Nat → Int) (s : State) (st : StageNo) : (s.putSatLanes i lo hi f).idxNat st = s.idxNat st := rfl
@[simp] theorem State.setRf_reg (b : Bool) (s : State) (j : SReg) : (s.setRf b).reg j = s.reg j := rfl
@[simp] theorem State.setRf_regNat (b : Bool) (s : State) (j : SReg) : (s.setRf b).regNat j = s.regNat j := rfl
@[simp] theorem State.setRf_vec (b : Bool) (s : State) (j : VReg) : (s.setRf b).vec j = s.vec j := rfl
@[simp] theorem State.setRf_laneInt (b : Bool) (s : State) (j : VReg) : (s.setRf b).laneInt j = s.laneInt j := rfl
@[simp] theorem State.setRf_p (b : Bool) (s : State) : (s.setRf b).p = s.p := rfl
@[simp] theorem State.setRf_desc (b : Bool) (s : State) (st : StageNo) : (s.setRf b).desc st = s.desc st := rfl
@[simp] theorem State.setRf_stages (b : Bool) (s : State) : (s.setRf b).stages = s.stages := rfl
@[simp] theorem State.setRf_idxNat (b : Bool) (s : State) (st : StageNo) : (s.setRf b).idxNat st = s.idxNat st := rfl
@[simp] theorem State.setMf_reg (b : Bool) (s : State) (j : SReg) : (s.setMf b).reg j = s.reg j := rfl
@[simp] theorem State.setMf_regNat (b : Bool) (s : State) (j : SReg) : (s.setMf b).regNat j = s.regNat j := rfl
@[simp] theorem State.setMf_vec (b : Bool) (s : State) (j : VReg) : (s.setMf b).vec j = s.vec j := rfl
@[simp] theorem State.setMf_laneInt (b : Bool) (s : State) (j : VReg) : (s.setMf b).laneInt j = s.laneInt j := rfl
@[simp] theorem State.setMf_p (b : Bool) (s : State) : (s.setMf b).p = s.p := rfl
@[simp] theorem State.setMf_desc (b : Bool) (s : State) (st : StageNo) : (s.setMf b).desc st = s.desc st := rfl
@[simp] theorem State.setMf_stages (b : Bool) (s : State) : (s.setMf b).stages = s.stages := rfl
@[simp] theorem State.setMf_idxNat (b : Bool) (s : State) (st : StageNo) : (s.setMf b).idxNat st = s.idxNat st := rfl
@[simp] theorem State.setFlagsWord_reg (w : Word) (s : State) (j : SReg) : (s.setFlagsWord w).reg j = s.reg j := rfl
@[simp] theorem State.setFlagsWord_regNat (w : Word) (s : State) (j : SReg) : (s.setFlagsWord w).regNat j = s.regNat j := rfl
@[simp] theorem State.setFlagsWord_vec (w : Word) (s : State) (j : VReg) : (s.setFlagsWord w).vec j = s.vec j := rfl
@[simp] theorem State.setFlagsWord_laneInt (w : Word) (s : State) (j : VReg) : (s.setFlagsWord w).laneInt j = s.laneInt j := rfl
@[simp] theorem State.setFlagsWord_p (w : Word) (s : State) : (s.setFlagsWord w).p = s.p := rfl
@[simp] theorem State.setFlagsWord_desc (w : Word) (s : State) (st : StageNo) : (s.setFlagsWord w).desc st = s.desc st := rfl
@[simp] theorem State.setFlagsWord_stages (w : Word) (s : State) : (s.setFlagsWord w).stages = s.stages := rfl
@[simp] theorem State.setFlagsWord_idxNat (w : Word) (s : State) (st : StageNo) : (s.setFlagsWord w).idxNat st = s.idxNat st := rfl
@[simp] theorem recordFault_reg (c : BitVec 4) (w : Word) (s : State) (j : SReg) : (recordFault c w s).reg j = s.reg j := rfl
@[simp] theorem recordFault_regNat (c : BitVec 4) (w : Word) (s : State) (j : SReg) : (recordFault c w s).regNat j = s.regNat j := rfl
@[simp] theorem recordFault_vec (c : BitVec 4) (w : Word) (s : State) (j : VReg) : (recordFault c w s).vec j = s.vec j := rfl
@[simp] theorem recordFault_laneInt (c : BitVec 4) (w : Word) (s : State) (j : VReg) : (recordFault c w s).laneInt j = s.laneInt j := rfl
@[simp] theorem recordFault_p (c : BitVec 4) (w : Word) (s : State) : (recordFault c w s).p = s.p := rfl
@[simp] theorem recordFault_desc (c : BitVec 4) (w : Word) (s : State) (st : StageNo) : (recordFault c w s).desc st = s.desc st := rfl
@[simp] theorem recordFault_stages (c : BitVec 4) (w : Word) (s : State) : (recordFault c w s).stages = s.stages := rfl
@[simp] theorem recordFault_idxNat (c : BitVec 4) (w : Word) (s : State) (st : StageNo) : (recordFault c w s).idxNat st = s.idxNat st := rfl
@[simp] theorem takeFault_reg (t : Trap) (s : State) (j : SReg) : (takeFault t s).reg j = s.reg j := rfl
@[simp] theorem takeFault_regNat (t : Trap) (s : State) (j : SReg) : (takeFault t s).regNat j = s.regNat j := rfl
@[simp] theorem takeFault_vec (t : Trap) (s : State) (j : VReg) : (takeFault t s).vec j = s.vec j := rfl
@[simp] theorem takeFault_laneInt (t : Trap) (s : State) (j : VReg) : (takeFault t s).laneInt j = s.laneInt j := rfl
@[simp] theorem takeFault_p (t : Trap) (s : State) : (takeFault t s).p = s.p := rfl
@[simp] theorem takeFault_desc (t : Trap) (s : State) (st : StageNo) : (takeFault t s).desc st = s.desc st := rfl
@[simp] theorem takeFault_stages (t : Trap) (s : State) : (takeFault t s).stages = s.stages := rfl
@[simp] theorem takeFault_idxNat (t : Trap) (s : State) (st : StageNo) : (takeFault t s).idxNat st = s.idxNat st := rfl
@[simp] theorem clearRun_reg (s : State) (j : SReg) : (clearRun s).reg j = s.reg j := rfl
@[simp] theorem clearRun_regNat (s : State) (j : SReg) : (clearRun s).regNat j = s.regNat j := rfl
@[simp] theorem clearRun_vec (s : State) (j : VReg) : (clearRun s).vec j = s.vec j := rfl
@[simp] theorem clearRun_laneInt (s : State) (j : VReg) : (clearRun s).laneInt j = s.laneInt j := rfl
@[simp] theorem clearRun_p (s : State) : (clearRun s).p = s.p := rfl
@[simp] theorem clearRun_desc (s : State) (st : StageNo) : (clearRun s).desc st = s.desc st := rfl
@[simp] theorem clearRun_stages (s : State) : (clearRun s).stages = s.stages := rfl
@[simp] theorem clearRun_idxNat (s : State) (st : StageNo) : (clearRun s).idxNat st = s.idxNat st := rfl

end Sys2Proof.Machine
end

