-- ==== Sys2Proof/Laws/Lanes.lean ====
section
/-! SUPPORT. The laws of scalar registers and lanes: what a write leaves in every register and lane
(`10_state.md` R41 to R43). -/

namespace Sys2Proof.Machine

open Sys2Proof

/-! ## Scalar registers -/

theorem State.reg_setReg (s : State) (i j : SReg) (w : Word) :
    (s.setReg i w).reg j = if i = j then w else s.reg j := by
  simp only [State.reg, State.setReg, Fin.getElem_fin, Vector.getElem_set, Fin.ext_iff]

@[simp] theorem State.reg_setReg_self (s : State) (i : SReg) (w : Word) : (s.setReg i w).reg i = w := by
  simp [State.reg_setReg]

/-! ## Lanes -/

theorem Lanes.word_of_lt (x : Lanes) {k : Nat} (h : k < 16) : x.word k = x[k] := by
  simp [Lanes.word, Vector.getD, h]

@[simp] theorem Lanes.word_fin (x : Lanes) (k : Fin 16) : x.word k.val = x[k] := by
  simp [Lanes.word_of_lt x k.isLt]

theorem Lanes.getElem_update (x : Lanes) (lo hi : Nat) (f : Nat → Word) (k : Nat) (hk : k < 16) :
    (x.update lo hi f)[k] = if lo ≤ k ∧ k < hi then f k else x[k] := by
  simp [Lanes.update]

/-- What a write of lanes `lo` to `hi - 1` leaves in each lane (R43). -/
theorem Lanes.word_update (x : Lanes) (lo hi : Nat) (f : Nat → Word) {k : Nat} (hk : k < 16) :
    (x.update lo hi f).word k = if lo ≤ k ∧ k < hi then f k else x.word k := by
  rw [Lanes.word_of_lt _ hk, Lanes.getElem_update _ _ _ _ _ hk, Lanes.word_of_lt _ hk]

/-- A write of lanes with the words they hold changes nothing. -/
theorem Lanes.update_self (x : Lanes) (lo hi : Nat) (f : Nat → Word)
    (h : ∀ k < 16, lo ≤ k → k < hi → f k = x.word k) : x.update lo hi f = x := by
  refine Vector.ext fun k hk => ?_
  rw [Lanes.getElem_update _ _ _ _ _ hk]
  split_ifs with hr
  · rw [h k hk hr.1 hr.2, Lanes.word_of_lt _ hk]
  · rfl

theorem State.vec_setVec (s : State) (i j : VReg) (x : Lanes) :
    (s.setVec i x).vec j = if i = j then x else s.vec j := by
  simp only [State.vec, State.setVec, Fin.getElem_fin, Vector.getElem_set, Fin.ext_iff]

@[simp] theorem State.vec_setVec_self (s : State) (i : VReg) (x : Lanes) : (s.setVec i x).vec i = x := by
  simp [State.vec_setVec]

theorem State.vec_putLanes (s : State) (i j : VReg) (lo hi : Nat) (f : Nat → Word) :
    (s.putLanes i lo hi f).vec j = if i = j then (s.vec i).update lo hi f else s.vec j := by
  simp only [State.putLanes, State.vec_setVec]

@[simp] theorem State.vec_putLanes_self (s : State) (i : VReg) (lo hi : Nat) (f : Nat → Word) :
    (s.putLanes i lo hi f).vec i = (s.vec i).update lo hi f := by
  simp [State.vec_putLanes]

@[simp] theorem State.vec_putSatLanes_self (s : State) (i : VReg) (lo hi : Nat) (f : Nat → Int) :
    (s.putSatLanes i lo hi f).vec i = (s.vec i).update lo hi fun k => sat32 (f k) := by
  simp [State.putSatLanes]

theorem State.vec_putSatLanes_of_ne (s : State) {i j : VReg} (h : i ≠ j) (lo hi : Nat) (f : Nat → Int) :
    (s.putSatLanes i lo hi f).vec j = s.vec j := by
  simp [State.putSatLanes, State.vec_putLanes, h]

/-- When a saturating write of lanes sets SAT (R8, R47). -/
theorem State.sat_putSatLanes_iff (s : State) (i : VReg) (lo hi : Nat) (f : Nat → Int) (h : hi ≤ 16) :
    (s.putSatLanes i lo hi f).sat = true ↔ s.sat = true ∨ ∃ k, lo ≤ k ∧ k < hi ∧ clamps (f k) = true := by
  simp only [State.putSatLanes_sat, Bool.or_eq_true, List.any_eq_true, List.mem_range, Bool.and_eq_true,
    decide_eq_true_eq]
  constructor
  · rintro (h | ⟨k, -, ⟨h1, h2⟩, h3⟩)
    · exact .inl h
    · exact .inr ⟨k, h1, h2, h3⟩
  · rintro (h | ⟨k, h1, h2, h3⟩)
    · exact .inl h
    · exact .inr ⟨k, by omega, ⟨h1, h2⟩, h3⟩

/-- A saturating write in which nothing clamps leaves SAT as it was. -/
theorem State.sat_putSatLanes_of_not_clamps (s : State) (i : VReg) (lo hi : Nat) (f : Nat → Int)
    (h : ∀ k, lo ≤ k → k < hi → clamps (f k) = false) : (s.putSatLanes i lo hi f).sat = s.sat := by
  have : ((List.range 16).any fun k => decide (lo ≤ k) && decide (k < hi) && clamps (f k)) = false := by
    rw [List.any_eq_false]
    intro k _ hk
    simp only [Bool.and_eq_true, decide_eq_true_eq] at hk
    simp [h k hk.1.1 hk.1.2] at hk
  simp [this]

end Sys2Proof.Machine
end

