-- ==== Sys2Proof/Laws/Csr.lean ====
section
/-! SUPPORT. The laws of the CSR space: what a write of a CSR leaves alone (`10_state.md` R48, `44_sequencer_scalar.md`
R270). -/

namespace Sys2Proof.Machine

open Sys2Proof

@[simp] theorem writeCsr_pc (c : Csr) (w : Word) (s : State) : (writeCsr c w s).pc = s.pc := by cases c <;> rfl
@[simp] theorem writeCsr_state (c : Csr) (w : Word) (s : State) : (writeCsr c w s).state = s.state := by
  cases c <;> rfl
@[simp] theorem writeCsr_herr (c : Csr) (w : Word) (s : State) : (writeCsr c w s).herr = s.herr := by cases c <;> rfl
@[simp] theorem writeCsr_fcause (c : Csr) (w : Word) (s : State) : (writeCsr c w s).fcause = s.fcause := by
  cases c <;> rfl
@[simp] theorem writeCsr_fpc (c : Csr) (w : Word) (s : State) : (writeCsr c w s).fpc = s.fpc := by cases c <;> rfl
@[simp] theorem writeCsr_finfo (c : Csr) (w : Word) (s : State) : (writeCsr c w s).finfo = s.finfo := by
  cases c <;> rfl
@[simp] theorem writeCsr_rootcnt (c : Csr) (w : Word) (s : State) : (writeCsr c w s).rootcnt = s.rootcnt := by
  cases c <;> rfl
@[simp] theorem writeCsr_imem (c : Csr) (w : Word) (s : State) : (writeCsr c w s).imem = s.imem := by cases c <;> rfl
@[simp] theorem writeCsr_dmem (c : Csr) (w : Word) (s : State) : (writeCsr c w s).dmem = s.dmem := by cases c <;> rfl
@[simp] theorem writeCsr_tmem (c : Csr) (w : Word) (s : State) : (writeCsr c w s).tmem = s.tmem := by cases c <;> rfl
@[simp] theorem writeCsr_turns (c : Csr) (w : Word) (s : State) : (writeCsr c w s).turns = s.turns := by
  cases c <;> rfl
@[simp] theorem writeCsr_hrdata (c : Csr) (w : Word) (s : State) : (writeCsr c w s).hrdata = s.hrdata := by
  cases c <;> rfl

/-- A write of SYNMEM's neighbours leaves SYNMEM alone (R44). -/
theorem writeCsr_synmem {c : Csr} (h : ∀ k, c ≠ .synmem k) (w : Word) (s : State) :
    (writeCsr c w s).synmem = s.synmem := by
  cases c <;> first | rfl | exact absurd rfl (h _)

/-- Only a write of FLAGS changes a flag (R47, R52). -/
theorem writeCsr_flags {c : Csr} (h : c ≠ .flags) (w : Word) (s : State) :
    (writeCsr c w s).rf = s.rf ∧ (writeCsr c w s).sat = s.sat ∧ (writeCsr c w s).mf = s.mf := by
  cases c <;> first | exact ⟨rfl, rfl, rfl⟩ | exact absurd rfl h

/-- Every number below 0x20 is assigned as the table says, none above 0x12 (R48, R70). -/
theorem csrOf_eq_none_iff (n : BitVec 8) :
    csrOf n = none ↔ (0x13 ≤ n.toNat ∧ n.toNat < 0x20) ∨ (0x38 ≤ n.toNat ∧ n.toNat < 0x40) ∨
      (0x58 ≤ n.toNat ∧ n.toNat < 0x80) := by
  revert n; decide +kernel

theorem csrOf_eq_flags_iff (n : BitVec 8) : csrOf n = some .flags ↔ n = 0x03 := by
  revert n; decide +kernel

theorem csrOf_synmem {n : BitVec 8} {k : Fin 16} (h : csrOf n = some (.synmem k)) :
    0x40 ≤ n.toNat ∧ n.toNat < 0x50 := by
  revert n k; decide +kernel

end Sys2Proof.Machine
end

