-- ==== Sys2Proof/Laws/Encoding.lean ====
section
/-! SUPPORT. The bits of an encoded word, format by format: the fields a decoder finds in it, and the word that the fields
found make again (`30_encoding.md` R131, R132). -/

namespace Sys2Proof

theorem bits3_fieldA (w : Word) : bits3 (fieldA w) = w.extractLsb' 23 3 := rfl
theorem bits3_fieldB (w : Word) : bits3 (fieldB w) = w.extractLsb' 20 3 := rfl
theorem bits3_fieldC (w : Word) : bits3 (fieldC w) = w.extractLsb' 17 3 := rfl
theorem bits3_fieldD (w : Word) : bits3 (fieldD w) = w.extractLsb' 14 3 := rfl
theorem bits3_fieldE (w : Word) : bits3 (fieldE w) = w.extractLsb' 11 3 := rfl

/-! ## Format Z -/

theorem getLsbD_encodeZ (op : BitVec 6) (i : Nat) :
    (encodeZ op).getLsbD i =
    if i < 26 then false
    else op.getLsbD (i - 26) := by
  show BitVec.getLsbD (w := 6 + 26) (op ++ 0#26) i = _
  simp only [BitVec.getLsbD_append, BitVec.getLsbD_zero]


theorem fieldOp_encodeZ (op : BitVec 6) : fieldOp (encodeZ op) = op := by
  apply BitVec.eq_of_getLsbD_eq
  intro i hi
  interval_cases i <;> simp only [fieldOp, BitVec.getLsbD_extractLsb', getLsbD_encodeZ] <;> rfl

theorem reserved_encodeZ (op : BitVec 6) : encodeZ op &&& Format.z.reserved = 0#32 := by
  unfold Format.reserved
  apply BitVec.eq_of_getLsbD_eq
  intro i hi
  interval_cases i <;> simp only [BitVec.getLsbD_and, getLsbD_encodeZ] <;> simp

/-- A word whose reserved bits of format Z are 0 is the word of its fields (R132). -/
theorem encodeZ_of_reserved {w : Word} (h : w &&& Format.z.reserved = 0) :
    encodeZ (fieldOp w) = w := by
  unfold Format.reserved at h
  apply BitVec.eq_of_getLsbD_eq
  intro i hi
  have e := congrArg (BitVec.getLsbD · i) h
  interval_cases i <;> simp only [getLsbD_encodeZ] <;> simp [fieldOp] at e ⊢ <;> simp [e]

/-! ## Format R1 -/

theorem getLsbD_encodeR1 (op : BitVec 6) (a : Fin 8) (i : Nat) :
    (encodeR1 op a).getLsbD i =
    if i < 23 then false
    else if i < 26 then (bits3 a).getLsbD (i - 23)
    else op.getLsbD (i - 26) := by
  show BitVec.getLsbD (w := 6 + 3 + 23) (op ++ bits3 a ++ 0#23) i = _
  simp only [BitVec.getLsbD_append, BitVec.getLsbD_zero, Nat.sub_sub]
  split_ifs <;> first | rfl | omega

theorem fieldOp_encodeR1 (op : BitVec 6) (a : Fin 8) : fieldOp (encodeR1 op a) = op := by
  apply BitVec.eq_of_getLsbD_eq
  intro i hi
  interval_cases i <;> simp only [fieldOp, BitVec.getLsbD_extractLsb', getLsbD_encodeR1] <;> rfl

theorem fieldA_encodeR1 (op : BitVec 6) (a : Fin 8) : fieldA (encodeR1 op a) = a := by
  have h : (encodeR1 op a).extractLsb' 23 3 = bits3 a := by
    apply BitVec.eq_of_getLsbD_eq
    intro i hi
    interval_cases i <;> simp only [BitVec.getLsbD_extractLsb', getLsbD_encodeR1] <;> rfl
  simp [fieldA, h, bits3]

theorem reserved_encodeR1 (op : BitVec 6) (a : Fin 8) : encodeR1 op a &&& Format.r1.reserved = 0#32 := by
  unfold Format.reserved
  apply BitVec.eq_of_getLsbD_eq
  intro i hi
  interval_cases i <;> simp only [BitVec.getLsbD_and, getLsbD_encodeR1] <;> simp

/-- A word whose reserved bits of format R1 are 0 is the word of its fields (R132). -/
theorem encodeR1_of_reserved {w : Word} (h : w &&& Format.r1.reserved = 0) :
    encodeR1 (fieldOp w) (fieldA w) = w := by
  unfold Format.reserved at h
  apply BitVec.eq_of_getLsbD_eq
  intro i hi
  have e := congrArg (BitVec.getLsbD · i) h
  interval_cases i <;> simp only [getLsbD_encodeR1, bits3_fieldA] <;> simp [fieldOp] at e ⊢ <;> simp [e]

/-! ## Format R2 -/

theorem getLsbD_encodeR2 (op : BitVec 6) (a b : Fin 8) (i : Nat) :
    (encodeR2 op a b).getLsbD i =
    if i < 20 then false
    else if i < 23 then (bits3 b).getLsbD (i - 20)
    else if i < 26 then (bits3 a).getLsbD (i - 23)
    else op.getLsbD (i - 26) := by
  show BitVec.getLsbD (w := 6 + 3 + 3 + 20) (op ++ bits3 a ++ bits3 b ++ 0#20) i = _
  simp only [BitVec.getLsbD_append, BitVec.getLsbD_zero, Nat.sub_sub]
  split_ifs <;> first | rfl | omega

theorem fieldOp_encodeR2 (op : BitVec 6) (a b : Fin 8) : fieldOp (encodeR2 op a b) = op := by
  apply BitVec.eq_of_getLsbD_eq
  intro i hi
  interval_cases i <;> simp only [fieldOp, BitVec.getLsbD_extractLsb', getLsbD_encodeR2] <;> rfl

theorem fieldA_encodeR2 (op : BitVec 6) (a b : Fin 8) : fieldA (encodeR2 op a b) = a := by
  have h : (encodeR2 op a b).extractLsb' 23 3 = bits3 a := by
    apply BitVec.eq_of_getLsbD_eq
    intro i hi
    interval_cases i <;> simp only [BitVec.getLsbD_extractLsb', getLsbD_encodeR2] <;> rfl
  simp [fieldA, h, bits3]

theorem fieldB_encodeR2 (op : BitVec 6) (a b : Fin 8) : fieldB (encodeR2 op a b) = b := by
  have h : (encodeR2 op a b).extractLsb' 20 3 = bits3 b := by
    apply BitVec.eq_of_getLsbD_eq
    intro i hi
    interval_cases i <;> simp only [BitVec.getLsbD_extractLsb', getLsbD_encodeR2] <;> rfl
  simp [fieldB, h, bits3]

theorem reserved_encodeR2 (op : BitVec 6) (a b : Fin 8) : encodeR2 op a b &&& Format.r2.reserved = 0#32 := by
  unfold Format.reserved
  apply BitVec.eq_of_getLsbD_eq
  intro i hi
  interval_cases i <;> simp only [BitVec.getLsbD_and, getLsbD_encodeR2] <;> simp

/-- A word whose reserved bits of format R2 are 0 is the word of its fields (R132). -/
theorem encodeR2_of_reserved {w : Word} (h : w &&& Format.r2.reserved = 0) :
    encodeR2 (fieldOp w) (fieldA w) (fieldB w) = w := by
  unfold Format.reserved at h
  apply BitVec.eq_of_getLsbD_eq
  intro i hi
  have e := congrArg (BitVec.getLsbD · i) h
  interval_cases i <;> simp only [getLsbD_encodeR2, bits3_fieldA, bits3_fieldB] <;> simp [fieldOp] at e ⊢ <;> simp [e]

/-! ## Format R3 -/

theorem getLsbD_encodeR3 (op : BitVec 6) (a b c : Fin 8) (i : Nat) :
    (encodeR3 op a b c).getLsbD i =
    if i < 17 then false
    else if i < 20 then (bits3 c).getLsbD (i - 17)
    else if i < 23 then (bits3 b).getLsbD (i - 20)
    else if i < 26 then (bits3 a).getLsbD (i - 23)
    else op.getLsbD (i - 26) := by
  show BitVec.getLsbD (w := 6 + 3 + 3 + 3 + 17) (op ++ bits3 a ++ bits3 b ++ bits3 c ++ 0#17) i = _
  simp only [BitVec.getLsbD_append, BitVec.getLsbD_zero, Nat.sub_sub]
  split_ifs <;> first | rfl | omega

theorem fieldOp_encodeR3 (op : BitVec 6) (a b c : Fin 8) : fieldOp (encodeR3 op a b c) = op := by
  apply BitVec.eq_of_getLsbD_eq
  intro i hi
  interval_cases i <;> simp only [fieldOp, BitVec.getLsbD_extractLsb', getLsbD_encodeR3] <;> rfl

theorem fieldA_encodeR3 (op : BitVec 6) (a b c : Fin 8) : fieldA (encodeR3 op a b c) = a := by
  have h : (encodeR3 op a b c).extractLsb' 23 3 = bits3 a := by
    apply BitVec.eq_of_getLsbD_eq
    intro i hi
    interval_cases i <;> simp only [BitVec.getLsbD_extractLsb', getLsbD_encodeR3] <;> rfl
  simp [fieldA, h, bits3]

theorem fieldB_encodeR3 (op : BitVec 6) (a b c : Fin 8) : fieldB (encodeR3 op a b c) = b := by
  have h : (encodeR3 op a b c).extractLsb' 20 3 = bits3 b := by
    apply BitVec.eq_of_getLsbD_eq
    intro i hi
    interval_cases i <;> simp only [BitVec.getLsbD_extractLsb', getLsbD_encodeR3] <;> rfl
  simp [fieldB, h, bits3]

theorem fieldC_encodeR3 (op : BitVec 6) (a b c : Fin 8) : fieldC (encodeR3 op a b c) = c := by
  have h : (encodeR3 op a b c).extractLsb' 17 3 = bits3 c := by
    apply BitVec.eq_of_getLsbD_eq
    intro i hi
    interval_cases i <;> simp only [BitVec.getLsbD_extractLsb', getLsbD_encodeR3] <;> rfl
  simp [fieldC, h, bits3]

theorem reserved_encodeR3 (op : BitVec 6) (a b c : Fin 8) : encodeR3 op a b c &&& Format.r3.reserved = 0#32 := by
  unfold Format.reserved
  apply BitVec.eq_of_getLsbD_eq
  intro i hi
  interval_cases i <;> simp only [BitVec.getLsbD_and, getLsbD_encodeR3] <;> simp

/-- A word whose reserved bits of format R3 are 0 is the word of its fields (R132). -/
theorem encodeR3_of_reserved {w : Word} (h : w &&& Format.r3.reserved = 0) :
    encodeR3 (fieldOp w) (fieldA w) (fieldB w) (fieldC w) = w := by
  unfold Format.reserved at h
  apply BitVec.eq_of_getLsbD_eq
  intro i hi
  have e := congrArg (BitVec.getLsbD · i) h
  interval_cases i <;> simp only [getLsbD_encodeR3, bits3_fieldA, bits3_fieldB, bits3_fieldC] <;> simp [fieldOp] at e ⊢ <;> simp [e]

/-! ## Format R4 -/

theorem getLsbD_encodeR4 (op : BitVec 6) (a b c d : Fin 8) (i : Nat) :
    (encodeR4 op a b c d).getLsbD i =
    if i < 14 then false
    else if i < 17 then (bits3 d).getLsbD (i - 14)
    else if i < 20 then (bits3 c).getLsbD (i - 17)
    else if i < 23 then (bits3 b).getLsbD (i - 20)
    else if i < 26 then (bits3 a).getLsbD (i - 23)
    else op.getLsbD (i - 26) := by
  show BitVec.getLsbD (w := 6 + 3 + 3 + 3 + 3 + 14) (op ++ bits3 a ++ bits3 b ++ bits3 c ++ bits3 d ++ 0#14) i = _
  simp only [BitVec.getLsbD_append, BitVec.getLsbD_zero, Nat.sub_sub]
  split_ifs <;> first | rfl | omega

theorem fieldOp_encodeR4 (op : BitVec 6) (a b c d : Fin 8) : fieldOp (encodeR4 op a b c d) = op := by
  apply BitVec.eq_of_getLsbD_eq
  intro i hi
  interval_cases i <;> simp only [fieldOp, BitVec.getLsbD_extractLsb', getLsbD_encodeR4] <;> rfl

theorem fieldA_encodeR4 (op : BitVec 6) (a b c d : Fin 8) : fieldA (encodeR4 op a b c d) = a := by
  have h : (encodeR4 op a b c d).extractLsb' 23 3 = bits3 a := by
    apply BitVec.eq_of_getLsbD_eq
    intro i hi
    interval_cases i <;> simp only [BitVec.getLsbD_extractLsb', getLsbD_encodeR4] <;> rfl
  simp [fieldA, h, bits3]

theorem fieldB_encodeR4 (op : BitVec 6) (a b c d : Fin 8) : fieldB (encodeR4 op a b c d) = b := by
  have h : (encodeR4 op a b c d).extractLsb' 20 3 = bits3 b := by
    apply BitVec.eq_of_getLsbD_eq
    intro i hi
    interval_cases i <;> simp only [BitVec.getLsbD_extractLsb', getLsbD_encodeR4] <;> rfl
  simp [fieldB, h, bits3]

theorem fieldC_encodeR4 (op : BitVec 6) (a b c d : Fin 8) : fieldC (encodeR4 op a b c d) = c := by
  have h : (encodeR4 op a b c d).extractLsb' 17 3 = bits3 c := by
    apply BitVec.eq_of_getLsbD_eq
    intro i hi
    interval_cases i <;> simp only [BitVec.getLsbD_extractLsb', getLsbD_encodeR4] <;> rfl
  simp [fieldC, h, bits3]

theorem fieldD_encodeR4 (op : BitVec 6) (a b c d : Fin 8) : fieldD (encodeR4 op a b c d) = d := by
  have h : (encodeR4 op a b c d).extractLsb' 14 3 = bits3 d := by
    apply BitVec.eq_of_getLsbD_eq
    intro i hi
    interval_cases i <;> simp only [BitVec.getLsbD_extractLsb', getLsbD_encodeR4] <;> rfl
  simp [fieldD, h, bits3]

theorem reserved_encodeR4 (op : BitVec 6) (a b c d : Fin 8) : encodeR4 op a b c d &&& Format.r4.reserved = 0#32 := by
  unfold Format.reserved
  apply BitVec.eq_of_getLsbD_eq
  intro i hi
  interval_cases i <;> simp only [BitVec.getLsbD_and, getLsbD_encodeR4] <;> simp

/-- A word whose reserved bits of format R4 are 0 is the word of its fields (R132). -/
theorem encodeR4_of_reserved {w : Word} (h : w &&& Format.r4.reserved = 0) :
    encodeR4 (fieldOp w) (fieldA w) (fieldB w) (fieldC w) (fieldD w) = w := by
  unfold Format.reserved at h
  apply BitVec.eq_of_getLsbD_eq
  intro i hi
  have e := congrArg (BitVec.getLsbD · i) h
  interval_cases i <;> simp only [getLsbD_encodeR4, bits3_fieldA, bits3_fieldB, bits3_fieldC, bits3_fieldD] <;> simp [fieldOp] at e ⊢ <;> simp [e]

/-! ## Format R5 -/

theorem getLsbD_encodeR5 (op : BitVec 6) (a b c d e : Fin 8) (i : Nat) :
    (encodeR5 op a b c d e).getLsbD i =
    if i < 11 then false
    else if i < 14 then (bits3 e).getLsbD (i - 11)
    else if i < 17 then (bits3 d).getLsbD (i - 14)
    else if i < 20 then (bits3 c).getLsbD (i - 17)
    else if i < 23 then (bits3 b).getLsbD (i - 20)
    else if i < 26 then (bits3 a).getLsbD (i - 23)
    else op.getLsbD (i - 26) := by
  show BitVec.getLsbD (w := 6 + 3 + 3 + 3 + 3 + 3 + 11) (op ++ bits3 a ++ bits3 b ++ bits3 c ++ bits3 d ++ bits3 e ++ 0#11) i = _
  simp only [BitVec.getLsbD_append, BitVec.getLsbD_zero, Nat.sub_sub]
  split_ifs <;> first | rfl | omega

theorem fieldOp_encodeR5 (op : BitVec 6) (a b c d e : Fin 8) : fieldOp (encodeR5 op a b c d e) = op := by
  apply BitVec.eq_of_getLsbD_eq
  intro i hi
  interval_cases i <;> simp only [fieldOp, BitVec.getLsbD_extractLsb', getLsbD_encodeR5] <;> rfl

theorem fieldA_encodeR5 (op : BitVec 6) (a b c d e : Fin 8) : fieldA (encodeR5 op a b c d e) = a := by
  have h : (encodeR5 op a b c d e).extractLsb' 23 3 = bits3 a := by
    apply BitVec.eq_of_getLsbD_eq
    intro i hi
    interval_cases i <;> simp only [BitVec.getLsbD_extractLsb', getLsbD_encodeR5] <;> rfl
  simp [fieldA, h, bits3]

theorem fieldB_encodeR5 (op : BitVec 6) (a b c d e : Fin 8) : fieldB (encodeR5 op a b c d e) = b := by
  have h : (encodeR5 op a b c d e).extractLsb' 20 3 = bits3 b := by
    apply BitVec.eq_of_getLsbD_eq
    intro i hi
    interval_cases i <;> simp only [BitVec.getLsbD_extractLsb', getLsbD_encodeR5] <;> rfl
  simp [fieldB, h, bits3]

theorem fieldC_encodeR5 (op : BitVec 6) (a b c d e : Fin 8) : fieldC (encodeR5 op a b c d e) = c := by
  have h : (encodeR5 op a b c d e).extractLsb' 17 3 = bits3 c := by
    apply BitVec.eq_of_getLsbD_eq
    intro i hi
    interval_cases i <;> simp only [BitVec.getLsbD_extractLsb', getLsbD_encodeR5] <;> rfl
  simp [fieldC, h, bits3]

theorem fieldD_encodeR5 (op : BitVec 6) (a b c d e : Fin 8) : fieldD (encodeR5 op a b c d e) = d := by
  have h : (encodeR5 op a b c d e).extractLsb' 14 3 = bits3 d := by
    apply BitVec.eq_of_getLsbD_eq
    intro i hi
    interval_cases i <;> simp only [BitVec.getLsbD_extractLsb', getLsbD_encodeR5] <;> rfl
  simp [fieldD, h, bits3]

theorem fieldE_encodeR5 (op : BitVec 6) (a b c d e : Fin 8) : fieldE (encodeR5 op a b c d e) = e := by
  have h : (encodeR5 op a b c d e).extractLsb' 11 3 = bits3 e := by
    apply BitVec.eq_of_getLsbD_eq
    intro i hi
    interval_cases i <;> simp only [BitVec.getLsbD_extractLsb', getLsbD_encodeR5] <;> rfl
  simp [fieldE, h, bits3]

theorem reserved_encodeR5 (op : BitVec 6) (a b c d e : Fin 8) : encodeR5 op a b c d e &&& Format.r5.reserved = 0#32 := by
  unfold Format.reserved
  apply BitVec.eq_of_getLsbD_eq
  intro i hi
  interval_cases i <;> simp only [BitVec.getLsbD_and, getLsbD_encodeR5] <;> simp

/-- A word whose reserved bits of format R5 are 0 is the word of its fields (R132). -/
theorem encodeR5_of_reserved {w : Word} (h : w &&& Format.r5.reserved = 0) :
    encodeR5 (fieldOp w) (fieldA w) (fieldB w) (fieldC w) (fieldD w) (fieldE w) = w := by
  unfold Format.reserved at h
  apply BitVec.eq_of_getLsbD_eq
  intro i hi
  have e := congrArg (BitVec.getLsbD · i) h
  interval_cases i <;> simp only [getLsbD_encodeR5, bits3_fieldA, bits3_fieldB, bits3_fieldC, bits3_fieldD, bits3_fieldE] <;> simp [fieldOp] at e ⊢ <;> simp [e]

/-! ## Format J -/

theorem getLsbD_encodeJ (op : BitVec 6) (imm : BitVec 16) (i : Nat) :
    (encodeJ op imm).getLsbD i =
    if i < 16 then imm.getLsbD i
    else if i < 26 then false
    else op.getLsbD (i - 26) := by
  show BitVec.getLsbD (w := 6 + 10 + 16) (op ++ 0#10 ++ imm) i = _
  simp only [BitVec.getLsbD_append, BitVec.getLsbD_zero, Nat.sub_sub]
  split_ifs <;> first | rfl | omega

theorem fieldOp_encodeJ (op : BitVec 6) (imm : BitVec 16) : fieldOp (encodeJ op imm) = op := by
  apply BitVec.eq_of_getLsbD_eq
  intro i hi
  interval_cases i <;> simp only [fieldOp, BitVec.getLsbD_extractLsb', getLsbD_encodeJ] <;> rfl

theorem fieldImm_encodeJ (op : BitVec 6) (imm : BitVec 16) : fieldImm (encodeJ op imm) = imm := by
  apply BitVec.eq_of_getLsbD_eq
  intro i hi
  interval_cases i <;> simp only [fieldImm, BitVec.getLsbD_extractLsb', getLsbD_encodeJ] <;> rfl

theorem reserved_encodeJ (op : BitVec 6) (imm : BitVec 16) : encodeJ op imm &&& Format.j.reserved = 0#32 := by
  unfold Format.reserved
  apply BitVec.eq_of_getLsbD_eq
  intro i hi
  interval_cases i <;> simp only [BitVec.getLsbD_and, getLsbD_encodeJ] <;> simp

/-- A word whose reserved bits of format J are 0 is the word of its fields (R132). -/
theorem encodeJ_of_reserved {w : Word} (h : w &&& Format.j.reserved = 0) :
    encodeJ (fieldOp w) (fieldImm w) = w := by
  unfold Format.reserved at h
  apply BitVec.eq_of_getLsbD_eq
  intro i hi
  have e := congrArg (BitVec.getLsbD · i) h
  interval_cases i <;> simp only [getLsbD_encodeJ] <;> simp [fieldOp, fieldImm] at e ⊢ <;> simp [e]

/-! ## Format I -/

theorem getLsbD_encodeI (op : BitVec 6) (a : Fin 8) (imm : BitVec 16) (i : Nat) :
    (encodeI op a imm).getLsbD i =
    if i < 16 then imm.getLsbD i
    else if i < 23 then false
    else if i < 26 then (bits3 a).getLsbD (i - 23)
    else op.getLsbD (i - 26) := by
  show BitVec.getLsbD (w := 6 + 3 + 7 + 16) (op ++ bits3 a ++ 0#7 ++ imm) i = _
  simp only [BitVec.getLsbD_append, BitVec.getLsbD_zero, Nat.sub_sub]
  split_ifs <;> first | rfl | omega

theorem fieldOp_encodeI (op : BitVec 6) (a : Fin 8) (imm : BitVec 16) : fieldOp (encodeI op a imm) = op := by
  apply BitVec.eq_of_getLsbD_eq
  intro i hi
  interval_cases i <;> simp only [fieldOp, BitVec.getLsbD_extractLsb', getLsbD_encodeI] <;> rfl

theorem fieldA_encodeI (op : BitVec 6) (a : Fin 8) (imm : BitVec 16) : fieldA (encodeI op a imm) = a := by
  have h : (encodeI op a imm).extractLsb' 23 3 = bits3 a := by
    apply BitVec.eq_of_getLsbD_eq
    intro i hi
    interval_cases i <;> simp only [BitVec.getLsbD_extractLsb', getLsbD_encodeI] <;> rfl
  simp [fieldA, h, bits3]

theorem fieldImm_encodeI (op : BitVec 6) (a : Fin 8) (imm : BitVec 16) : fieldImm (encodeI op a imm) = imm := by
  apply BitVec.eq_of_getLsbD_eq
  intro i hi
  interval_cases i <;> simp only [fieldImm, BitVec.getLsbD_extractLsb', getLsbD_encodeI] <;> rfl

theorem reserved_encodeI (op : BitVec 6) (a : Fin 8) (imm : BitVec 16) : encodeI op a imm &&& Format.i.reserved = 0#32 := by
  unfold Format.reserved
  apply BitVec.eq_of_getLsbD_eq
  intro i hi
  interval_cases i <;> simp only [BitVec.getLsbD_and, getLsbD_encodeI] <;> simp

/-- A word whose reserved bits of format I are 0 is the word of its fields (R132). -/
theorem encodeI_of_reserved {w : Word} (h : w &&& Format.i.reserved = 0) :
    encodeI (fieldOp w) (fieldA w) (fieldImm w) = w := by
  unfold Format.reserved at h
  apply BitVec.eq_of_getLsbD_eq
  intro i hi
  have e := congrArg (BitVec.getLsbD · i) h
  interval_cases i <;> simp only [getLsbD_encodeI, bits3_fieldA] <;> simp [fieldOp, fieldImm] at e ⊢ <;> simp [e]

/-! ## Format M -/

theorem getLsbD_encodeM (op : BitVec 6) (a b : Fin 8) (imm : BitVec 16) (i : Nat) :
    (encodeM op a b imm).getLsbD i =
    if i < 16 then imm.getLsbD i
    else if i < 20 then false
    else if i < 23 then (bits3 b).getLsbD (i - 20)
    else if i < 26 then (bits3 a).getLsbD (i - 23)
    else op.getLsbD (i - 26) := by
  show BitVec.getLsbD (w := 6 + 3 + 3 + 4 + 16) (op ++ bits3 a ++ bits3 b ++ 0#4 ++ imm) i = _
  simp only [BitVec.getLsbD_append, BitVec.getLsbD_zero, Nat.sub_sub]
  split_ifs <;> first | rfl | omega

theorem fieldOp_encodeM (op : BitVec 6) (a b : Fin 8) (imm : BitVec 16) : fieldOp (encodeM op a b imm) = op := by
  apply BitVec.eq_of_getLsbD_eq
  intro i hi
  interval_cases i <;> simp only [fieldOp, BitVec.getLsbD_extractLsb', getLsbD_encodeM] <;> rfl

theorem fieldA_encodeM (op : BitVec 6) (a b : Fin 8) (imm : BitVec 16) : fieldA (encodeM op a b imm) = a := by
  have h : (encodeM op a b imm).extractLsb' 23 3 = bits3 a := by
    apply BitVec.eq_of_getLsbD_eq
    intro i hi
    interval_cases i <;> simp only [BitVec.getLsbD_extractLsb', getLsbD_encodeM] <;> rfl
  simp [fieldA, h, bits3]

theorem fieldB_encodeM (op : BitVec 6) (a b : Fin 8) (imm : BitVec 16) : fieldB (encodeM op a b imm) = b := by
  have h : (encodeM op a b imm).extractLsb' 20 3 = bits3 b := by
    apply BitVec.eq_of_getLsbD_eq
    intro i hi
    interval_cases i <;> simp only [BitVec.getLsbD_extractLsb', getLsbD_encodeM] <;> rfl
  simp [fieldB, h, bits3]

theorem fieldImm_encodeM (op : BitVec 6) (a b : Fin 8) (imm : BitVec 16) : fieldImm (encodeM op a b imm) = imm := by
  apply BitVec.eq_of_getLsbD_eq
  intro i hi
  interval_cases i <;> simp only [fieldImm, BitVec.getLsbD_extractLsb', getLsbD_encodeM] <;> rfl

theorem reserved_encodeM (op : BitVec 6) (a b : Fin 8) (imm : BitVec 16) : encodeM op a b imm &&& Format.m.reserved = 0#32 := by
  unfold Format.reserved
  apply BitVec.eq_of_getLsbD_eq
  intro i hi
  interval_cases i <;> simp only [BitVec.getLsbD_and, getLsbD_encodeM] <;> simp

/-- A word whose reserved bits of format M are 0 is the word of its fields (R132). -/
theorem encodeM_of_reserved {w : Word} (h : w &&& Format.m.reserved = 0) :
    encodeM (fieldOp w) (fieldA w) (fieldB w) (fieldImm w) = w := by
  unfold Format.reserved at h
  apply BitVec.eq_of_getLsbD_eq
  intro i hi
  have e := congrArg (BitVec.getLsbD · i) h
  interval_cases i <;> simp only [getLsbD_encodeM, bits3_fieldA, bits3_fieldB] <;> simp [fieldOp, fieldImm] at e ⊢ <;> simp [e]

/-! ## Format K -/

theorem getLsbD_encodeK (op : BitVec 6) (a : Fin 8) (csr : BitVec 8) (i : Nat) :
    (encodeK op a csr).getLsbD i =
    if i < 8 then csr.getLsbD i
    else if i < 23 then false
    else if i < 26 then (bits3 a).getLsbD (i - 23)
    else op.getLsbD (i - 26) := by
  show BitVec.getLsbD (w := 6 + 3 + 15 + 8) (op ++ bits3 a ++ 0#15 ++ csr) i = _
  simp only [BitVec.getLsbD_append, BitVec.getLsbD_zero, Nat.sub_sub]
  split_ifs <;> first | rfl | omega

theorem fieldOp_encodeK (op : BitVec 6) (a : Fin 8) (csr : BitVec 8) : fieldOp (encodeK op a csr) = op := by
  apply BitVec.eq_of_getLsbD_eq
  intro i hi
  interval_cases i <;> simp only [fieldOp, BitVec.getLsbD_extractLsb', getLsbD_encodeK] <;> rfl

theorem fieldA_encodeK (op : BitVec 6) (a : Fin 8) (csr : BitVec 8) : fieldA (encodeK op a csr) = a := by
  have h : (encodeK op a csr).extractLsb' 23 3 = bits3 a := by
    apply BitVec.eq_of_getLsbD_eq
    intro i hi
    interval_cases i <;> simp only [BitVec.getLsbD_extractLsb', getLsbD_encodeK] <;> rfl
  simp [fieldA, h, bits3]

theorem fieldCsr_encodeK (op : BitVec 6) (a : Fin 8) (csr : BitVec 8) : fieldCsr (encodeK op a csr) = csr := by
  apply BitVec.eq_of_getLsbD_eq
  intro i hi
  interval_cases i <;> simp only [fieldCsr, BitVec.getLsbD_extractLsb', getLsbD_encodeK] <;> rfl

theorem reserved_encodeK (op : BitVec 6) (a : Fin 8) (csr : BitVec 8) : encodeK op a csr &&& Format.k.reserved = 0#32 := by
  unfold Format.reserved
  apply BitVec.eq_of_getLsbD_eq
  intro i hi
  interval_cases i <;> simp only [BitVec.getLsbD_and, getLsbD_encodeK] <;> simp

/-- A word whose reserved bits of format K are 0 is the word of its fields (R132). -/
theorem encodeK_of_reserved {w : Word} (h : w &&& Format.k.reserved = 0) :
    encodeK (fieldOp w) (fieldA w) (fieldCsr w) = w := by
  unfold Format.reserved at h
  apply BitVec.eq_of_getLsbD_eq
  intro i hi
  have e := congrArg (BitVec.getLsbD · i) h
  interval_cases i <;> simp only [getLsbD_encodeK, bits3_fieldA] <;> simp [fieldOp, fieldCsr] at e ⊢ <;> simp [e]

end Sys2Proof
end

