-- ==== Sys2Proof/Laws/Decode.lean ====
section
/-! SUPPORT. The laws of the decoder: what its reserved-bit test answers, and a row's mask and match in terms of the op
field and the reserved bits (`30_encoding.md` R132 to R136). -/

namespace Sys2Proof

theorem ifReservedClear_of_clear {w : Word} {f : Format} (h : w &&& f.reserved = 0) (i : Instr) :
    ifReservedClear w f i = .ok i := by
  rw [ifReservedClear, if_pos h]

theorem ifReservedClear_of_set {w : Word} {f : Format} (h : w &&& f.reserved ≠ 0) (i : Instr) :
    ifReservedClear w f i = .error (.reservedBits f) := by
  rw [ifReservedClear, if_neg h]

theorem ifReservedClear_ok_iff {w : Word} {f : Format} {i j : Instr} :
    ifReservedClear w f i = .ok j ↔ w &&& f.reserved = 0 ∧ i = j := by
  unfold ifReservedClear
  split_ifs with h
  · simp [h]
  · constructor
    · intro e; cases e
    · exact fun e => absurd e.1 h

/-- No reserved bit of any format lies in the op field (R132). -/
theorem Format.getLsbD_reserved_of_le (f : Format) {i : Nat} (h : 26 ≤ i) : f.reserved.getLsbD i = false := by
  by_cases hi : i < 32
  · interval_cases i <;> cases f <;> rfl
  · exact BitVec.getLsbD_of_ge _ _ (by omega)

theorem getLsbD_opMask (i : Nat) : (0xFC000000#32).getLsbD i = (decide (26 ≤ i) && decide (i < 32)) := by
  by_cases hi : i < 32
  · interval_cases i <;> rfl
  · rw [BitVec.getLsbD_of_ge _ _ (by omega)]; simp [hi]

/-- The test of R136 asks for the op of the row and for clear reserved bits. -/
theorem Row.matches_iff (row : Row) (w : Word) :
    w &&& row.mask = row.pattern ↔ fieldOp w = row.op ∧ w &&& row.format.reserved = 0 := by
  have hpat : ∀ i, row.pattern.getLsbD i = if i < 26 then false else row.op.getLsbD (i - 26) := by
    intro i
    show BitVec.getLsbD (w := 6 + 26) (row.op ++ 0#26) i = _
    simp only [BitVec.getLsbD_append, BitVec.getLsbD_zero]
  have hmask : ∀ i, row.mask.getLsbD i =
      ((decide (26 ≤ i) && decide (i < 32)) || row.format.reserved.getLsbD i) := by
    intro i
    simp only [Row.mask, BitVec.getLsbD_or, getLsbD_opMask]
  constructor
  · intro h
    have hb : ∀ i, (w.getLsbD i && row.mask.getLsbD i) = row.pattern.getLsbD i := by
      intro i; rw [← h, BitVec.getLsbD_and]
    constructor
    · apply BitVec.eq_of_getLsbD_eq
      intro i hi
      have e := hb (26 + i)
      rw [hmask, hpat, if_neg (by omega), Nat.add_sub_cancel_left] at e
      rw [fieldOp, BitVec.getLsbD_extractLsb', ← e]
      simp [hi]
      omega
    · apply BitVec.eq_of_getLsbD_eq
      intro i hi
      rw [BitVec.getLsbD_and]
      show _ = (0#32).getLsbD i
      rw [BitVec.getLsbD_zero]
      by_cases h26 : 26 ≤ i
      · rw [Format.getLsbD_reserved_of_le _ h26, Bool.and_false]
      · have e := hb i
        rw [hmask, hpat, if_pos (by omega)] at e
        simpa [h26] using e
  · rintro ⟨ho, hr⟩
    apply BitVec.eq_of_getLsbD_eq
    intro i hi
    rw [BitVec.getLsbD_and, hmask, hpat]
    by_cases h26 : 26 ≤ i
    · rw [if_neg (by omega), ← ho, fieldOp, BitVec.getLsbD_extractLsb', Nat.add_sub_cancel' h26]
      simp [h26, hi]
      omega
    · have e := congrArg (BitVec.getLsbD · i) hr
      simp only [BitVec.getLsbD_and] at e
      rw [if_pos (by omega)]
      simpa [h26] using e

theorem Row.matches_eq_true_iff (row : Row) (w : Word) :
    row.matches w = true ↔ fieldOp w = row.op ∧ w &&& row.format.reserved = 0 := by
  rw [Row.matches, beq_iff_eq, Row.matches_iff]

/-- A word with the op and the clear reserved bits of a row is an instruction. -/
theorem wellFormedWord_of_row {w : Word} {row : Row} (hmem : row ∈ opcodeMap) (ho : fieldOp w = row.op)
    (hr : w &&& row.format.reserved = 0) : wellFormedWord w = true :=
  List.any_eq_true.2 ⟨row, hmem, (Row.matches_eq_true_iff row w).2 ⟨ho, hr⟩⟩

/-- No two rows of the opcode map share an op (R134). -/
theorem opcodeMap_op_injective : ∀ row ∈ opcodeMap, ∀ row' ∈ opcodeMap, row.op = row'.op → row = row' := by
  decide +kernel

end Sys2Proof
end

