-- ==== Sys2Proof/Laws/Memory.lean ====
section
/-! SUPPORT. The laws of memory: read after write, and that every operation keeps the canonical form. -/

namespace Sys2Proof.Machine

open Sys2Proof

/-! ## Read after write, on every memory, canonical or not -/

theorem Memory.readByte_insertByte (m : Memory) (a b : Nat) (x : Byte) :
    (Memory.insertByte a x m).readByte b = if b = a then x else m.readByte b := by
  induction m with
  | nil => simp [Memory.insertByte, Memory.readByte]
  | cons c rest ih =>
    obtain ⟨c, y⟩ := c
    unfold Memory.insertByte
    split_ifs with h1 h2 h3 h3 h3 <;> simp_all [Memory.readByte]

theorem Memory.readByte_filter (m : Memory) (a b : Nat) :
    Memory.readByte (m.filter (fun c => c.1 ≠ a)) b = if b = a then Config.unwrittenByte else m.readByte b := by
  induction m with
  | nil => simp [Memory.readByte]
  | cons c rest ih =>
    obtain ⟨c, y⟩ := c
    by_cases hca : c = a <;> by_cases hba : b = a <;> by_cases hbc : b = c <;>
      simp_all [Memory.readByte]

@[simp] theorem Memory.readByte_writeByte (m : Memory) (a b : Nat) (x : Byte) :
    (m.writeByte a x).readByte b = if b = a then x else m.readByte b := by
  unfold Memory.writeByte
  split_ifs with hx h h
  · rw [Memory.readByte_filter]; simp [h, hx]
  · rw [Memory.readByte_filter]; simp [h]
  · rw [Memory.readByte_insertByte]; simp [h]
  · rw [Memory.readByte_insertByte]; simp [h]

/-- A word store leaves every byte of the other words alone. -/
theorem Memory.readByte_writeWord_of_ne (m : Memory) (a b : Nat) (w : Word) (h : b / 4 ≠ a) :
    (m.writeWord a w).readByte b = m.readByte b := by
  have h0 : b ≠ 4 * a := by omega
  have h1 : b ≠ 4 * a + 1 := by omega
  have h2 : b ≠ 4 * a + 2 := by omega
  have h3 : b ≠ 4 * a + 3 := by omega
  simp [Memory.writeWord, h0, h1, h2, h3]

theorem word_of_bytes (w : Word) :
    w.extractLsb' 24 8 ++ w.extractLsb' 16 8 ++ w.extractLsb' 8 8 ++ w.extractLsb' 0 8 = w := by
  rw [BitVec.extractLsb'_append_extractLsb'_eq_extractLsb' (by omega),
    BitVec.extractLsb'_append_extractLsb'_eq_extractLsb' (by omega),
    BitVec.extractLsb'_append_extractLsb'_eq_extractLsb' (by omega)]
  simp

/-- Read after write of words (`20_memory.md` R107, R109). -/
@[simp] theorem Memory.readWord_writeWord (m : Memory) (a b : Nat) (w : Word) :
    (m.writeWord a w).readWord b = if b = a then w else m.readWord b := by
  by_cases h : b = a
  · subst h
    simp only [Memory.readWord, Memory.writeWord, Memory.readByte_writeByte, if_true]
    have e1 : (4 * b + 2 = 4 * b + 3) = False := by simp
    have e2 : (4 * b + 1 = 4 * b + 3) = False := by simp
    have e3 : (4 * b + 1 = 4 * b + 2) = False := by simp
    have e4 : (4 * b = 4 * b + 3) = False := by simp
    have e5 : (4 * b = 4 * b + 2) = False := by simp
    have e6 : (4 * b = 4 * b + 1) = False := by simp
    simp only [e1, e2, e3, e4, e5, e6, if_false]
    exact word_of_bytes w
  · simp only [Memory.readWord, if_neg h]
    rw [Memory.readByte_writeWord_of_ne _ _ _ _ (by omega), Memory.readByte_writeWord_of_ne _ _ _ _ (by omega),
      Memory.readByte_writeWord_of_ne _ _ _ _ (by omega), Memory.readByte_writeWord_of_ne _ _ _ _ (by omega)]

/-- A block store leaves every byte outside its words alone. -/
theorem Memory.readByte_writeBlock_of_outside (ws : List Word) (m : Memory) (a b : Nat)
    (h : b < 4 * a ∨ 4 * (a + ws.length) ≤ b) : (m.writeBlock a ws).readByte b = m.readByte b := by
  induction ws generalizing m a with
  | nil => rfl
  | cons w ws ih =>
    simp only [List.length_cons] at h
    rw [Memory.writeBlock, ih _ _ (by omega), Memory.readByte_writeWord_of_ne _ _ _ _ (by omega)]

/-- What a block store leaves in every word (R107). -/
theorem Memory.readWord_writeBlock (ws : List Word) (m : Memory) (a b : Nat) :
    (m.writeBlock a ws).readWord b = if h : a ≤ b ∧ b - a < ws.length then ws[b - a]'h.2 else m.readWord b := by
  induction ws generalizing m a with
  | nil => simp [Memory.writeBlock]
  | cons w ws ih =>
    rw [Memory.writeBlock, ih]
    by_cases hab : b = a
    · subst hab; simp
    · by_cases hlt : a ≤ b
      · have e : b - a = (b - (a + 1)) + 1 := by omega
        by_cases hin : b - (a + 1) < ws.length
        · rw [dif_pos ⟨by omega, hin⟩, dif_pos ⟨hlt, by simp; omega⟩]
          simp [e]
        · rw [dif_neg (by omega), dif_neg (by simp; omega)]; simp [hab]
      · rw [dif_neg (by omega), dif_neg (by omega)]; simp [hab]

/-! ## The canonical form is kept -/

theorem Memory.mem_insertByte {c : Host.Cell} {a : Nat} {x : Byte} {m : Memory}
    (h : c ∈ Memory.insertByte a x m) : c = (a, x) ∨ c ∈ m := by
  induction m with
  | nil => simpa [Memory.insertByte] using h
  | cons d rest ih =>
    unfold Memory.insertByte at h
    split_ifs at h with h1 h2
    · simpa using h
    · rcases List.mem_cons.1 h with h | h <;> simp [h]
    · rcases List.mem_cons.1 h with h | h
      · simp [h]
      · rcases ih h with h | h <;> simp [h]

theorem Memory.pairwise_insertByte {m : Memory} (a : Nat) (x : Byte)
    (h : m.Pairwise (fun c c' => c.1 < c'.1)) :
    (Memory.insertByte a x m).Pairwise (fun c c' => c.1 < c'.1) := by
  induction m with
  | nil => simp [Memory.insertByte]
  | cons d rest ih =>
    have hd := List.pairwise_cons.1 h
    unfold Memory.insertByte
    split_ifs with h1 h2
    · refine List.pairwise_cons.2 ⟨fun c hc => ?_, h⟩
      rcases List.mem_cons.1 hc with rfl | hc
      · exact h1
      · exact lt_trans h1 (hd.1 c hc)
    · exact List.pairwise_cons.2 ⟨fun c hc => by rw [h2]; exact hd.1 c hc, hd.2⟩
    · refine List.pairwise_cons.2 ⟨fun c hc => ?_, ih hd.2⟩
      rcases Memory.mem_insertByte hc with rfl | hc
      · simp only; omega
      · exact hd.1 c hc

theorem Memory.wf_writeByte {m : Memory} (h : m.wf) (a : Nat) (x : Byte) : (m.writeByte a x).wf := by
  unfold Memory.writeByte
  split_ifs with hx
  · exact ⟨h.1.filter _, fun c hc => h.2 c (List.mem_filter.1 hc).1⟩
  · refine ⟨Memory.pairwise_insertByte a x h.1, fun c hc => ?_⟩
    rcases Memory.mem_insertByte hc with rfl | hc
    · exact hx
    · exact h.2 c hc

theorem Memory.within_writeByte {m : Memory} {n : Nat} (h : m.within n) (a : Nat) (x : Byte) (ha : a < 4 * n) :
    (m.writeByte a x).within n := by
  intro c hc
  unfold Memory.writeByte at hc
  split_ifs at hc with hx
  · exact h c (List.mem_filter.1 hc).1
  · rcases Memory.mem_insertByte hc with rfl | hc
    · exact ha
    · exact h c hc

theorem Memory.wf_writeWord {m : Memory} (h : m.wf) (a : Nat) (w : Word) : (m.writeWord a w).wf :=
  Memory.wf_writeByte (Memory.wf_writeByte (Memory.wf_writeByte (Memory.wf_writeByte h _ _) _ _) _ _) _ _

theorem Memory.within_writeWord {m : Memory} {n : Nat} (h : m.within n) (a : Nat) (w : Word) (ha : a < n) :
    (m.writeWord a w).within n := by
  unfold Memory.writeWord
  exact Memory.within_writeByte (Memory.within_writeByte (Memory.within_writeByte
    (Memory.within_writeByte h _ _ (by omega)) _ _ (by omega)) _ _ (by omega)) _ _ (by omega)

theorem Memory.wf_writeBlock (ws : List Word) {m : Memory} (h : m.wf) (a : Nat) : (m.writeBlock a ws).wf := by
  induction ws generalizing m a with
  | nil => exact h
  | cons w ws ih => exact ih (Memory.wf_writeWord h a w) (a + 1)

theorem Memory.within_writeBlock (ws : List Word) {m : Memory} {n : Nat} (h : m.within n) (a : Nat)
    (ha : a + ws.length ≤ n) : (m.writeBlock a ws).within n := by
  induction ws generalizing m a with
  | nil => exact h
  | cons w ws ih =>
    simp only [List.length_cons] at ha
    exact ih (Memory.within_writeWord h a w (by omega)) (a + 1) (by omega)

theorem Memory.readByte_of_lt (m : Memory) (a : Nat) (h : ∀ c ∈ m, a < c.1) :
    m.readByte a = Config.unwrittenByte := by
  induction m with
  | nil => rfl
  | cons c rest ih =>
    have hc := h c (by simp)
    rw [Memory.readByte, if_neg (by omega)]
    exact ih fun d hd => h d (by simp [hd])

/-- Equal reads, equal data: a canonical memory is determined by what its bytes read. -/
theorem Memory.eq_of_reads {m m' : Memory} (h : m.wf) (h' : m'.wf) (hr : ∀ a, m.readByte a = m'.readByte a) :
    m = m' := by
  induction m generalizing m' with
  | nil =>
    cases m' with
    | nil => rfl
    | cons c rest =>
      have := hr c.1
      simp only [Memory.readByte, if_true] at this
      exact absurd this.symm (h'.2 c (by simp))
  | cons c rest ih =>
    cases m' with
    | nil =>
      have := hr c.1
      simp only [Memory.readByte, if_true] at this
      exact absurd this (h.2 c (by simp))
    | cons d rest' =>
      obtain ⟨c, x⟩ := c
      obtain ⟨d, y⟩ := d
      have hp := List.pairwise_cons.1 h.1
      have hp' := List.pairwise_cons.1 h'.1
      have hx := h.2 (c, x) (by simp)
      have hy := h'.2 (d, y) (by simp)
      have hc := hr c
      have hd := hr d
      simp only [Memory.readByte, if_true] at hc hd
      have hcd : c = d := by
        rcases Nat.lt_trichotomy c d with hlt | heq | hgt
        · rw [if_neg (by omega), Memory.readByte_of_lt rest' c fun e he => lt_trans hlt (hp'.1 e he)] at hc
          exact absurd hc hx
        · exact heq
        · rw [if_neg (by omega), Memory.readByte_of_lt rest d fun e he => lt_trans hgt (hp.1 e he)] at hd
          exact absurd hd.symm hy
      subst hcd
      have hxy : x = y := by simpa using hc
      have hrest : rest = rest' := by
        refine ih ⟨hp.2, fun e he => h.2 e (by simp [he])⟩ ⟨hp'.2, fun e he => h'.2 e (by simp [he])⟩ fun a => ?_
        by_cases ha : a = c
        · subst ha
          rw [Memory.readByte_of_lt rest a hp.1, Memory.readByte_of_lt rest' a hp'.1]
        · have := hr a
          simpa [Memory.readByte, ha] using this
      rw [hxy, hrest]

end Sys2Proof.Machine
end

