-- ==== Sys2Proof/Laws/Ops.lean ====
section
/-! SUPPORT. What the shared operations can do, said once: how an instruction ends, and when each check raises its
fault (`60_exceptions.md` R313 to R315). -/

namespace Sys2Proof.Machine

open Sys2Proof

/-! ## How an instruction ends -/

@[simp] theorem finish_none (effect : State → State) (s : State) : finish none effect s = .next (effect s) := rfl

@[simp] theorem finish_some (t : Trap) (effect : State → State) (s : State) :
    finish (some t) effect s = .next (takeFault t s) := rfl

/-- If an instruction answers a next state, its fault was taken or its whole effect happened (R315). -/
theorem finish_cases {trap : Option Trap} {effect : State → State} {s t : State}
    (h : finish trap effect s = .next t) :
    (∃ tr, trap = some tr ∧ t = takeFault tr s) ∨ (trap = none ∧ t = effect s) := by
  cases trap with
  | none => exact .inr ⟨rfl, by simpa using h.symm⟩
  | some tr => exact .inl ⟨tr, rfl, by simpa using h.symm⟩

theorem finish_next (trap : Option Trap) (effect : State → State) (s : State) :
    ∃ t, finish trap effect s = .next t := by
  cases trap <;> exact ⟨_, rfl⟩

theorem Trap.code_ne_zero (t : Trap) : t.code ≠ 0 := by cases t <;> simp [Trap.code]

theorem Trap.code_le (t : Trap) : t.code.toNat ≤ 8 := by cases t <;> simp [Trap.code]

/-! ## The checks -/

theorem orderTrap_eq_none_iff (s : State) : orderTrap s = none ↔ 1 ≤ s.p ∧ s.p ≤ 16 := by
  simp only [orderTrap, ite_eq_right_iff, reduceCtorEq, imp_false]; omega

theorem orderTrap_of_illegal {s : State} (h : s.p < 1 ∨ s.p > 16) : orderTrap s = some (.badOrder s.order) := by
  rw [orderTrap, if_pos h]

theorem evenOrderTrap_eq_none_iff (s : State) : evenOrderTrap s = none ↔ 2 ≤ s.p ∧ s.p ≤ 16 ∧ s.p % 2 = 0 := by
  simp only [evenOrderTrap, ite_eq_right_iff, reduceCtorEq, imp_false]; omega

theorem evenOrderTrap_of_illegal {s : State} (h : s.p < 2 ∨ s.p > 16 ∨ s.p % 2 = 1) :
    evenOrderTrap s = some (.badOrder s.order) := by
  rw [evenOrderTrap, if_pos h]

theorem wordTrap_eq_none_iff (a : Nat) : wordTrap a = none ↔ a < Config.dmemWords := by
  simp [wordTrap]

theorem wordTrap_of_illegal {a : Nat} (h : a ≥ Config.dmemWords) : wordTrap a = some (.dmemRange a) := by
  rw [wordTrap, if_pos h]

theorem blockTrap_eq_none_iff (base cnt : Nat) : blockTrap base cnt = none ↔ base + cnt ≤ Config.dmemWords := by
  simp [blockTrap]

theorem blockTrap_of_illegal {base cnt : Nat} (h : base + cnt > Config.dmemWords) :
    blockTrap base cnt = some (.dmemRange (max base Config.dmemWords)) := by
  rw [blockTrap, if_pos h]

theorem stageTrap_eq_none_iff (s : State) (st : StageNo) :
    stageTrap s st = none ↔
      (s.desc st).off + (s.desc st).len ≤ s.p ∧
        (s.desc st).base + (s.desc st).n * (s.desc st).len ≤ Config.tmemWords := by
  simp only [stageTrap]
  split_ifs with h1 h2 <;> simp <;> omega

theorem stageTrap_of_lanes {s : State} {st : StageNo} (h : (s.desc st).off + (s.desc st).len > s.p) :
    stageTrap s st = some (.badParam (3 + 256 * st.val)) := by
  simp only [stageTrap, if_pos h]

theorem stageTrap_of_table {s : State} {st : StageNo} (h : (s.desc st).off + (s.desc st).len ≤ s.p)
    (h' : (s.desc st).base + (s.desc st).n * (s.desc st).len > Config.tmemWords) :
    stageTrap s st = some (.tmemRange ((s.desc st).base + (s.desc st).n * (s.desc st).len - 1)) := by
  simp only [stageTrap, if_neg (Nat.not_lt.2 h), if_pos h']

theorem idxTrap_eq_none_iff (s : State) (st : StageNo) : idxTrap s st = none ↔ s.idxNat st < (s.desc st).n := by
  simp [idxTrap]

theorem idxTrap_of_illegal {s : State} {st : StageNo} (h : s.idxNat st ≥ (s.desc st).n) :
    idxTrap s st = some (.idxRange st s.idx[st]) := by
  rw [idxTrap, if_pos h]

theorem nstgTrap_eq_none_iff (s : State) : nstgTrap s = none ↔ s.nstg.toNat ≤ 8 := by
  simp [nstgTrap]

theorem nstgTrap_of_illegal {s : State} (h : s.nstg.toNat > 8) : nstgTrap s = some (.badParam 4) := by
  rw [nstgTrap, if_pos h]

theorem filterTrap_eq_none_iff (s : State) (rs rd rn : SReg) :
    filterTrap s rs rd rn = none ↔
      (1 ≤ s.p ∧ s.p ≤ 16) ∧ s.regNat rs + s.regNat rn ≤ Config.dmemWords ∧
        s.regNat rd + s.regNat rn ≤ Config.dmemWords := by
  simp only [filterTrap, Option.or_eq_none_iff, orderTrap_eq_none_iff, blockTrap_eq_none_iff]

end Sys2Proof.Machine
end

