-- ==== Sys2Proof/Laws/Filter.lean ====
section
/-! SUPPORT. The laws of the filters: what a shift leaves in each lane, what a run of samples keeps, and that runs
compose (`42_weighting_filters.md` R223 to R225). -/

namespace Sys2Proof.Machine

open Sys2Proof

/-- The filter memory after the newest word is shifted in (R223). -/
theorem getElem_shiftIn (p : Nat) (w : Word) (mem : Lanes) (k : Nat) (hk : k < 16) :
    (shiftIn p w mem)[k] = if k < p then (if k = 0 then w else mem.word (k - 1)) else mem[k] := by
  simp [shiftIn, Lanes.getElem_update]

/-- The memory after one sample keeps its canonical form. -/
theorem wf_filterSample {f : FilterState} (h : f.dmem.wf) (kind : FilterKind) (p : Nat) (coef : Lanes)
    (src dst : Nat) : (filterSample kind p coef src dst f).dmem.wf :=
  Memory.wf_writeWord h _ _

/-- The memory after a run of samples keeps its canonical form. -/
theorem wf_filterRun (kind : FilterKind) (p : Nat) (coef : Lanes) (cnt src dst : Nat) {f : FilterState}
    (h : f.dmem.wf) : (filterRun kind p coef cnt src dst f).dmem.wf := by
  induction cnt generalizing src dst f with
  | zero => exact h
  | succ cnt ih => exact ih _ _ (wf_filterSample h kind p coef src dst)

/-- A run stays inside the memory its destination block lies in. -/
theorem within_filterRun (kind : FilterKind) (p : Nat) (coef : Lanes) {words : Nat} (cnt src dst : Nat)
    {f : FilterState} (h : f.dmem.within words) (hd : dst + cnt ≤ words) :
    (filterRun kind p coef cnt src dst f).dmem.within words := by
  induction cnt generalizing src dst f with
  | zero => exact h
  | succ cnt ih => exact ih _ _ (Memory.within_writeWord h _ _ (by omega)) (by omega)

/-- A run never clears SAT (R47). -/
theorem sat_filterRun (kind : FilterKind) (p : Nat) (coef : Lanes) (cnt src dst : Nat) {f : FilterState}
    (h : f.sat = true) : (filterRun kind p coef cnt src dst f).sat = true := by
  induction cnt generalizing src dst f with
  | zero => exact h
  | succ cnt ih => exact ih _ _ (by simp [filterSample, h])

/-- A run of `n1 + n2` samples is a run of `n1` and then one of `n2` (R225). -/
theorem filterRun_add (kind : FilterKind) (p : Nat) (coef : Lanes) (n1 n2 src dst : Nat) (f : FilterState) :
    filterRun kind p coef (n1 + n2) src dst f =
      filterRun kind p coef n2 (src + n1) (dst + n1) (filterRun kind p coef n1 src dst f) := by
  induction n1 generalizing src dst f with
  | zero => simp [filterRun]
  | succ n1 ih =>
    rw [show n1 + 1 + n2 = (n1 + n2) + 1 by omega, filterRun, ih, filterRun]
    rw [show src + 1 + n1 = src + (n1 + 1) by omega, show dst + 1 + n1 = dst + (n1 + 1) by omega]

/-- The loop of BWX gives one exact product per source lane (R221). -/
@[simp] theorem length_bwxLoop (gamma gp : Word) (lanes : List Word) :
    (bwxLoop gamma gp lanes).1.length = lanes.length := by
  induction lanes generalizing gp with
  | nil => rfl
  | cons a rest ih => simp [bwxLoop, ih]

end Sys2Proof.Machine
end

