-- ==== Sys2Proof/Laws/Vq.lean ====
section
/-! SUPPORT. The laws of the VQ unit: what the search finds, and what one stage of the encoder or the decoder leaves
alone (`41_vector_quantizer.md` R192 to R196). -/

namespace Sys2Proof.Machine

open Sys2Proof

/-! ## The search -/

/-- The search answers the first nearest entry, when so far `best` is the first nearest one below `e` (R193). -/
theorem searchLoop_spec (dist : Nat → Int) (left e best : Nat) (hbest : best < e)
    (hmin : ∀ i < e, dist best ≤ dist i) (hfirst : ∀ i < best, dist best < dist i) :
    searchLoop dist left e best (dist best) < e + left ∧
      (∀ i < e + left, dist (searchLoop dist left e best (dist best)) ≤ dist i) ∧
      ∀ i < searchLoop dist left e best (dist best), dist (searchLoop dist left e best (dist best)) < dist i := by
  induction left generalizing e best with
  | zero => exact ⟨hbest, hmin, hfirst⟩
  | succ left ih =>
    rw [show e + (left + 1) = e + 1 + left by omega]
    simp only [searchLoop]
    split_ifs with h
    · refine ih (e + 1) e (by omega) (fun i hi => ?_) fun i hi => lt_of_lt_of_le h (hmin i hi)
      rcases Nat.lt_succ_iff_lt_or_eq.1 hi with hi | rfl
      · exact le_of_lt (lt_of_lt_of_le h (hmin i hi))
      · exact le_refl _
    · refine ih (e + 1) best (by omega) (fun i hi => ?_) hfirst
      rcases Nat.lt_succ_iff_lt_or_eq.1 hi with hi | rfl
      · exact hmin i hi
      · exact not_lt.1 h

/-- A codebook has an entry (R190). -/
theorem State.desc_n_pos (s : State) (st : StageNo) : 1 ≤ (s.desc st).n := by simp [State.desc]

/-- A codebook has at most 1024 entries (R190). -/
theorem State.desc_n_le (s : State) (st : StageNo) : (s.desc st).n ≤ 1024 := by
  have := (s.sdcfg[st].extractLsb' 0 10).isLt
  simp only [State.desc]; omega

/-- The nearest entry, the lowest index winning a tie (R193). -/
theorem State.search_spec (s : State) (st : StageNo) (x wv : Lanes) :
    s.search (s.desc st) x wv < (s.desc st).n ∧
      (∀ e < (s.desc st).n,
        s.dist (s.desc st) x wv (s.search (s.desc st) x wv) ≤ s.dist (s.desc st) x wv e) ∧
      ∀ e < s.search (s.desc st) x wv,
        s.dist (s.desc st) x wv (s.search (s.desc st) x wv) < s.dist (s.desc st) x wv e := by
  have hn := s.desc_n_pos st
  have h := searchLoop_spec (s.dist (s.desc st) x wv) ((s.desc st).n - 1) 1 0 (by omega)
    (fun i hi => by simp [Nat.lt_one_iff.1 hi]) (fun i hi => absurd hi (by omega))
  rw [show 1 + ((s.desc st).n - 1) = (s.desc st).n by omega] at h
  exact h

/-! ## What a stage leaves alone -/

/-- A field that no stage changes is not changed by a run of stages. -/
theorem foldl_field {α β : Type} (φ : State → α) (f : State → β → State) (h : ∀ s b, φ (f s b) = φ s) (l : List β)
    (s : State) : φ (l.foldl f s) = φ s := by
  induction l generalizing s with
  | nil => rfl
  | cons b l ih => rw [List.foldl_cons, ih, h]

/-- What a stage of the encoder can change: the target register, IDX and SAT (R195). -/
theorem State.encodeStage_eq (vd vw : VReg) (s : State) (st : StageNo) :
    ∃ v sat idx, s.encodeStage vd vw st = { s with v := v, sat := sat, idx := idx } := ⟨_, _, _, rfl⟩

/-- What a stage of the decoder can change: the target register and SAT (R196). -/
theorem State.decodeStage_eq (vd : VReg) (s : State) (st : StageNo) :
    ∃ v sat, s.decodeStage vd st = { s with v := v, sat := sat } := ⟨_, _, rfl⟩

/-- What a run of encoder stages can change (R197). -/
theorem State.foldl_encodeStage_eq (vd vw : VReg) (l : List StageNo) (s : State) :
    ∃ v sat idx, l.foldl (State.encodeStage vd vw) s = { s with v := v, sat := sat, idx := idx } := by
  induction l generalizing s with
  | nil => exact ⟨_, _, _, rfl⟩
  | cons st l ih =>
    obtain ⟨v, sat, idx, h⟩ := ih (s.encodeStage vd vw st)
    exact ⟨v, sat, idx, by rw [List.foldl_cons, h]; rfl⟩

/-- What a run of decoder stages can change (R198). -/
theorem State.foldl_decodeStage_eq (vd : VReg) (l : List StageNo) (s : State) :
    ∃ v sat, l.foldl (State.decodeStage vd) s = { s with v := v, sat := sat } := by
  induction l generalizing s with
  | nil => exact ⟨_, _, rfl⟩
  | cons st l ih =>
    obtain ⟨v, sat, h⟩ := ih (s.decodeStage vd st)
    exact ⟨v, sat, by rw [List.foldl_cons, h]; rfl⟩

@[simp] theorem State.desc_encodeStage (vd vw : VReg) (s : State) (st u : StageNo) :
    (s.encodeStage vd vw st).desc u = s.desc u := rfl

@[simp] theorem State.p_encodeStage (vd vw : VReg) (s : State) (st : StageNo) :
    (s.encodeStage vd vw st).p = s.p := rfl

@[simp] theorem State.desc_decodeStage (vd : VReg) (s : State) (st u : StageNo) :
    (s.decodeStage vd st).desc u = s.desc u := rfl

@[simp] theorem State.idxNat_decodeStage (vd : VReg) (s : State) (st u : StageNo) :
    (s.decodeStage vd st).idxNat u = s.idxNat u := rfl

/-! ## SAT is only added to -/

/-- A run of encoder stages does the same whatever SAT held before, which it keeps set (R197). -/
theorem State.foldl_encodeStage_or_sat (vd vw : VReg) (b : Bool) (l : List StageNo) (s : State) :
    l.foldl (State.encodeStage vd vw) { s with sat := b || s.sat } =
      { l.foldl (State.encodeStage vd vw) s with sat := b || (l.foldl (State.encodeStage vd vw) s).sat } := by
  induction l generalizing s with
  | nil => rfl
  | cons st l ih =>
    rw [List.foldl_cons, List.foldl_cons, ← ih]
    congr 1
    simp only [State.encodeStage, State.setIdx, State.subtractEntry, State.putSatLanes_sat]
    rw [← Bool.or_assoc]
    rfl

/-- A run of decoder stages does the same whatever SAT held before, which it keeps set (R198). -/
theorem State.foldl_decodeStage_or_sat (vd : VReg) (b : Bool) (l : List StageNo) (s : State) :
    l.foldl (State.decodeStage vd) { s with sat := b || s.sat } =
      { l.foldl (State.decodeStage vd) s with sat := b || (l.foldl (State.decodeStage vd) s).sat } := by
  induction l generalizing s with
  | nil => rfl
  | cons st l ih =>
    rw [List.foldl_cons, List.foldl_cons, ← ih]
    congr 1
    simp only [State.decodeStage, State.addEntry, State.putSatLanes_sat]
    rw [← Bool.or_assoc]
    rfl

/-- A stage check depends on ORDER and the descriptors alone (R191). -/
theorem stageTrap_congr {s t : State} {st : StageNo} (hp : t.order = s.order) (hb : t.sdbase = s.sdbase)
    (hc : t.sdcfg = s.sdcfg) : stageTrap t st = stageTrap s st := by
  cases s
  cases t
  simp only at hp hb hc
  subst hp hb hc
  rfl

end Sys2Proof.Machine
end

