-- ==== Sys2Proof/Laws/Exec.lean ====
section
/-! SUPPORT. What any instruction can change, said once over the whole dispatch: its fault was taken, or it completed
and left alone everything that no instruction writes (`60_exceptions.md` R314, R315, `44_sequencer_scalar.md` R255). -/

namespace Sys2Proof.Machine

open Sys2Proof

/-- What no instruction writes except by taking a fault: IMEM, TMEM, HERR, the fault registers, the model's own fields;
STATE is written by HALT alone. -/
structure EngineFrame (i : Instr) (s t : State) : Prop where
  imem : t.imem = s.imem
  tmem : t.tmem = s.tmem
  herr : t.herr = s.herr
  fcause : t.fcause = s.fcause
  fpc : t.fpc = s.fpc
  finfo : t.finfo = s.finfo
  turns : t.turns = s.turns
  hrdata : t.hrdata = s.hrdata
  state : t.state = if i = .halt then .halted else s.state

/-- A state that differs in the other fields alone is within the frame. -/
theorem EngineFrame.of_eq {i : Instr} {s t : State} (hi : i ≠ .halt)
    (h : ∃ r v synmem pc rf sat mf ien entry order grid cdelta rootcnt wnum woff nstg sdbase sdcfg idx dmem,
      t = { s with
        r := r, v := v, synmem := synmem, pc := pc, rf := rf, sat := sat, mf := mf, ien := ien, entry := entry
        order := order, grid := grid, cdelta := cdelta, rootcnt := rootcnt, wnum := wnum, woff := woff, nstg := nstg
        sdbase := sdbase, sdcfg := sdcfg, idx := idx, dmem := dmem }) : EngineFrame i s t := by
  obtain ⟨_, _, _, _, _, _, _, _, _, _, _, _, _, _, _, _, _, _, _, _, rfl⟩ := h
  exact ⟨rfl, rfl, rfl, rfl, rfl, rfl, rfl, rfl, (if_neg hi).symm⟩

theorem State.putRoots_eq (vd : VReg) (roots : List Nat) (s : State) :
    ∃ v, s.putRoots vd roots =
      { s with v := v, rootcnt := BitVec.ofNat 5 roots.length, rf := decide (roots.length ≠ s.p) } := by
  unfold State.putRoots
  split_ifs
  · exact ⟨_, rfl⟩
  · exact ⟨_, rfl⟩

/-- An instruction takes its fault on the state as it was, or completes within its frame. -/
theorem exec_frame {i : Instr} {s t : State} (h : exec i s = .next t) :
    (∃ tr, t = takeFault tr s) ∨ EngineFrame i s t := by
  cases i
  case csrr rd csr =>
    simp only [exec, execCsrr] at h
    split at h <;> obtain ⟨tr, -, rfl⟩ | ⟨-, rfl⟩ := finish_cases h <;>
      first
      | exact .inl ⟨_, rfl⟩
      | exact .inr (.of_eq (by simp) ⟨_, _, _, _, _, _, _, _, _, _, _, _, _, _, _, _, _, _, _, _, rfl⟩)
  case csrw rs csr =>
    simp only [exec, execCsrw] at h
    split at h <;> obtain ⟨tr, -, rfl⟩ | ⟨-, rfl⟩ := finish_cases h <;>
      first
      | exact .inl ⟨_, rfl⟩
      | exact .inr ⟨by simp, by simp, by simp, by simp, by simp, by simp, by simp, by simp, by simp⟩
  all_goals
    dsimp only [exec, execNop, execHalt, execLi, execLih, execAddi, execAdd, execSub, execMulq, execBra, execBnz,
      execBz, execBfs, execBfc, execLdw, execStw, execVld, execVst, execVmov, execVzero, execVadd, execVsub,
      execVlerp, execSynrd, execSynwr, execLsproot, execLsppoly, execLspmrg, execVqw, execVqs, execVqa,
      execVqenc, execVqdec, execBwx, execFir, execIir, execSyn] at h
  case halt =>
    obtain ⟨tr, -, rfl⟩ | ⟨-, rfl⟩ := finish_cases h
    · exact .inl ⟨_, rfl⟩
    · exact .inr ⟨rfl, rfl, rfl, rfl, rfl, rfl, rfl, rfl, rfl⟩
  case lsproot vd va =>
    obtain ⟨tr, -, rfl⟩ | ⟨-, rfl⟩ := finish_cases h
    · exact .inl ⟨_, rfl⟩
    · obtain ⟨v, e⟩ := State.putRoots_eq vd (s.lspRoots va) s
      rw [e]
      exact .inr (.of_eq (by simp) ⟨_, _, _, _, _, _, _, _, _, _, _, _, _, _, _, _, _, _, _, _, rfl⟩)
  case vqenc vd vw =>
    obtain ⟨tr, -, rfl⟩ | ⟨-, rfl⟩ := finish_cases h
    · exact .inl ⟨_, rfl⟩
    · obtain ⟨v, sat, idx, e⟩ := State.foldl_encodeStage_eq vd vw s.stages s
      rw [e]
      exact .inr (.of_eq (by simp) ⟨_, _, _, _, _, _, _, _, _, _, _, _, _, _, _, _, _, _, _, _, rfl⟩)
  case vqdec vd =>
    obtain ⟨tr, -, rfl⟩ | ⟨-, rfl⟩ := finish_cases h
    · exact .inl ⟨_, rfl⟩
    · obtain ⟨v, sat, e⟩ := State.foldl_decodeStage_eq vd s.stages (s.putLanes vd 0 s.p fun _ => 0)
      rw [e]
      exact .inr (.of_eq (by simp) ⟨_, _, _, _, _, _, _, _, _, _, _, _, _, _, _, _, _, _, _, _, rfl⟩)
  case bnz rs imm =>
    obtain ⟨tr, -, rfl⟩ | ⟨-, rfl⟩ := finish_cases h
    · exact .inl ⟨_, rfl⟩
    · split_ifs <;> exact .inr (.of_eq (by simp) ⟨_, _, _, _, _, _, _, _, _, _, _, _, _, _, _, _, _, _, _, _, rfl⟩)
  case bz rs imm =>
    obtain ⟨tr, -, rfl⟩ | ⟨-, rfl⟩ := finish_cases h
    · exact .inl ⟨_, rfl⟩
    · split_ifs <;> exact .inr (.of_eq (by simp) ⟨_, _, _, _, _, _, _, _, _, _, _, _, _, _, _, _, _, _, _, _, rfl⟩)
  case bfs flag imm =>
    obtain ⟨tr, -, rfl⟩ | ⟨-, rfl⟩ := finish_cases h
    · exact .inl ⟨_, rfl⟩
    · split_ifs <;> exact .inr (.of_eq (by simp) ⟨_, _, _, _, _, _, _, _, _, _, _, _, _, _, _, _, _, _, _, _, rfl⟩)
  case bfc flag imm =>
    obtain ⟨tr, -, rfl⟩ | ⟨-, rfl⟩ := finish_cases h
    · exact .inl ⟨_, rfl⟩
    · split_ifs <;> exact .inr (.of_eq (by simp) ⟨_, _, _, _, _, _, _, _, _, _, _, _, _, _, _, _, _, _, _, _, rfl⟩)
  all_goals
    obtain ⟨tr, -, rfl⟩ | ⟨-, rfl⟩ := finish_cases h
    · exact .inl ⟨_, rfl⟩
    · exact .inr (.of_eq (by simp) ⟨_, _, _, _, _, _, _, _, _, _, _, _, _, _, _, _, _, _, _, _, rfl⟩)

end Sys2Proof.Machine
end

