-- ==== Sys2Proof/Laws/Lsp.lean ====
section
/-! SUPPORT. The laws of the LSP unit: the ranges of the cosine, the model's polynomials as the rules' recurrences, what
bisection and the cell walk can answer, the degrees of the expanded polynomials, and what the two walks of LSPMRG
leave (`40_lsp_transform.md` R160 to R168). -/

namespace Sys2Proof.Machine

open Sys2Proof

/-! ## The cosine (R160) -/

theorem clampAngle_range (t : Int) : 0 ≤ clampAngle t ∧ clampAngle t ≤ 65536 := by
  unfold clampAngle; split_ifs <;> omega

theorem clampAngle_of_range {t : Int} (h0 : 0 ≤ t) (h1 : t ≤ 65536) : clampAngle t = t := by
  unfold clampAngle; split_ifs <;> omega

/-! ## The two polynomials (R161, R162) -/

/-- The model's half-coefficients are those of `PQcoefs` (R161). -/
theorem halfCoefficientsRule (a : Nat → Int) (p : Nat) :
    HalfCoefficientsRule a p (symCoef a p) (antiCoef a p) := ⟨rfl, rfl, fun _ _ => ⟨rfl, rfl⟩⟩

/-- The loop of `Eval` adds the terms that are left (R162). -/
theorem evalLoop_eq (x : Int) (c : Nat → Int) (n i : Nat) (acc : Int) :
    evalLoop x ((List.range n).reverse.map c) (chebyshev x i) (chebyshev x (i + 1)) acc =
      acc + ∑ j ∈ Finset.range n, 2 * c (n - (j + 1)) * chebyshev x (i + 2 + j) := by
  induction n generalizing i acc with
  | zero => simp [evalLoop]
  | succ n ih =>
    rw [List.range_succ, List.reverse_append, List.reverse_singleton, List.singleton_append, List.map_cons, evalLoop,
      show rnd16 (2 * x * chebyshev x (i + 1)) - chebyshev x i = chebyshev x (i + 1 + 1) from rfl, ih,
      Finset.sum_range_succ', add_assoc]
    congr 1
    rw [add_comm]
    congr 1
    exact Finset.sum_congr rfl fun j _ => by
      rw [show n + 1 - (j + 1 + 1) = n - (j + 1) by omega, show i + 2 + (j + 1) = i + 1 + 2 + j by omega]

/-- The model's `Eval` is the value of the polynomial (R162). -/
theorem evalPoly_halfCoefs (c : Nat → Int) (m t : Nat) : evalPoly (halfCoefs c m) t = polynomialValue c m t := by
  cases m with
  | zero => simp [halfCoefs, evalPoly, polynomialValue]
  | succ m =>
    have h := evalLoop_eq (cosfx t) c m 0 (c (m + 1) * 65536 + 2 * c m * cosfx t)
    rw [halfCoefs, List.range_succ, List.range_succ, List.append_assoc, List.reverse_append, polynomialValue,
      Finset.sum_range_succ']
    refine h.trans ?_
    rw [add_assoc, add_right_inj, add_comm]
    congr 1
    exact Finset.sum_congr rfl fun j _ => by
      rw [show m + 1 - (j + 1 + 1) = m - (j + 1) by omega, show 0 + 2 + j = j + 1 + 1 by omega]

/-- Equal signs in the model are the rule's (R162). -/
theorem neg_eq_neg_iff (c : Nat → Int) (m t u : Nat) :
    neg (evalPoly (halfCoefs c m) t) = neg (evalPoly (halfCoefs c m) u) ↔ SameSign c m t u := by
  rw [evalPoly_halfCoefs, evalPoly_halfCoefs, neg, neg, decide_eq_decide]

/-! ## Sign-change search (R162 to R165) -/

/-- A grid point is at most pi (R163). -/
theorem gridPoint_le {g k : Nat} (hg : 1 ≤ g) (hk : k ≤ g) : gridPoint g k ≤ 65536 := by
  unfold gridPoint
  calc k * 65536 / g ≤ g * 65536 / g := Nat.div_le_div_right (Nat.mul_le_mul_right _ hk)
    _ = 65536 := Nat.mul_div_cancel_left _ hg

/-- The grid points rise strictly, at most 1024 cells dividing 65536 angles (R163). -/
theorem gridPoint_lt {g k : Nat} (hg : 1 ≤ g) (hg' : g ≤ 1024) : gridPoint g k < gridPoint g (k + 1) := by
  unfold gridPoint
  have h : k * 65536 / g + 1 = (k * 65536 + g) / g := (Nat.add_div_right _ hg).symm
  have h' : (k * 65536 + g) / g ≤ (k + 1) * 65536 / g := Nat.div_le_div_right (by omega)
  omega

/-- What bisection answers: an interval inside the cell, not empty, across which the sign still changes; and no wider
than the bound once the halvings suffice (R164, R165). -/
theorem bisect_spec (coefs : List Int) (delta fuel lo hi : Nat) (hd : 1 ≤ delta) (hlt : lo < hi)
    (hw : hi - lo ≤ 2 ^ fuel) (hsign : neg (evalPoly coefs lo) ≠ neg (evalPoly coefs hi)) :
    lo ≤ (bisect coefs delta fuel lo hi (evalPoly coefs lo)).1 ∧
      (bisect coefs delta fuel lo hi (evalPoly coefs lo)).1 < (bisect coefs delta fuel lo hi (evalPoly coefs lo)).2 ∧
      (bisect coefs delta fuel lo hi (evalPoly coefs lo)).2 ≤ hi ∧
      (bisect coefs delta fuel lo hi (evalPoly coefs lo)).2 - (bisect coefs delta fuel lo hi (evalPoly coefs lo)).1
        ≤ delta ∧
      neg (evalPoly coefs (bisect coefs delta fuel lo hi (evalPoly coefs lo)).1) ≠
        neg (evalPoly coefs (bisect coefs delta fuel lo hi (evalPoly coefs lo)).2) := by
  induction fuel generalizing lo hi with
  | zero => exact ⟨le_refl _, hlt, le_refl _, by simp only [bisect]; omega, hsign⟩
  | succ fuel ih =>
    rw [Nat.pow_succ] at hw
    simp only [bisect]
    by_cases h : hi - lo > delta
    · rw [if_pos h]
      by_cases hs : neg (evalPoly coefs ((lo + hi) / 2 : Nat)) = neg (evalPoly coefs lo)
      · rw [if_pos hs]
        obtain ⟨h1, h2, h3, h4⟩ := ih ((lo + hi) / 2) hi (by omega) (by omega) (hs ▸ hsign)
        exact ⟨by omega, h2, h3, h4⟩
      · rw [if_neg hs]
        obtain ⟨h1, h2, h3, h4⟩ := ih lo ((lo + hi) / 2) (by omega) (by omega) (Ne.symm hs)
        exact ⟨h1, h2, by omega, h4⟩
    · rw [if_neg h]
      exact ⟨le_refl _, hlt, le_refl _, by simpa using h, hsign⟩

/-- One halving before a bisection of the half that is kept (R164). -/
theorem BisectionRule.halve {c : Nat → Int} {m left right left' right' root : Nat} {delta : Int} (hlt : left < right)
    (hw : (right : Int) - left > delta)
    (hkeep : (SameSign c m ((left + right) / 2) left → left' = (left + right) / 2 ∧ right' = right) ∧
      (¬ SameSign c m ((left + right) / 2) left → left' = left ∧ right' = (left + right) / 2))
    (h : BisectionRule c m delta left' right' root) : BisectionRule c m delta left right root := by
  obtain ⟨n, lo, hi, h0, h0', hstep, h1, h2, h3, h4⟩ := h
  have hin : left ≤ left' ∧ right' ≤ right := by
    by_cases hs : SameSign c m ((left + right) / 2) left
    · obtain ⟨rfl, rfl⟩ := hkeep.1 hs; omega
    · obtain ⟨rfl, rfl⟩ := hkeep.2 hs; omega
  refine ⟨n + 1, fun | 0 => left | i + 1 => lo i, fun | 0 => right | i + 1 => hi i, rfl, rfl, ?_,
    hin.1.trans h1, h2, h3.trans hin.2, h4⟩
  rintro (_ | i) hi'
  · exact ⟨hw, fun hs => by simpa only [h0, h0'] using hkeep.1 hs, fun hs => by simpa only [h0, h0'] using hkeep.2 hs⟩
  · exact hstep i (by omega)

/-- Bisection answers as the rule says, its fuel never used up (R164). -/
theorem bisectionRule (c : Nat → Int) (m delta fuel lo hi : Nat) (hd : 1 ≤ delta) (hlt : lo < hi)
    (hw : hi - lo ≤ 2 ^ fuel) (hsign : ¬ SameSign c m lo hi) :
    BisectionRule c m delta lo hi
      (((bisect (halfCoefs c m) delta fuel lo hi (evalPoly (halfCoefs c m) lo)).1 +
        (bisect (halfCoefs c m) delta fuel lo hi (evalPoly (halfCoefs c m) lo)).2) / 2) := by
  have done {lo hi : Nat} (hlt : lo < hi) (hw : (hi : Int) - lo ≤ delta) (hsign : ¬ SameSign c m lo hi) :
      BisectionRule c m delta lo hi ((lo + hi) / 2) :=
    ⟨0, fun _ => lo, fun _ => hi, rfl, rfl, fun i h => absurd h i.not_lt_zero, le_rfl, hlt, le_rfl, hw, hsign, rfl⟩
  induction fuel generalizing lo hi with
  | zero => exact done hlt (by omega) hsign
  | succ fuel ih =>
    rw [Nat.pow_succ] at hw
    simp only [bisect]
    by_cases h : hi - lo > delta
    · rw [if_pos h]
      by_cases hs : SameSign c m ((lo + hi) / 2) lo
      · rw [if_pos ((neg_eq_neg_iff c m _ _).2 hs)]
        exact (ih ((lo + hi) / 2) hi (by omega) (by omega) (fun h => hsign (hs.symm.trans h))).halve hlt (by omega)
          ⟨fun _ => ⟨rfl, rfl⟩, fun h => absurd hs h⟩
      · rw [if_neg (fun h => hs ((neg_eq_neg_iff c m _ _).1 h))]
        exact (ih lo ((lo + hi) / 2) (by omega) (by omega) (fun h => hs h.symm)).halve hlt (by omega)
          ⟨fun h => absurd h hs, fun _ => ⟨rfl, rfl⟩⟩
    · rw [if_neg h]
      exact done hlt (by omega) hsign

/-- The walk over the cells stops at the first whose ends differ in sign and reports the root bisected there (R164). -/
theorem findRoot_some {coefs : List Int} {g delta left k tl root cell : Nat}
    (h : findRoot coefs g delta left k tl (evalPoly coefs tl) = some (root, cell)) :
    k ≤ cell ∧ cell < k + left ∧
      (∀ i, k ≤ i → i < cell → neg (evalPoly coefs tl) = neg (evalPoly coefs (gridPoint g i))) ∧
      neg (evalPoly coefs tl) ≠ neg (evalPoly coefs (gridPoint g cell)) ∧
      ∃ l, l = (if cell = k then tl else gridPoint g (cell - 1)) ∧
        root = rootOf coefs delta l (gridPoint g cell) (evalPoly coefs l) := by
  induction left generalizing k tl with
  | zero => simp [findRoot] at h
  | succ left ih =>
    rw [findRoot] at h
    split_ifs at h with hs
    · obtain ⟨rfl, rfl⟩ := Prod.mk.inj (Option.some.inj h)
      exact ⟨le_rfl, by omega, fun i h1 h2 => absurd h1 (by omega), hs, _, rfl, by rw [if_pos rfl]⟩
    · rw [ne_eq, not_not] at hs
      obtain ⟨h1, h2, h3, h4, l, hl, hr⟩ := ih h
      refine ⟨by omega, by omega, fun i hi hi' => ?_, fun e => h4 (hs.symm.trans e), l, ?_, hr⟩
      · rcases eq_or_lt_of_le hi with rfl | hi
        · exact hs
        · exact hs.trans (h3 i hi hi')
      · rw [hl, if_neg (show cell ≠ k by omega)]
        split_ifs with hc
        · rw [hc, Nat.add_sub_cancel]
        · rfl

/-- The walk over the cells ends without a root only where no sign change is left (R164). -/
theorem findRoot_none {coefs : List Int} {g delta left k tl : Nat}
    (h : findRoot coefs g delta left k tl (evalPoly coefs tl) = none) {i : Nat} (h1 : k ≤ i) (h2 : i < k + left) :
    neg (evalPoly coefs tl) = neg (evalPoly coefs (gridPoint g i)) := by
  induction left generalizing k tl with
  | zero => omega
  | succ left ih =>
    rw [findRoot] at h
    split_ifs at h with hs
    rw [ne_eq, not_not] at hs
    rcases eq_or_lt_of_le h1 with rfl | h1
    · exact hs
    · exact hs.trans (ih h h1 (by omega))

/-- The search for `todo` roots finds at most that many (R164). -/
theorem length_findRoots_le (g delta todo : Nat) (next other : List Int) (tl k : Nat) :
    (findRoots g delta todo next other tl k).length ≤ todo := by
  induction todo generalizing next other tl k with
  | zero => simp [findRoots]
  | succ todo ih =>
    simp only [findRoots]
    split
    · simp
    · simpa using ih _ _ _ _

/-! ## Expansion (R166) -/

@[simp] theorem length_expandStep (poly : List Int) (x : Int) : (expandStep poly x).length = poly.length := by
  simp [expandStep]

theorem length_foldl_expandStep (xs poly : List Int) : (xs.foldl expandStep poly).length = poly.length := by
  induction xs generalizing poly with
  | nil => rfl
  | cons x xs ih => rw [List.foldl_cons, ih, length_expandStep]

@[simp] theorem length_expand (p : Nat) (xs : List Int) : (expand p xs).length = p + 1 := by
  simp [expand, length_foldl_expandStep]

/-- One coefficient of one more factor (R166). -/
theorem getD_expandStep (poly : List Int) (x : Int) {k : Nat} (h : k < poly.length) :
    (expandStep poly x).getD k 0 =
      poly.getD k 0 - (if k ≥ 1 then rnd16 (2 * x * poly.getD (k - 1) 0) else 0)
        + (if k ≥ 2 then poly.getD (k - 2) 0 else 0) := by
  simp [expandStep, h]

/-- The model's expanded polynomials are those of `Expand` (R166). -/
theorem exists_expansionRule (x : Nat → Int) (m p : Nat) :
    ∃ poly, ExpansionRule x m poly ∧
      ∀ n, n ≤ m → ∀ k, k ≤ p → poly n k = (expand p ((List.range n).map x)).getD k 0 := by
  let poly : Nat → Nat → Int := fun n => n.rec (fun k => if k = 0 then 65536 else 0) fun n c k =>
    c k - (if 1 ≤ k then rounded (2 * x n * c (k - 1)) else 0) + if 2 ≤ k then c (k - 2) else 0
  refine ⟨poly, ⟨fun _ => rfl, fun _ _ _ => rfl⟩, fun n => ?_⟩
  induction n with
  | zero =>
    rintro - (_ | k) -
    · rfl
    · simp [poly, expand, List.getD, List.getElem?_replicate]
      split_ifs <;> rfl
  | succ n ih =>
    intro hn k hk
    rw [expand, List.range_succ, List.map_append, List.foldl_append]
    change _ = (expandStep (expand p ((List.range n).map x)) (x n)).getD k 0
    rw [getD_expandStep _ _ (by rw [length_expand]; omega), ← ih (by omega) k hk, ← ih (by omega) (k - 1) (by omega),
      ← ih (by omega) (k - 2) (by omega)]
    rfl

/-! ## The two walks (R167) -/

@[simp] theorem length_upwardWalk (m lo : Int) (xs : List Int) : (upwardWalk m lo xs).length = xs.length := by
  induction xs generalizing lo with
  | nil => rfl
  | cons x xs ih => simp [upwardWalk, ih]

@[simp] theorem length_downwardWalk (m hi : Int) (xs : List Int) : (downwardWalk m hi xs).length = xs.length := by
  induction xs generalizing hi with
  | nil => rfl
  | cons x xs ih => simp [downwardWalk, ih]

@[simp] theorem length_enforceMargin (m : Int) (xs : List Int) : (enforceMargin m xs).length = xs.length := by
  simp [enforceMargin]

/-- What the upward walk leaves in each lane (R167). -/
theorem getD_upwardWalk (m lo : Int) (xs : List Int) {k : Nat} (hk : k < xs.length) :
    (upwardWalk m lo xs).getD k 0 =
      max (xs.getD k 0) (if k = 0 then lo else (upwardWalk m lo xs).getD (k - 1) 0 + m) := by
  induction xs generalizing lo k with
  | nil => simp at hk
  | cons x xs ih =>
    rw [upwardWalk]
    rcases k with _ | k
    · simp only [List.getD_cons_zero, if_true]; split_ifs <;> omega
    · have h := ih ((if x < lo then lo else x) + m) (k := k) (by simpa using hk)
      rcases k with _ | k <;> simpa using h

/-- What the downward walk leaves in each lane, counted from the last (R167). -/
theorem getD_downwardWalk (m hi : Int) (xs : List Int) {k : Nat} (hk : k < xs.length) :
    (downwardWalk m hi xs).getD k 0 =
      min (xs.getD k 0) (if k = 0 then hi else (downwardWalk m hi xs).getD (k - 1) 0 - m) := by
  induction xs generalizing hi k with
  | nil => simp at hk
  | cons x xs ih =>
    rw [downwardWalk]
    rcases k with _ | k
    · simp only [List.getD_cons_zero, if_true]; split_ifs <;> omega
    · have h := ih ((if x > hi then hi else x) - m) (k := k) (by simpa using hk)
      rcases k with _ | k <;> simpa using h

theorem getD_reverse_of_lt (l : List Int) {k : Nat} (h : k < l.length) :
    l.reverse.getD k 0 = l.getD (l.length - 1 - k) 0 := by
  rw [List.getD_eq_getElem _ _ (by simpa using h), List.getD_eq_getElem _ _ (by omega), List.getElem_reverse]

/-- What both walks leave in each lane: the least of what the upward walk left and what the next lane allows (R167). -/
theorem getD_enforceMargin (m : Int) (xs : List Int) {k : Nat} (hk : k < xs.length) :
    (enforceMargin m xs).getD k 0 = min ((upwardWalk m m xs).getD k 0)
      (if k + 1 < xs.length then (enforceMargin m xs).getD (k + 1) 0 - m else 65536 - m) := by
  unfold enforceMargin
  rw [getD_reverse_of_lt _ (by simpa using hk), getD_downwardWalk _ _ _ (by simp; omega),
    getD_reverse_of_lt _ (by simp; omega)]
  simp only [length_downwardWalk, List.length_reverse, length_upwardWalk]
  congr 1
  · rw [show xs.length - 1 - (xs.length - 1 - k) = k by omega]
  · by_cases h : k + 1 < xs.length
    · rw [if_neg (by omega), if_pos h, getD_reverse_of_lt _ (by simpa using h)]
      simp only [length_downwardWalk, List.length_reverse, length_upwardWalk]
      rw [show xs.length - 1 - k - 1 = xs.length - 1 - (k + 1) by omega]
    · rw [if_pos (by omega), if_neg h]

end Sys2Proof.Machine
end

