-- ==== Sys2Proof/Laws/PerInstr.lean ====
section
/-! SUPPORT. One lemma per instruction about its syntax: its encoded word is a word of its own row of the opcode map
(`30_encoding.md` R134, R136). -/

namespace Sys2Proof.Laws.MatchesItsRow

open Sys2Proof

/-- The encoded word of the instruction passes the test of exactly one row of the opcode map. -/
def Statement (i : Instr) : Prop :=
  wellFormedWord (encode i) = true ∧
    ∃ row ∈ opcodeMap, ∀ row' ∈ opcodeMap, row'.matches (encode i) = true → row' = row

theorem of_row {i : Instr} (row : Row) (hmem : row ∈ opcodeMap) (ho : fieldOp (encode i) = row.op)
    (hr : encode i &&& row.format.reserved = 0) : Statement i :=
  ⟨wellFormedWord_of_row hmem ho hr, row, hmem, fun row' hmem' h =>
    opcodeMap_op_injective row' hmem' row hmem ((((Row.matches_eq_true_iff row' _).1 h).1).symm.trans ho)⟩

theorem nop : Statement .nop :=
  of_row ⟨"NOP", 0x00, .z⟩ (by decide) (fieldOp_encodeZ ..) (reserved_encodeZ ..)

theorem halt : Statement .halt :=
  of_row ⟨"HALT", 0x01, .z⟩ (by decide) (fieldOp_encodeZ ..) (reserved_encodeZ ..)

theorem li (rd : Fin 8) (imm : BitVec 16) : Statement (.li rd imm) :=
  of_row ⟨"LI", 0x02, .i⟩ (by decide) (fieldOp_encodeI ..) (reserved_encodeI ..)

theorem lih (rd : Fin 8) (imm : BitVec 16) : Statement (.lih rd imm) :=
  of_row ⟨"LIH", 0x03, .i⟩ (by decide) (fieldOp_encodeI ..) (reserved_encodeI ..)

theorem addi (rd ra : Fin 8) (imm : BitVec 16) : Statement (.addi rd ra imm) :=
  of_row ⟨"ADDI", 0x04, .m⟩ (by decide) (fieldOp_encodeM ..) (reserved_encodeM ..)

theorem add (rd ra rb : Fin 8) : Statement (.add rd ra rb) :=
  of_row ⟨"ADD", 0x05, .r3⟩ (by decide) (fieldOp_encodeR3 ..) (reserved_encodeR3 ..)

theorem sub (rd ra rb : Fin 8) : Statement (.sub rd ra rb) :=
  of_row ⟨"SUB", 0x06, .r3⟩ (by decide) (fieldOp_encodeR3 ..) (reserved_encodeR3 ..)

theorem mulq (rd ra rb : Fin 8) : Statement (.mulq rd ra rb) :=
  of_row ⟨"MULQ", 0x07, .r3⟩ (by decide) (fieldOp_encodeR3 ..) (reserved_encodeR3 ..)

theorem bra (imm : BitVec 16) : Statement (.bra imm) :=
  of_row ⟨"BRA", 0x08, .j⟩ (by decide) (fieldOp_encodeJ ..) (reserved_encodeJ ..)

theorem bnz (rs : Fin 8) (imm : BitVec 16) : Statement (.bnz rs imm) :=
  of_row ⟨"BNZ", 0x09, .i⟩ (by decide) (fieldOp_encodeI ..) (reserved_encodeI ..)

theorem bz (rs : Fin 8) (imm : BitVec 16) : Statement (.bz rs imm) :=
  of_row ⟨"BZ", 0x0A, .i⟩ (by decide) (fieldOp_encodeI ..) (reserved_encodeI ..)

theorem bfs (flag : Fin 8) (imm : BitVec 16) : Statement (.bfs flag imm) :=
  of_row ⟨"BFS", 0x0B, .i⟩ (by decide) (fieldOp_encodeI ..) (reserved_encodeI ..)

theorem bfc (flag : Fin 8) (imm : BitVec 16) : Statement (.bfc flag imm) :=
  of_row ⟨"BFC", 0x0C, .i⟩ (by decide) (fieldOp_encodeI ..) (reserved_encodeI ..)

theorem csrr (rd : Fin 8) (csr : BitVec 8) : Statement (.csrr rd csr) :=
  of_row ⟨"CSRR", 0x0D, .k⟩ (by decide) (fieldOp_encodeK ..) (reserved_encodeK ..)

theorem csrw (rs : Fin 8) (csr : BitVec 8) : Statement (.csrw rs csr) :=
  of_row ⟨"CSRW", 0x0E, .k⟩ (by decide) (fieldOp_encodeK ..) (reserved_encodeK ..)

theorem ldw (rd ra : Fin 8) (imm : BitVec 16) : Statement (.ldw rd ra imm) :=
  of_row ⟨"LDW", 0x10, .m⟩ (by decide) (fieldOp_encodeM ..) (reserved_encodeM ..)

theorem stw (rs ra : Fin 8) (imm : BitVec 16) : Statement (.stw rs ra imm) :=
  of_row ⟨"STW", 0x11, .m⟩ (by decide) (fieldOp_encodeM ..) (reserved_encodeM ..)

theorem vld (vd ra : Fin 8) : Statement (.vld vd ra) :=
  of_row ⟨"VLD", 0x12, .r2⟩ (by decide) (fieldOp_encodeR2 ..) (reserved_encodeR2 ..)

theorem vst (vs ra : Fin 8) : Statement (.vst vs ra) :=
  of_row ⟨"VST", 0x13, .r2⟩ (by decide) (fieldOp_encodeR2 ..) (reserved_encodeR2 ..)

theorem vmov (vd va : Fin 8) : Statement (.vmov vd va) :=
  of_row ⟨"VMOV", 0x14, .r2⟩ (by decide) (fieldOp_encodeR2 ..) (reserved_encodeR2 ..)

theorem vzero (vd : Fin 8) : Statement (.vzero vd) :=
  of_row ⟨"VZERO", 0x15, .r1⟩ (by decide) (fieldOp_encodeR1 ..) (reserved_encodeR1 ..)

theorem vadd (vd va vb : Fin 8) : Statement (.vadd vd va vb) :=
  of_row ⟨"VADD", 0x16, .r3⟩ (by decide) (fieldOp_encodeR3 ..) (reserved_encodeR3 ..)

theorem vsub (vd va vb : Fin 8) : Statement (.vsub vd va vb) :=
  of_row ⟨"VSUB", 0x17, .r3⟩ (by decide) (fieldOp_encodeR3 ..) (reserved_encodeR3 ..)

theorem vlerp (vd va vb rw : Fin 8) : Statement (.vlerp vd va vb rw) :=
  of_row ⟨"VLERP", 0x18, .r4⟩ (by decide) (fieldOp_encodeR4 ..) (reserved_encodeR4 ..)

theorem synrd (vd : Fin 8) : Statement (.synrd vd) :=
  of_row ⟨"SYNRD", 0x19, .r1⟩ (by decide) (fieldOp_encodeR1 ..) (reserved_encodeR1 ..)

theorem synwr (vs : Fin 8) : Statement (.synwr vs) :=
  of_row ⟨"SYNWR", 0x1A, .r1⟩ (by decide) (fieldOp_encodeR1 ..) (reserved_encodeR1 ..)

theorem lsproot (vd va : Fin 8) : Statement (.lsproot vd va) :=
  of_row ⟨"LSPROOT", 0x20, .r2⟩ (by decide) (fieldOp_encodeR2 ..) (reserved_encodeR2 ..)

theorem lsppoly (vd va : Fin 8) : Statement (.lsppoly vd va) :=
  of_row ⟨"LSPPOLY", 0x21, .r2⟩ (by decide) (fieldOp_encodeR2 ..) (reserved_encodeR2 ..)

theorem lspmrg (vd rm : Fin 8) : Statement (.lspmrg vd rm) :=
  of_row ⟨"LSPMRG", 0x22, .r2⟩ (by decide) (fieldOp_encodeR2 ..) (reserved_encodeR2 ..)

theorem vqw (vd va : Fin 8) : Statement (.vqw vd va) :=
  of_row ⟨"VQW", 0x28, .r2⟩ (by decide) (fieldOp_encodeR2 ..) (reserved_encodeR2 ..)

theorem vqs (vd vw stage : Fin 8) : Statement (.vqs vd vw stage) :=
  of_row ⟨"VQS", 0x29, .r3⟩ (by decide) (fieldOp_encodeR3 ..) (reserved_encodeR3 ..)

theorem vqa (vd stage : Fin 8) : Statement (.vqa vd stage) :=
  of_row ⟨"VQA", 0x2A, .r2⟩ (by decide) (fieldOp_encodeR2 ..) (reserved_encodeR2 ..)

theorem vqenc (vd vw : Fin 8) : Statement (.vqenc vd vw) :=
  of_row ⟨"VQENC", 0x2B, .r2⟩ (by decide) (fieldOp_encodeR2 ..) (reserved_encodeR2 ..)

theorem vqdec (vd : Fin 8) : Statement (.vqdec vd) :=
  of_row ⟨"VQDEC", 0x2C, .r1⟩ (by decide) (fieldOp_encodeR1 ..) (reserved_encodeR1 ..)

theorem bwx (vd va rg : Fin 8) : Statement (.bwx vd va rg) :=
  of_row ⟨"BWX", 0x30, .r3⟩ (by decide) (fieldOp_encodeR3 ..) (reserved_encodeR3 ..)

theorem fir (vm vc rs rd rn : Fin 8) : Statement (.fir vm vc rs rd rn) :=
  of_row ⟨"FIR", 0x31, .r5⟩ (by decide) (fieldOp_encodeR5 ..) (reserved_encodeR5 ..)

theorem iir (vm vc rs rd rn : Fin 8) : Statement (.iir vm vc rs rd rn) :=
  of_row ⟨"IIR", 0x32, .r5⟩ (by decide) (fieldOp_encodeR5 ..) (reserved_encodeR5 ..)

theorem syn (vc rs rd rn : Fin 8) : Statement (.syn vc rs rd rn) :=
  of_row ⟨"SYN", 0x33, .r4⟩ (by decide) (fieldOp_encodeR4 ..) (reserved_encodeR4 ..)

end Sys2Proof.Laws.MatchesItsRow
end

