-- ==== Sys2Proof/Laws/Step.lean ====
section
/-! SUPPORT. The laws of the step: whose step it is, what fetch and decode hand to it, and what the host's CTRL commands
leave alone (`00_scope.md` R14, `44_sequencer_scalar.md` R255, `60_exceptions.md` R328). -/

namespace Sys2Proof.Machine

open Sys2Proof

@[simp] theorem State.turnTaken_state (s : State) : s.turnTaken.state = s.state := rfl
@[simp] theorem State.turnTaken_pc (s : State) : s.turnTaken.pc = s.pc := rfl
@[simp] theorem State.turnTaken_imem (s : State) : s.turnTaken.imem = s.imem := rfl
@[simp] theorem State.turnTaken_dmem (s : State) : s.turnTaken.dmem = s.dmem := rfl
@[simp] theorem State.turnTaken_tmem (s : State) : s.turnTaken.tmem = s.tmem := rfl

theorem State.turnTaken_of_nil {s : State} (h : s.turns = []) : s.turnTaken = s := by
  cases s; cases h; rfl

/-- A step in the engine's turn is `EngineStep` (R14, R255). -/
theorem step_of_engineNext {s : State} (h : s.EngineNext) : step s = engineStep s.turnTaken := by
  rcases h with h | ⟨rest, h⟩
  · rw [State.turnTaken_of_nil h, step, h]
  · rw [step, h, State.turnTaken, h, List.tail_cons]

/-- A step that is not the engine's is one host operation (R14). -/
theorem step_of_not_engineNext {s : State} (h : ¬ s.EngineNext) :
    ∃ op, step s = .next (hostStep op s.turnTaken) := by
  cases ht : s.turns with
  | nil => exact absurd (.inl ht) h
  | cons turn rest =>
    cases turn with
    | engine => exact absurd (.inr ⟨rest, ht⟩) h
    | host op => exact ⟨op, by rw [step, ht, State.turnTaken, ht, List.tail_cons]⟩

/-- Fetch and decode hand over the instruction of a legal word (R255). -/
theorem fetchInstr_of_decode {s : State} {i : Instr} (hp : s.pc.toNat < Config.imemWords)
    (h : decode (s.imem.readWord s.pc.toNat) = .ok i) : fetchInstr s = .ok i := by
  simp only [fetchInstr, fetchWord, if_neg (Nat.not_le.2 hp), h]

/-- An engine that is not RUNNING rests (R255). -/
theorem engineStep_of_not_running {s : State} (h : s.state ≠ .running) : engineStep s = .next s := by
  rw [engineStep, if_neg h]

/-- An engine step takes a fault on the state as it was, runs an instruction within its frame, or rests. -/
theorem engineStep_cases {s t : State} (h : engineStep s = .next t) :
    (s.state = .running ∧ ((∃ tr, t = takeFault tr s) ∨ ∃ i, exec i s = .next t ∧ EngineFrame i s t)) ∨
      (s.state ≠ .running ∧ t = s) := by
  unfold engineStep at h
  split_ifs at h with hs
  · refine .inl ⟨hs, ?_⟩
    split at h
    · exact .inl ⟨_, by injection h with h; exact h.symm⟩
    · rcases exec_frame h with hf | hf
      · exact .inl hf
      · exact .inr ⟨_, h, hf⟩
  · exact .inr ⟨hs, by injection h with h; exact h.symm⟩

/-- What the CTRL commands can change short of SRST: PC, STATE, HERR and the fault registers (R328). -/
theorem ctrlWrite_eq (v : Word) (s : State) :
    ctrlWrite v s = s.resetRegisters ∨
      ∃ pc state herr fcause fpc finfo,
        ctrlWrite v s =
          { s with pc := pc, state := state, herr := herr, fcause := fcause, fpc := fpc, finfo := finfo } := by
  unfold ctrlWrite
  by_cases h3 : v.getLsbD 3 = true
  · rw [if_pos h3]; exact .inl rfl
  · rw [if_neg h3]
    refine .inr ?_
    simp only [ctrlAbort, ctrlClr, ctrlStart, recordFault, clearRun]
    split_ifs <;> exact ⟨_, _, _, _, _, _, rfl⟩

end Sys2Proof.Machine
end

