-- ==== Sys2Proof/Tests/Slice0.lean ====
section
/-! SUPPORT. Tests against the spec's own vectors (`95_test_vectors.md`; every expected value is that file's), the smoke
test of the word check, and for each statement with hypotheses a witness that meets them, clause by clause. -/

namespace Sys2Proof.Tests

set_option Elab.async false

open Sys2Proof Sys2Proof.Machine

/-! ## Helpers -/

/-- Sixteen lanes that begin with the listed integers. -/
def lanes (l : List Int) : Lanes := Vector.ofFn fun k : Fin 16 => BitVec.ofInt 32 (l.getD k.val 0)

/-- The first `n` lanes of `V[i]`. -/
def vecOf (s : State) (i : VReg) (n : Nat) : List Int := (List.range n).map (s.laneInt i)

/-- The words of a memory from `a` on. -/
def wordsOf (m : Memory) (a n : Nat) : List Int := (List.range n).map fun k => (m.readWord (a + k)).toInt

/-- A memory with the listed integers from word `a` on. -/
def store (m : Memory) (a : Nat) (l : List Int) : Memory := m.writeBlock a (l.map (BitVec.ofInt 32))

/-- The start of a vector: the word at IMEM[100], PC = 100, the engine running. -/
def at100 (w : Nat) (s : State) : State :=
  { s with pc := 100, state := .running, imem := s.imem.writeWord 100 (BitVec.ofNat 32 w) }

/-- One step, and a look at the state after it. -/
def look {α : Type} (s : State) (f : State → α) : Option α :=
  match step s with
  | .next t => some (f t)
  | .fault _ => none
  | .refused _ => none

/-- The fault registers and PC, for a step that faults. -/
def faultOf (t : State) : Option (Nat × Nat × Nat × Nat) :=
  if t.state = .faulted then some (t.fcause.toNat, t.fpc.toNat, t.finfo.toNat, t.pc.toNat) else none

/-- One host operation, and a look at the state after it. -/
def hostLook {α : Type} (op : HostOp) (s : State) (f : State → α) : Option α :=
  look { s with turns := [.host op] } f

def flagsOf (t : State) : Nat := t.flagsWord.toNat
def regOf (i : SReg) (t : State) : Int := (t.reg i).toInt
def z : State := State.reset
def withReg (i : SReg) (v : Int) (s : State) : State := s.setReg i (BitVec.ofInt 32 v)
def withVec (i : VReg) (l : List Int) (s : State) : State := s.setVec i (lanes l)
def order (n : Nat) (s : State) : State := { s with order := BitVec.ofNat 5 n }

/-- The configuration of T26. -/
def quantizer : State :=
  { order 4 (withVec 1 [5242, 5242, 916, 1154] z) with
    nstg := 3
    sdbase := #v[0, 16, 20, 0, 0, 0, 0, 0]
    sdcfg := #v[0x10C003, 0x0C4001, 0x0C4801, 0, 0, 0, 0, 0]
    tmem := store (store [] 0
      [8000, 16000, 24000, 32000, 10000, 20000, 40000, 50000, 9000, 12000, 30000, 52000, 20000, 30000, 40000, 60000])
      16 [-500, -500, 600, 400, -1000, 1500, 1200, -900] }

/-- The set-up of T31. -/
def filtering (src dst cnt : Int) : State :=
  { withReg 1 src (withReg 2 dst (withReg 3 cnt (order 2 (withVec 1 [-58982, 26214] z)))) with
    dmem := store [] 0x100 [1000, 0, 0, 0, -2000, 500] }

/-- The set-up of T33. -/
def synthesis : State :=
  { withReg 1 0x300 (withReg 2 0x320 (withReg 3 4 (order 4 (withVec 3 [-23971, -7200, -3223, 5739] z)))) with
    dmem := store [] 0x300 [1000, 0, 0, -500] }

/-! ## Decoding: the words of T5 -/

theorem test_decode_sequencer :
    decode 0x00000000 = .ok .nop ∧ decode 0x04000000 = .ok .halt ∧ decode 0x08808000 = .ok (.li 1 0x8000) ∧
    decode 0x0E80FFFF = .ok (.lih 5 0xFFFF) ∧ decode 0x10A0FFFF = .ok (.addi 1 2 0xFFFF) ∧
    decode 0x14A60000 = .ok (.add 1 2 3) ∧ decode 0x18B40000 = .ok (.sub 1 3 2) ∧
    decode 0x1CA60000 = .ok (.mulq 1 2 3) ∧ decode 0x2000FF9B = .ok (.bra 0xFF9B) ∧
    decode 0x2600FFF7 = .ok (.bnz 4 0xFFF7) ∧ decode 0x2A000005 = .ok (.bz 4 5) ∧
    decode 0x2C800002 = .ok (.bfs 1 2) ∧ decode 0x30000003 = .ok (.bfc 0 3) ∧
    decode 0x34800006 = .ok (.csrr 1 0x06) ∧ decode 0x3900000A = .ok (.csrw 2 0x0A) := by decide +kernel

theorem test_decode_vector_memory :
    decode 0x40200004 = .ok (.ldw 0 2 4) ∧ decode 0x44A00000 = .ok (.stw 1 2 0) ∧ decode 0x48100000 = .ok (.vld 0 1) ∧
    decode 0x4D100000 = .ok (.vst 2 1) ∧ decode 0x50100000 = .ok (.vmov 0 1) ∧ decode 0x54800000 = .ok (.vzero 1) ∧
    decode 0x59940000 = .ok (.vadd 3 1 2) ∧ decode 0x5DA20000 = .ok (.vsub 3 2 1) ∧
    decode 0x61034000 = .ok (.vlerp 2 0 1 5) ∧ decode 0x65000000 = .ok (.synrd 2) ∧
    decode 0x69000000 = .ok (.synwr 2) := by decide +kernel

theorem test_decode_units :
    decode 0x80800000 = .ok (.lsproot 1 0) ∧ decode 0x84800000 = .ok (.lsppoly 1 0) ∧
    decode 0x88C00000 = .ok (.lspmrg 1 4) ∧ decode 0xA0800000 = .ok (.vqw 1 0) ∧ decode 0xA4120000 = .ok (.vqs 0 1 1) ∧
    decode 0xA9A00000 = .ok (.vqa 3 2) ∧ decode 0xAC100000 = .ok (.vqenc 0 1) ∧ decode 0xB1800000 = .ok (.vqdec 3) ∧
    decode 0xC0820000 = .ok (.bwx 1 0 1) ∧ decode 0xC4129800 = .ok (.fir 0 1 1 2 3) ∧
    decode 0xC8129800 = .ok (.iir 0 1 1 2 3) ∧ decode 0xCD94C000 = .ok (.syn 3 1 2 3) := by decide +kernel

/-- The match words of R134's table. -/
theorem test_opcode_map_patterns :
    opcodeMap.map Row.pattern =
      [0x00000000, 0x04000000, 0x08000000, 0x0C000000, 0x10000000, 0x14000000, 0x18000000, 0x1C000000,
      0x20000000, 0x24000000, 0x28000000, 0x2C000000, 0x30000000, 0x34000000, 0x38000000, 0x40000000,
      0x44000000, 0x48000000, 0x4C000000, 0x50000000, 0x54000000, 0x58000000, 0x5C000000, 0x60000000,
      0x64000000, 0x68000000, 0x80000000, 0x84000000, 0x88000000, 0xA0000000, 0xA4000000, 0xA8000000,
      0xAC000000, 0xB0000000, 0xC0000000, 0xC4000000, 0xC8000000, 0xCC000000] := by
  decide +kernel

/-- The masks: a 1 at every op bit and every reserved bit of the format (R136). -/
theorem test_opcode_map_masks :
    opcodeMap.map Row.mask =
      [0xFFFFFFFF, 0xFFFFFFFF, 0xFC7F0000, 0xFC7F0000, 0xFC0F0000, 0xFC01FFFF, 0xFC01FFFF, 0xFC01FFFF,
      0xFFFF0000, 0xFC7F0000, 0xFC7F0000, 0xFC7F0000, 0xFC7F0000, 0xFC7FFF00, 0xFC7FFF00, 0xFC0F0000,
      0xFC0F0000, 0xFC0FFFFF, 0xFC0FFFFF, 0xFC0FFFFF, 0xFC7FFFFF, 0xFC01FFFF, 0xFC01FFFF, 0xFC003FFF,
      0xFC7FFFFF, 0xFC7FFFFF, 0xFC0FFFFF, 0xFC0FFFFF, 0xFC0FFFFF, 0xFC0FFFFF, 0xFC01FFFF, 0xFC0FFFFF,
      0xFC0FFFFF, 0xFC7FFFFF, 0xFC01FFFF, 0xFC0007FF, 0xFC0007FF, 0xFC003FFF] := by
  decide +kernel

/-- The smoke test of the word check: a reserved opcode, and for each of the ten formats a word with a reserved bit
set (T6 and R132), is no instruction. -/
theorem test_ill_formed_words_are_refused :
    ([0x3C000000, 0xFFFFFFFF, 0x00000001, 0x06000000, 0x08810005, 0x34800106, 0x48900001, 0xCC926000, 0xC4924C00,
      0x20010001, 0x10A10000, 0x54C00000, 0x14A10000] : List Word).map wellFormedWord = List.replicate 13 false := by
  decide +kernel

theorem test_ill_formed_words_do_not_decode :
    decode 0x3C000000 = .error (.reservedOpcode 0x0F) ∧ decode 0xFFFFFFFF = .error (.reservedOpcode 0x3F) ∧
    decode 0x00000001 = .error (.reservedBits .z) ∧ decode 0x06000000 = .error (.reservedBits .z) ∧
    decode 0x54C00000 = .error (.reservedBits .r1) ∧ decode 0x48900001 = .error (.reservedBits .r2) ∧
    decode 0x14A10000 = .error (.reservedBits .r3) ∧ decode 0xCC926000 = .error (.reservedBits .r4) ∧
    decode 0xC4924C00 = .error (.reservedBits .r5) ∧ decode 0x20010001 = .error (.reservedBits .j) ∧
    decode 0x08810005 = .error (.reservedBits .i) ∧ decode 0x10A10000 = .error (.reservedBits .m) ∧
    decode 0x34800106 = .error (.reservedBits .k) := by decide +kernel

/-- T6: FCAUSE, FPC, FINFO and PC of a run into an illegal word; T35: also with ORDER = 0. -/
theorem test_illegal_word_faults :
    look (at100 0x34800106 z) faultOf = some (some (1, 100, 0x34800106, 100)) ∧
    look (at100 0x48900001 z) faultOf = some (some (1, 100, 0x48900001, 100)) := by decide +kernel

/-- T7 (a) and (c). -/
theorem test_fetch_outside_imem :
    look { z with pc := 1024, state := .running } faultOf = some (some (2, 1024, 1024, 1024)) ∧
    look (at100 0x2000FF9A z) (·.pc) = some 65535 := by decide +kernel

/-! ## Primitives: T1 to T4 -/

theorem test_saturate :
    sat32 2147483648 = 0x7FFFFFFF ∧ clamps 2147483648 = true ∧ clamps 2147483647 = false ∧
    sat32 (-2147483649) = 0x80000000 ∧ clamps (-2147483649) = true ∧ clamps (-2147483648) = false := by decide

theorem test_round :
    [0, 32767, 32768, -32768, -32769, 98304, -98304, 360448].map rnd16 = [0, 0, 1, 0, -1, 2, -1, 6] := by decide

theorem test_cosine :
    [-5, 0, 81, 82, 8192, 16384, 21845, 32767, 32768, 32769, 49152, 57344, 65535, 70000].map cosfx =
      [65536, 65536, 65536, 65535, 60547, 46341, 32769, 3, 0, -3, -46341, -60547, -65536, -65536] := by decide +kernel

/-! ## Sequencer and scalar instructions: T8 to T14 -/

theorem test_nop : look (at100 0x00000000 z) (fun t => (t.pc, t.state)) = some (101, .running) := by decide +kernel

theorem test_halt : look (at100 0x04000000 z) (fun t => (t.pc, t.state)) = some (100, .halted) := by decide +kernel

theorem test_li : look (at100 0x08808000 z) (regOf 1) = some (-32768) := by decide +kernel

theorem test_lih : look (at100 0x0E80FFFF (withReg 5 0x1234 z)) (regOf 5) = some (-60876) := by decide +kernel

theorem test_addi_wraps :
    look (at100 0x10A00001 (withReg 2 2147483647 z)) (fun t => (regOf 1 t, flagsOf t)) = some (-2147483648, 0) := by
  decide +kernel

theorem test_add_wraps :
    look (at100 0x14A60000 (withReg 2 (-2147483648) (withReg 3 (-1) z))) (regOf 1) = some 2147483647 := by
  decide +kernel

theorem test_sub_wraps :
    look (at100 0x18B40000 (withReg 2 (-2147483648) (withReg 3 (-1) z))) (regOf 1) = some 2147483647 := by
  decide +kernel

theorem test_mulq :
    look (at100 0x1CA60000 (withReg 2 58982 (withReg 3 58982 z))) (fun t => (regOf 1 t, flagsOf t)) = some (53083, 0) ∧
    look (at100 0x1CA60000 (withReg 2 (-2147483648) (withReg 3 (-2147483648) z))) (fun t => (regOf 1 t, flagsOf t)) =
      some (2147483647, 2) := by decide +kernel

theorem test_bra :
    look (at100 0x2000FF9B z) (·.pc) = some 0 ∧ look (at100 0x20007FFF z) (·.pc) = some 32868 := by decide +kernel

theorem test_bnz :
    look (at100 0x2600FFF7 (withReg 4 1 z)) (·.pc) = some 92 ∧ look (at100 0x2600FFF7 z) (·.pc) = some 101 := by
  decide +kernel

theorem test_bz :
    look (at100 0x2A000005 (withReg 4 1 z)) (·.pc) = some 101 ∧ look (at100 0x2A000005 z) (·.pc) = some 106 := by
  decide +kernel

/-- FLAGS = 2, and index 5 with FLAGS = 7. -/
theorem test_bfs :
    look (at100 0x2C800002 { z with sat := true }) (·.pc) = some 103 ∧
    look (at100 0x2E800003 { z with rf := true, sat := true, mf := true }) (·.pc) = some 101 := by decide +kernel

theorem test_bfc :
    look (at100 0x30000003 { z with rf := true }) (·.pc) = some 101 ∧
    look (at100 0x32800003 { z with rf := true, sat := true, mf := true }) (·.pc) = some 104 := by decide +kernel

theorem test_csrr :
    look (at100 0x34800006 z) (regOf 1) = some 100 ∧ look (at100 0x34800002 { z with herr := true }) (regOf 1) = some 17 ∧
    look (at100 0x34800013 z) faultOf = some (some (7, 100, 19, 100)) := by decide +kernel

/-- The packed index of T13, each index cut to its IBITS. -/
theorem test_csrr_cidx :
    look (at100 0x34800011 { quantizer with idx := #v[3, 0, 1, 0, 0, 0, 0, 0] }) (regOf 1) = some 13 ∧
    look (at100 0x34800011 { quantizer with idx := #v[1023, 1023, 0, 0, 0, 0, 0, 0] }) (regOf 1) = some 14 := by
  decide +kernel

theorem test_csrw :
    look (at100 0x3900000A (withReg 2 (-1) z)) (·.order) = some 31 ∧
    look (at100 0x39000028 (withReg 2 (-1) z)) (fun t => t.sdcfg[0]) = some 0x7FFFFF ∧
    look (at100 0x39000001 (withReg 2 (-1) z)) faultOf = some (some (7, 100, 1, 100)) := by decide +kernel

/-- The last lane of V1 and the last word of SYNMEM. -/
theorem test_csrw_lane_and_synmem :
    look (at100 0x3900009F (withReg 2 77 z)) (fun t => t.laneInt 1 15) = some 77 ∧
    look (at100 0x3900004F (withReg 2 77 z)) (fun t => t.synmem.int 15) = some 77 := by decide +kernel

/-! ## Memory and vector moves: T15 to T18, T33 (e) -/

theorem test_ldw :
    look (at100 0x40200004 { withReg 2 528 z with dmem := store [] 532 [11] }) (regOf 0) = some 11 ∧
    look (at100 0x4020FFFF z) faultOf = some (some (3, 100, 4294967295, 100)) := by decide +kernel

theorem test_stw :
    look (at100 0x44A00000 (withReg 2 4095 (withReg 1 (-7) z))) (fun t => t.dmem.readWord 4095) = some 0xFFFFFFF9 ∧
    look (at100 0x44A00001 (withReg 2 4095 (withReg 1 (-7) z))) faultOf = some (some (3, 100, 4096, 100)) := by
  decide +kernel

theorem test_vld :
    look (at100 0x48100000 (order 4 (withReg 1 5000 z))) faultOf = some (some (3, 100, 5000, 100)) ∧
    look (at100 0x48100000 { order 2 (withReg 1 4094 (withVec 0 [9, 9, 9] z)) with dmem := store [] 4094 [5, 6] })
      (vecOf · 0 3) = some [5, 6, 9] := by decide +kernel

theorem test_vst :
    look (at100 0x4D100000 (order 4 (withReg 1 4092 (withVec 2 [1, 2, 3, 4, 99] z)))) (fun t => wordsOf t.dmem 4092 5) =
      some [1, 2, 3, 4, 0] := by decide +kernel

theorem test_vmov :
    look (at100 0x50100000 (order 2 (withVec 0 [1, 2, 3] (withVec 1 [7, 8, 9] z)))) (vecOf · 0 3) = some [7, 8, 3] := by
  decide +kernel

theorem test_vzero :
    look (at100 0x54800000 (order 2 (withVec 1 [7, 8, 9] z))) (vecOf · 1 3) = some [0, 0, 9] := by decide +kernel

theorem test_vadd :
    look (at100 0x59940000 (order 3 (withVec 1 [2147483647, 5, -2147483648, 9] (withVec 2 [1, 6, -1, 9] z))))
      (fun t => (vecOf t 3 4, flagsOf t)) = some ([2147483647, 11, -2147483648, 0], 2) := by decide +kernel

theorem test_vsub :
    look (at100 0x5DA20000 (order 3 (withVec 1 [2147483647, 5, -2147483648, 9] (withVec 2 [1, 6, -1, 9] z))))
      (fun t => (vecOf t 3 4, flagsOf t)) = some ([-2147483646, 1, 2147483647, 0], 0) := by decide +kernel

theorem test_vlerp :
    look (at100 0x61034000 (order 4 (withReg 5 16384
      (withVec 0 [9000, 20000, 36000, 52000] (withVec 1 [11000, 24000, 40000, 50000] z))))) (vecOf · 2 4) =
      some [9500, 21000, 37000, 51500] := by decide +kernel

theorem test_synrd :
    look (at100 0x65000000 { order 3 (withVec 2 [1, 1, 1, 1] z) with synmem := lanes [5, 6, 7, 8] }) (vecOf · 2 4) =
      some [5, 6, 7, 1] := by decide +kernel

theorem test_synwr :
    look (at100 0x69000000 { order 3 (withVec 2 [1, 2, 3, 4] z) with synmem := lanes [5, 6, 7, 8] })
      (fun t => (List.range 4).map t.synmem.int) = some [1, 2, 3, 8] := by decide +kernel

/-! ## The LSP unit: T19 to T24 -/

/-- T20, GRID = 128 and CDELTA = 4. -/
theorem test_lsproot :
    look (at100 0x80800000 { order 10 (withVec 0 [-29653, -8012, -993, -603, 1345, 1065, 1813, 1395, 1461, 891] z) with
        grid := 128, cdelta := 4 }) (fun t => (vecOf t 1 10, t.rootcnt, t.rf)) =
      some ([5214, 9386, 15646, 21902, 28162, 34418, 40678, 46938, 53194, 59454], 10, false) := by decide +kernel

/-- T20, GRID = 4: two roots, nothing written. -/
theorem test_lsproot_short :
    look (at100 0x80800000 { order 10 (withVec 0 [-29653, -8012, -993, -603, 1345, 1065, 1813, 1395, 1461, 891] z) with
        grid := 4, cdelta := 4 }) (fun t => (vecOf t 1 10, t.rootcnt, t.rf)) =
      some ([0, 0, 0, 0, 0, 0, 0, 0, 0, 0], 2, true) := by decide +kernel

theorem test_lsppoly :
    look (at100 0x84800000
        (order 10 (withVec 0 [5215, 9387, 15645, 21903, 28162, 34420, 40678, 46936, 53194, 59453] z)))
      (fun t => (vecOf t 1 10, flagsOf t)) =
      some ([-29653, -8012, -993, -603, 1345, 1065, 1813, 1395, 1461, 891], 0) := by decide +kernel

theorem test_lspmrg :
    look (at100 0x88C00000 (order 4 (withReg 4 655 (withVec 1 [100, 90, 30000, 65600] z))))
      (fun t => (vecOf t 1 4, t.mf)) = some ([655, 1310, 30000, 64881], true) ∧
    look (at100 0x88C00000 (order 2 (withReg 4 1 (withVec 1 [-2147483648, 2147483647] z))))
      (fun t => (vecOf t 1 2, t.mf)) = some ([1, 65535], true) := by decide +kernel

theorem test_lspmrg_margin :
    look (at100 0x88C00000 (order 4 (withReg 4 13107 z))) (vecOf · 1 4) = some [13107, 26214, 39321, 52428] ∧
    look (at100 0x88C00000 (order 4 (withReg 4 13108 z))) faultOf = some (some (6, 100, 2, 100)) := by decide +kernel

/-! ## The VQ unit: T25 to T29 -/

theorem test_vqw :
    look (at100 0xA0800000 { order 4 (withVec 0 [8000, 9000, 30000, 50000] z) with wnum := 16777216, woff := 2621 })
      (vecOf · 1 4) = some [4633, 4633, 741, 924] ∧
    look (at100 0xA0800000 { order 1 (withVec 0 [30000] z) with wnum := 16777216, woff := 0xFFFFFFFF }) (vecOf · 1 1) =
      some [559] := by decide +kernel

theorem test_vqs :
    look (at100 0xA4120000 (withVec 0 [500, 700, 1000, -1000] quantizer)) (fun t => (vecOf t 0 4, t.idx[1])) =
      some ([-100, 300, 1000, -1000], 1) := by decide +kernel

/-- T28 (a): a tie goes to the lowest entry; (b) the difference is clamped to 18 bits, the subtraction is not. -/
theorem test_vqs_corners :
    look (at100 0xA4100000 { order 2 (withVec 0 [20, 20] z) with
        sdbase := #v[100, 0, 0, 0, 0, 0, 0, 0], sdcfg := #v[0x4001, 0, 0, 0, 0, 0, 0, 0]
        tmem := store [] 100 [10, 10, 30, 30] }) (fun t => (vecOf t 0 2, t.idx[0])) = some ([10, 10], 0) ∧
    look (at100 0xA4100000 { order 1 (withVec 0 [2000000] z) with
        sdcfg := #v[1, 0, 0, 0, 0, 0, 0, 0], tmem := store [] 0 [-2000000, 0] }) (fun t => (vecOf t 0 1, t.idx[0])) =
      some ([4000000], 0) := by decide +kernel

theorem test_vqa :
    look (at100 0xA9800000 { quantizer with idx := #v[2, 1, 1, 0, 0, 0, 0, 0] }) (vecOf · 3 4) =
      some [9000, 12000, 30000, 52000] := by decide +kernel

theorem test_vqenc :
    look (at100 0xAC100000 (withVec 0 [9500, 12700, 31000, 51000] quantizer)) (fun t => (vecOf t 0 4, t.idx)) =
      some ([-100, 300, -200, -100], #v[2, 1, 1, 0, 0, 0, 0, 0]) := by decide +kernel

/-- T29 (d): stage 0 is checked wholly before stage 1. -/
theorem test_vqenc_fault_order :
    look (at100 0xAC100000 { order 4 z with
        nstg := 2, sdbase := #v[4090, 0, 0, 0, 0, 0, 0, 0], sdcfg := #v[0xC003, 0x4C00, 0, 0, 0, 0, 0, 0] }) faultOf =
      some (some (4, 100, 4105, 100)) ∧
    look (at100 0xAC100000 { order 4 z with nstg := 2, sdcfg := #v[0xC003, 0x4C00, 0, 0, 0, 0, 0, 0] }) faultOf =
      some (some (6, 100, 259, 100)) := by decide +kernel

theorem test_vqdec :
    look (at100 0xB1800000 { withVec 3 [7, 7, 7, 7, 7] quantizer with idx := #v[2, 1, 1, 0, 0, 0, 0, 0] })
      (vecOf · 3 5) = some [9600, 12400, 31200, 51100, 7] := by decide +kernel

/-- T29 (f): the index is checked before the destination is cleared. -/
theorem test_vqdec_bad_index :
    look (at100 0xB1800000 { withVec 3 [1, 2, 3, 4] quantizer with idx := #v[2, 5, 1, 0, 0, 0, 0, 0] })
      (fun t => (faultOf t, vecOf t 3 4)) = some (some (8, 100, 65541, 100), [1, 2, 3, 4]) := by decide +kernel

/-! ## The filters: T30 to T34 -/

theorem test_bwx :
    look (at100 0xC0820000 (order 4 (withReg 1 58982 (withVec 0 [-29653, -8012, -993, -603] z))))
      (fun t => (vecOf t 1 4, flagsOf t)) = some ([-26688, -6490, -724, -396], 0) := by decide +kernel

/-- The power beyond the last lane clamps and is discarded: SAT is set all the same. -/
theorem test_bwx_discarded_power :
    look (at100 0xC0820000 (order 2 (withReg 1 16777216 (withVec 0 [1, 1, 1, 1] (withVec 1 [1, 1, 1, 1] z)))))
      (fun t => (vecOf t 1 4, flagsOf t)) = some ([256, 32768, 1, 1], 2) := by decide +kernel

theorem test_fir :
    look (at100 0xC4129800 (filtering 0x100 0x110 6)) (fun t => (wordsOf t.dmem 0x110 6, vecOf t 0 2)) =
      some ([1000, -900, 400, 0, -2000, 2300], [500, -2000]) := by decide +kernel

/-- T32 (c): each result overwrites the next input before it is read. -/
theorem test_fir_overlap :
    look (at100 0xC4129800 (filtering 0x100 0x101 6)) (fun t => (wordsOf t.dmem 0x100 7, vecOf t 0 2)) =
      some ([1000, 1000, 100, -400, -90, 310, 231], [310, -90]) := by decide +kernel

theorem test_iir :
    look (at100 0xC8129800 (filtering 0x100 0x110 6)) (fun t => (wordsOf t.dmem 0x110 6, vecOf t 0 2)) =
      some ([1000, 900, 410, 9, -2156, -1444], [-1444, -2156]) := by decide +kernel

/-- T32 (b): the memory register is also the coefficients, of which a snapshot is taken. -/
theorem test_iir_snapshot :
    look (at100 0xC8929800 (filtering 0x100 0x110 6)) (fun t => (wordsOf t.dmem 0x110 6, vecOf t 1 2)) =
      some ([-62569, -32719, -4420, 9109, 7966, 4026], [4026, 7966]) := by decide +kernel

theorem test_syn :
    look (at100 0xCD94C000 synthesis) (fun t => (wordsOf t.dmem 0x320 4, (List.range 5).map t.synmem.int)) =
      some ([1000, 366, 244, -321], [-321, 244, 366, 1000, 0]) := by decide +kernel

/-- T34: an empty block at the end of DMEM is legal, one beyond it is not. -/
theorem test_syn_range :
    look (at100 0xCD94C000 (withReg 3 0 (withReg 1 4096 synthesis))) (·.pc) = some 101 ∧
    look (at100 0xCD94C000 (withReg 3 0 (withReg 1 4097 synthesis))) faultOf = some (some (3, 100, 4097, 100)) := by
  decide +kernel

/-! ## The host: T36 to T39 -/

/-- T36 steps 3 to 6 and 9. -/
theorem test_run_control :
    hostLook (.hwrite 0x0401 1) (at100 0 z) (fun t => (t.state, t.herr)) = some (.running, true) ∧
    hostLook (.hwrite 0x0401 4) (at100 0 z) faultOf = some (some (15, 100, 0, 100)) ∧
    hostLook (.hwrite 0x0401 1) { z with state := .faulted, fcause := 1 } (fun t => (t.state, t.herr)) =
      some (.faulted, true) ∧
    hostLook (.hwrite 0x0401 2) { z with state := .faulted, fcause := 1, herr := true } id = some z ∧
    hostLook (.hwrite 0x0401 7) { at100 0 z with entry := 5 } (fun t => (t.state, t.pc, t.fcause, t.herr)) =
      some (.running, 5, 0, false) := by decide +kernel

/-- T37, in IDLE. -/
theorem test_host_access :
    hostLook (.hread 0x0400) z (·.hrdata) = some 0x4C535031 ∧
    hostLook (.hwrite 0x040A 0xFFFFFFFF) z (·.order) = some 31 ∧
    hostLook (.hwrite 0x0406 9) z (fun t => (t.pc, t.herr)) = some (0, true) ∧
    hostLook (.hread 0x0413) z (fun t => (t.hrdata, t.herr)) = some (0, true) ∧
    hostLook (.hwrite 0x1000 0xFFFFFE0C) z (fun t => t.tmem.readWord 0) = some 0xFFFFFE0C ∧
    hostLook (.hwrite 0x04A3 7) z (fun t => t.laneInt 2 3) = some 7 := by decide +kernel

/-- T37, while RUNNING. -/
theorem test_host_access_running :
    hostLook (.hread 0x2000) { at100 0 z with dmem := store [] 0 [5] } (fun t => (t.hrdata, t.herr)) = some (0, true) ∧
    hostLook (.hwrite 0x040A 4) (at100 0 z) (fun t => (t.order, t.herr)) = some (0, true) ∧
    hostLook (.hread 0x0402) (at100 0 z) (fun t => (t.hrdata, t.herr)) = some (1, false) := by decide +kernel

/-- T39: the level and STATUS. -/
theorem test_irq :
    State.irq { z with ien := 1, state := .halted } = true ∧ State.irq { z with ien := 1 } = false ∧
    State.statusWord { z with ien := 1, state := .halted } = 0x102 ∧
    State.statusWord { z with ien := 2, state := .faulted } = 0x103 := by decide

/-! ## Witnesses: for each statement with hypotheses, states that meet them, clause by clause -/

/-- A running engine with a legal ORDER and a filled R1 and R3. -/
def ready (n : Nat) : State := { order n z with state := .running, pc := 7 }

theorem witness_EncodeInvertsDecode : decode 0xFC000000 ≠ .ok .nop ∧ decode 0xCD94C000 = .ok (.syn 3 1 2 3) := by
  decide +kernel

theorem witness_StepRunsTheDecodedInstruction :
    (at100 0x04000000 z).EngineNext ∧ State.EngineNext { at100 0x04000000 z with turns := [.engine, .host .reset] } ∧
    (at100 0x04000000 z).state = .running ∧ (at100 0x04000000 z).pc.toNat < Config.imemWords ∧
    decode ((at100 0x04000000 z).imem.readWord (at100 0x04000000 z).pc.toNat) = .ok .halt :=
  ⟨.inl rfl, .inr ⟨_, rfl⟩, rfl, by decide +kernel, by decide +kernel⟩

theorem witness_StepRunsTheDecodedInstruction_last_word :
    State.pc { ready 4 with pc := 1023 } = 1023 ∧ (1023 : Nat) < Config.imemWords ∧
    decode (State.imem { ready 4 with pc := 1023 } |>.readWord 1023) = .ok .nop := by decide +kernel

theorem witness_EngineRestsUnlessRunning :
    z.EngineNext ∧ z.state ≠ .running ∧ State.EngineNext { z with state := .faulted, fcause := 5, turns := [.engine] } ∧
    State.state { z with state := .faulted, fcause := 5, turns := [.engine] } ≠ .running :=
  ⟨.inl rfl, by decide, .inr ⟨_, rfl⟩, by decide⟩

theorem witness_FetchOutsideImemFaults :
    State.EngineNext { ready 4 with pc := 1024 } ∧ State.state { ready 4 with pc := 1024 } = .running ∧
    (State.pc { ready 4 with pc := 1024 }).toNat ≥ Config.imemWords ∧
    (State.pc { ready 4 with pc := 65535 }).toNat ≥ Config.imemWords :=
  ⟨.inl rfl, rfl, by decide, by decide⟩

theorem witness_IllegalWordsFault :
    (at100 0x3C000000 z).EngineNext ∧ (at100 0x3C000000 z).pc.toNat < Config.imemWords ∧
    (at100 0x3C000000 z).imem.readWord 100 = 0x3C000000 ∧ (fieldOp 0x3C000000).toNat = 0x0F ∧
    ∃ row ∈ opcodeMap, fieldOp 0x00000001 = row.op ∧ (0x00000001 : Word) &&& row.format.reserved ≠ 0 :=
  ⟨.inl rfl, by decide +kernel, by decide +kernel, by decide, ⟨"NOP", 0x00, .z⟩, by decide, by decide, by decide⟩

theorem witness_FaultsArePrecise :
    (at100 0x48900001 z).EngineNext ∧ (at100 0x48900001 z).state = .running ∧
    look (at100 0x48900001 z) (·.state) = some .faulted :=
  ⟨.inl rfl, rfl, by decide +kernel⟩

theorem witness_NothingWritesCodeWhileRunning :
    (at100 0x44A00000 z).state = .running ∧ look (at100 0x44A00000 z) (·.pc) = some 101 ∧
    ¬ State.EngineNext { at100 0 z with turns := [.host (.hwrite 0x0000 5)] } ∧
    look { at100 0 z with turns := [.host (.hwrite 0x0000 5)] } (·.herr) = some true := by
  refine ⟨rfl, by decide +kernel, ?_, by decide +kernel⟩
  rintro (h | ⟨rest, h⟩) <;> simp at h

theorem witness_OnlyHaltHalts :
    (ready 4).state = .running ∧ exec .halt (ready 4) = .next { ready 4 with state := .halted } ∧
    exec .nop (ready 4) = .next { ready 4 with pc := 8 } := ⟨rfl, rfl, rfl⟩

theorem witness_SynmemHasThreeWriters :
    (∃ t, exec (.synwr 2) (withVec 2 [9] (ready 4)) = .next t ∧ t.synmem ≠ (withVec 2 [9] (ready 4)).synmem) ∧
    (∃ t, exec (.csrw 2 0x4F) (withReg 2 77 z) = .next t ∧ t.synmem ≠ z.synmem) ∧
    ∃ t, exec (.syn 3 1 2 3) synthesis = .next t ∧ t.synmem ≠ synthesis.synmem :=
  ⟨⟨_, rfl, by decide +kernel⟩, ⟨_, rfl, by decide +kernel⟩, ⟨_, rfl, by decide +kernel⟩⟩

theorem witness_FlagsHaveTheirWriters :
    (∀ rs, Instr.mulq 1 2 2 ≠ .csrw rs 0x03) ∧
    (∃ t, exec (.mulq 1 2 2) (withReg 2 2147483647 z) = .next t ∧ t.sat ≠ z.sat) ∧
    (∃ t, exec (.lspmrg 1 4) (withReg 4 1 (ready 4)) = .next t ∧ t.mf ≠ (ready 4).mf) ∧
    ∃ t, exec (.lsproot 1 0) { order 2 (withVec 0 [0, 262144] z) with grid := 8 } = .next t ∧ t.rf ≠ z.rf :=
  ⟨by simp, ⟨_, rfl, by decide +kernel⟩, ⟨_, rfl, by decide +kernel⟩, ⟨_, rfl, by decide +kernel⟩⟩

theorem witness_LegalStatesStayLegal :
    State.Legal { at100 0x48900001 z with rootcnt := 16 } ∧
    State.Legal { z with state := .faulted, fcause := 15, fpc := 3, pc := 3 } :=
  ⟨⟨⟨by decide, by decide, by decide, by decide⟩, by unfold State.MemoriesCanonical; decide +kernel, by decide⟩,
    ⟨by decide, by decide, by decide, by decide⟩, by unfold State.MemoriesCanonical; decide +kernel, by decide⟩

theorem witness_ResetIsLegal :
    Memory.wf [(0, 1), (4095, 255)] ∧ Memory.within [(0, 1), (4095, 255)] Config.imemWords ∧
    Memory.within [(16383, 1)] Config.dmemWords ∧ Memory.within [(16383, 1)] Config.tmemWords := by decide

theorem witness_NopAndHalt : (State.ien { z with ien := 1 }).getLsbD 0 = true := by decide

theorem witness_CsrrDeliversEveryCsr : (ready 4).state = .running ∧ ((0x13 ≤ 0x13 ∧ 0x13 < 0x20) ∧
    (0x38 ≤ 0x3F ∧ 0x3F < 0x40) ∧ 0x58 ≤ 0x7F ∧ 0x7F < 0x80) := by decide

/-- Four bits in three stages, the full 64 bits in eight, and 120 bits in eight, of which the earliest 56 are lost. -/
theorem witness_CidxPacksStageZeroFirst :
    (∑ u : StageNo, if u.val < min quantizer.nstg.toNat 8 then (quantizer.desc u).ibits else 0) = 4 ∧
    (∑ u : StageNo, if u.val < 8 then
      (State.desc { z with nstg := 8, sdcfg := Vector.replicate 8 0x400000 } u).ibits else 0) = 64 ∧
    (∑ u : StageNo, if u.val < 8 then
      (State.desc { z with nstg := 8, sdcfg := Vector.replicate 8 0x780000 } u).ibits else 0) = 120 := by
  decide +kernel

theorem witness_LdwLoadsAWord :
    (BitVec.ofInt 32 ((withReg 2 4095 z).r[(2 : SReg)].toInt + (0 : BitVec 16).toInt)).toNat < Config.dmemWords ∧
    (BitVec.ofInt 32 ((withReg 2 4095 z).r[(2 : SReg)].toInt + (1 : BitVec 16).toInt)).toNat ≥ Config.dmemWords := by
  decide +kernel

theorem witness_StwStoresAWord :
    (BitVec.ofInt 32 (z.r[(2 : SReg)].toInt + (0 : BitVec 16).toInt)).toNat < Config.dmemWords ∧
    (BitVec.ofInt 32 (z.r[(2 : SReg)].toInt + (0xFFFF : BitVec 16).toInt)).toNat ≥ Config.dmemWords := by
  decide +kernel

/-- ORDER at 1, 16, 0 and 17; a block that ends with DMEM, and one word more. -/
theorem witness_VldLoadsActiveLanes :
    (ready 1).OrderLegal ∧ (ready 16).OrderLegal ∧ ¬ (ready 0).OrderLegal ∧ ¬ (ready 17).OrderLegal ∧
    (withReg 1 4080 z).r[(1 : SReg)].toNat + 16 ≤ Config.dmemWords ∧
    (withReg 1 4081 z).r[(1 : SReg)].toNat + 16 > Config.dmemWords := by decide +kernel

theorem witness_VstStoresActiveLanes :
    (ready 4).OrderLegal ∧ ¬ (ready 31).OrderLegal ∧ (withReg 1 4092 z).r[(1 : SReg)].toNat + 4 ≤ Config.dmemWords ∧
    (withReg 1 (-1) z).r[(1 : SReg)].toNat + 4 > Config.dmemWords := by decide +kernel

theorem witness_VectorMovesWriteActiveLanes : (ready 16).OrderLegal ∧ ¬ (ready 0).OrderLegal := by decide +kernel

theorem witness_SynwrLoadsSynmem : (ready 1).OrderLegal ∧ ¬ (ready 17).OrderLegal := by decide +kernel

theorem witness_VaddVsubSaturate : (ready 16).OrderLegal ∧ ¬ (ready 0).OrderLegal ∧ OutOfRange 2147483648 ∧
    ¬ OutOfRange 2147483647 ∧ OutOfRange (-2147483649) ∧ ¬ OutOfRange (-2147483648) := by decide +kernel

theorem witness_VlerpInterpolates :
    (ready 4).OrderLegal ∧ ¬ (ready 17).OrderLegal ∧ z.r[(5 : SReg)] = 0 ∧
    (withReg 5 65536 z).r[(5 : SReg)] = 65536 := by decide +kernel

theorem witness_BadOrderComesFirst :
    ¬ (ready 0).OrderLegal ∧ usesOrder (.syn 3 1 2 3) = true ∧ usesOrder (.vld 0 1) = true ∧
    ¬ (ready 1).EvenOrderLegal ∧ ¬ (ready 15).EvenOrderLegal ∧ ¬ (ready 18).EvenOrderLegal := by decide +kernel

theorem witness_FilterBlocksAreRangeChecked :
    (filtering 4096 0 0).OrderLegal ∧
    (filtering 4097 0 0).r[(1 : SReg)].toNat + (filtering 4097 0 0).r[(3 : SReg)].toNat > Config.dmemWords ∧
    (filtering 4096 4097 0).r[(1 : SReg)].toNat + (filtering 4096 4097 0).r[(3 : SReg)].toNat ≤ Config.dmemWords ∧
    (filtering 4096 4097 0).r[(2 : SReg)].toNat + (filtering 4096 4097 0).r[(3 : SReg)].toNat > Config.dmemWords := by
  decide +kernel

/-- A stage 2 with OFF 3 and LEN 2 under ORDER 4 (T29 (a)), nine stages, and GRID and margin at their limits. -/
def badStage : State := { order 4 z with nstg := 3, sdcfg := #v[0, 0, 0x4C00, 0, 0, 0, 0, 0] }

theorem witness_IllegalSettingsRaiseBadParam :
    State.EvenOrderLegal { order 4 z with grid := 1025 } ∧ (State.grid { z with grid := 1025 }).toNat > 1024 ∧
    (order 4 z).grid.toNat = 0 ∧ ¬ (withReg 4 13108 (order 4 z)).MarginLegal 4 ∧ ¬ (order 4 z).MarginLegal 4 ∧
    badStage.OrderLegal ∧ ¬ badStage.StageLanesLegal 2 ∧ (∀ u : StageNo, u < 2 → badStage.StageLegal u) ∧
    2 < badStage.nstg.toNat ∧ badStage.nstg.toNat ≤ 8 ∧ (State.nstg { order 4 z with nstg := 9 }).toNat > 8 := by
  decide +kernel

/-- A stage 1 whose codebook is one word too long for TMEM (T29 (b)), and an index that names no entry (T29 (f)). -/
def badTable : State :=
  { order 4 z with
    nstg := 2, sdbase := #v[0, 1, 0, 0, 0, 0, 0, 0], sdcfg := #v[0, 0xC3FF, 0, 0, 0, 0, 0, 0] }

theorem witness_TablesAndIndicesAreChecked :
    badTable.OrderLegal ∧ badTable.StageLanesLegal 1 ∧ ¬ badTable.StageTableLegal 1 ∧ badTable.nstg.toNat ≤ 8 ∧
    1 < badTable.nstg.toNat ∧ (∀ u : StageNo, u < 1 → badTable.StageLegal u) ∧
    State.StageTableLegal { badTable with sdbase := Vector.replicate 8 0 } 1 ∧
    (∀ u : StageNo, u.val < 3 → quantizer.StageLegal u) ∧
    (∀ u : StageNo, u < 1 → State.IndexLegal { quantizer with idx := #v[3, 2, 1, 0, 0, 0, 0, 0] } u) ∧
    ¬ State.IndexLegal { quantizer with idx := #v[3, 2, 1, 0, 0, 0, 0, 0] } 1 := by decide +kernel

theorem witness_CosineIsAntisymmetric :
    (0 : Int) ≤ 65536 ∧ (65536 : Int) ≤ 65536 ∧ (-1 : Int) < 0 ∧ (65537 : Int) > 65536 := by decide

/-- T19, GRID = 1: both roots; T22 (a): none. -/
theorem witness_LsprootReportsItsCount :
    State.EvenOrderLegal { order 2 (withVec 0 [0, -27146] z) with grid := 1, cdelta := 1 } ∧
    (State.lspRoots { order 2 (withVec 0 [0, -27146] z) with grid := 1, cdelta := 1 } 0).length = 2 ∧
    (State.lspRoots { order 2 (withVec 0 [0, 262144] z) with grid := 8, cdelta := 1 } 0).length < 2 := by
  decide +kernel

/-- A search that finds both roots, and one that stops short. -/
theorem witness_RootsIsolateSignChanges :
    State.EvenOrderLegal { order 2 (withVec 0 [0, -27146] z) with grid := 8, cdelta := 0xFFFFFFF9 } ∧
    State.lspRoots { order 2 (withVec 0 [0, -27146] z) with grid := 8, cdelta := 0xFFFFFFF9 } 0 = [16384, 49152] ∧
    State.EvenOrderLegal { order 2 (withVec 0 [0, 262144] z) with grid := 1024 } ∧
    (State.lspRoots { order 2 (withVec 0 [0, 262144] z) with grid := 1 } 0).length < 2 := by
  decide +kernel

theorem witness_LsppolyNeverSaturates : (ready 2).EvenOrderLegal ∧ (ready 16).EvenOrderLegal := by decide +kernel

/-- Legal margins at both ends of their range; with one, a vector that the upward walk and then the downward walk move. -/
theorem witness_LspmrgReportsMoves :
    (withReg 4 13107 (ready 4)).OrderLegal ∧ (withReg 4 13107 (ready 4)).MarginLegal 4 ∧
    (withReg 4 1 (ready 16)).MarginLegal 4 ∧
    upwardWalk 655 655 [100, 90, 30000, 65600] = [655, 1310, 30000, 65600] ∧
    enforceMargin 655 [100, 90, 30000, 65600] = [655, 1310, 30000, 64881] := by decide +kernel

/-- A legal margin, and a lane that satisfies its constraints against its final neighbours (lane 2 of T24, row 1). -/
theorem witness_MarginIsEnforced :
    (withReg 4 655 (order 4 (withVec 1 [100, 90, 30000, 65600] z))).MarginLegal 4 ∧
    ∃ t, exec (.lspmrg 1 4) (withReg 4 655 (order 4 (withVec 1 [100, 90, 30000, 65600] z))) = .next t ∧
      30000 - t.lane 1 1 ≥ 655 ∧ t.lane 1 3 - 30000 ≥ 655 ∧ t.lane 1 2 = 30000 :=
  ⟨by decide +kernel, _, rfl, by decide +kernel⟩

theorem witness_VqwWeighsBySpacing : (ready 1).OrderLegal ∧ ¬ (ready 17).OrderLegal := by decide +kernel

theorem witness_VqsSubtractsTheNearestEntry : quantizer.OrderLegal ∧ quantizer.StageLegal 0 ∧ quantizer.StageLegal 2 := by
  decide +kernel

theorem witness_VqaAddsTheIndexedEntry :
    quantizer.StageLegal 0 ∧ State.IndexLegal { quantizer with idx := #v[3, 0, 0, 0, 0, 0, 0, 0] } 0 := by
  decide +kernel

/-- Three legal stages, and no stage at all. -/
theorem witness_VqencRunsItsStagesInTurn :
    quantizer.OrderLegal ∧ quantizer.nstg.toNat ≤ 8 ∧
    (∀ st : StageNo, st.val < quantizer.nstg.toNat → quantizer.StageLegal st) ∧
    (ready 4).nstg.toNat ≤ 8 ∧ ∀ st : StageNo, st.val < (ready 4).nstg.toNat → (ready 4).StageLegal st := by
  decide +kernel

theorem witness_VqdecIsVzeroThenVqa :
    quantizer.OrderLegal ∧ quantizer.nstg.toNat ≤ 8 ∧
    ∀ st : StageNo, st.val < quantizer.nstg.toNat → quantizer.StageLegal st ∧ quantizer.IndexLegal st := by
  decide +kernel

/-- A run in which nothing clamps, with SAT set before it and with SAT clear. -/
theorem witness_ResidualCompletesReconstruction :
    (0 : VReg) ≠ 3 ∧ quantizer.OrderLegal ∧
    (∀ st : StageNo, st.val < quantizer.nstg.toNat → quantizer.StageLegal st) ∧
    (execAll [.vqenc 0 1, .vqdec 3] { withVec 0 [9500, 12700, 31000, 51000] quantizer with sat := true }).map (·.sat)
      = some true ∧
    (execAll [.vqenc 0 1, .vqdec 3] (withVec 0 [9500, 12700, 31000, 51000] quantizer)).map (·.sat) = some false := by
  decide +kernel

theorem witness_BwxScalesByPowers : (ready 16).OrderLegal ∧ ¬ (ready 0).OrderLegal := by decide +kernel

/-- A run of six samples, and an empty run at the end of DMEM. -/
theorem witness_FirFollowsItsRecurrence :
    (filtering 0x100 0x110 6).OrderLegal ∧ (filtering 0x100 0x110 6).BlocksLegal 1 2 3 ∧
    (filtering 4096 4096 0).BlocksLegal 1 2 3 := by decide +kernel

theorem witness_IirFollowsItsRecurrence :
    (filtering 0x100 0x101 6).OrderLegal ∧ (filtering 0x100 0x101 6).BlocksLegal 1 2 3 ∧
    (filtering 0 0 4096).BlocksLegal 1 2 3 := by decide +kernel

theorem witness_SynFollowsItsRecurrence : synthesis.OrderLegal ∧ synthesis.BlocksLegal 1 2 3 := by decide +kernel

/-- The split 3 + 3 of T31. -/
theorem witness_FiltersAreDecomposable :
    (0 : VReg) ≠ 1 ∧ (filtering 0x100 0x110 6).OrderLegal ∧ 0x110 + (3 + 3) ≤ Config.dmemWords ∧
    (filtering 0x100 0x110 6).r[(1 : SReg)].toNat = 0x100 ∧ (filtering 0x100 0x110 6).r[(3 : SReg)].toNat = 3 + 3 ∧
    (filtering 0x100 0x110 3).r[(3 : SReg)].toNat = 3 ∧ (filtering 0x103 0x113 3).r[(1 : SReg)].toNat = 0x100 + 3 ∧
    (filtering 0x103 0x113 3).r[(2 : SReg)].toNat = 0x110 + 3 := by decide +kernel

theorem witness_CtrlCommandsActInOrder :
    State.turns { at100 0 z with turns := [.host (.hwrite 0x0401 7)] } = [.host (.hwrite 0x0401 7)] ∧
    (7 : Word).getLsbD 2 = true ∧ (7 : Word).getLsbD 1 = true ∧ (7 : Word).getLsbD 0 = true ∧
    (0xF : Word).getLsbD 3 = true ∧ (at100 0 z).state = .running := by decide +kernel

theorem witness_ResetClearsRegistersOnly :
    State.turns { at100 0 z with turns := [.host .reset, .engine] } = .host .reset :: [.engine] ∧
    State.turns { at100 0 z with turns := [.host (.hwrite 0x0401 8)] } = [.host (.hwrite 0x0401 8)] ∧
    (8 : Word).getLsbD 3 = true := by decide +kernel

theorem witness_HostIsRefusedWhileRunning :
    (at100 0 z).state = .running ∧ (0x0403 : BitVec 14) ≠ 0x0402 ∧ (0x0402 : BitVec 14) ≠ 0x0401 ∧
    State.turns { at100 0 z with turns := [.host (.hread 0x0403)] } = [.host (.hread 0x0403)] ∧
    State.turns { at100 0 z with turns := [.host (.hwrite 0x0402 1)] } = [.host (.hwrite 0x0402 1)] := by
  decide +kernel

/-- The first and the last word of each slot, and the first unmapped addresses. -/
theorem witness_HostReachesTheMemories :
    z.state ≠ .running ∧ (0x03FF : BitVec 14).toNat < 0x0400 ∧ 0x1000 ≤ (0x1FFF : BitVec 14).toNat ∧
    (0x2FFF : BitVec 14).toNat < 0x3000 ∧ 0x0500 ≤ (0x0500 : BitVec 14).toNat ∧
    (0x0FFF : BitVec 14).toNat < 0x1000 ∧ 0x3000 ≤ (0x3FFF : BitVec 14).toNat := by decide

/-- The ends of the unassigned ranges; HERR on a read of 0x0413 and on a write of ID, and SYNMEM[15] written (T14). -/
theorem witness_HostReachesTheCsrs :
    z.state ≠ .running ∧ CsrUnassigned 0x13 ∧ CsrUnassigned 0x1F ∧ CsrUnassigned 0x38 ∧ CsrUnassigned 0x3F ∧
    CsrUnassigned 0x58 ∧ CsrUnassigned 0x7F ∧ ¬ CsrUnassigned 0x12 ∧ ¬ CsrUnassigned 0x80 ∧
    hostLook (.hread 0x0413) z (·.herr) = some true ∧ hostLook (.hwrite 0x0400 1) z (·.herr) = some true ∧
    hostLook (.hwrite 0x044F 77) z (·.synmem[15]) = some 77 := by decide +kernel

end Sys2Proof.Tests
end

section
/-! PROOF. Who writes the flags. The coefficients of LSPPOLY fit a word whatever the angles are (`40_lsp_transform.md`
R160, R166), so its `sat32` never clamps; then, over the whole dispatch, which instruction can change which flag
(`10_state.md` R47). -/

namespace Sys2Proof.Machine

open Sys2Proof

/-! ## The cosine is at most 1 (R160) -/

/-- A product of R160: `u` is at most a quarter of `2^32`, so the result is at most a quarter of `c`. -/
theorem shiftRight_mul_range {c u : Int} (hc : 0 ≤ c) (hu : 0 ≤ u) (hu' : u ≤ 2 ^ 30) :
    0 ≤ shiftRight (c * u) 32 ∧ 4 * shiftRight (c * u) 32 ≤ c := by
  have hlo : 0 ≤ c * u := mul_nonneg hc hu
  have hhi : c * u ≤ c * 2 ^ 30 := mul_le_mul_of_nonneg_left hu' hc
  unfold shiftRight
  omega

/-- A Horner step of R160 stays between 0 and its constant term `a`. -/
theorem hornerStep_range {a c u : Int} (hc : 0 ≤ c ∧ c ≤ 4 * a) (hu : 0 ≤ u) (hu' : u ≤ 2 ^ 30) :
    0 ≤ a - shiftRight (c * u) 32 ∧ a - shiftRight (c * u) 32 ≤ a := by
  have := shiftRight_mul_range hc.1 hu hu'
  omega

/-- The last line of R160: `2^30` rounds to 65536, and the part taken off it is at most 1.24 times as large. -/
theorem abs_shiftRight_one_sub_le {q : Int} (h0 : 0 ≤ q) (h1 : 4 * q ≤ 5298702701) :
    |shiftRight (1073741824 - q + 8192) 14| ≤ 65536 := by
  rw [abs_le, shiftRight]
  omega

theorem abs_cosQuadrant_le {t : Int} (h0 : 0 ≤ t) (h1 : t ≤ 32768) : |cosQuadrant t| ≤ 65536 := by
  have hu : 0 ≤ t * t := mul_nonneg h0 h0
  have hu' : t * t ≤ 2 ^ 30 := (mul_le_mul h1 h1 h0 (by norm_num)).trans (by norm_num)
  have c1 := hornerStep_range (a := 1431634204) (c := 239179831) (by norm_num) hu hu'
  have c2 := hornerStep_range (a := 4357904630) ⟨c1.1, by omega⟩ hu hu'
  have c3 := hornerStep_range (a := 5298702701) ⟨c2.1, by omega⟩ hu hu'
  have last := shiftRight_mul_range c3.1 hu hu'
  exact abs_shiftRight_one_sub_le last.1 (last.2.trans c3.2)

/-- The cosine lies between -1 and 1 in Q16 for every word, angle or not (R160). -/
theorem abs_cosfx_le (t : Int) : |cosfx t| ≤ 65536 := by
  obtain ⟨h0, h1⟩ := clampAngle_range t
  unfold cosfx
  split_ifs with h
  · rw [abs_neg]
    exact abs_cosQuadrant_le (by omega) (by omega)
  · exact abs_cosQuadrant_le h0 (by omega)

/-! ## The expanded polynomials are bounded by binomials (R166) -/

/-- Coefficient for coefficient, `poly` is within `(1 + z)^n` in Q16. -/
def WithinBinomial (poly : List Int) (n : Nat) : Prop := ∀ k, |poly.getD k 0| ≤ 65536 * (n.choose k : Int)

theorem withinBinomial_one (p : Nat) : WithinBinomial (65536 :: List.replicate p 0) 0 := by
  rintro (_ | k)
  · simp
  · rw [List.getD_cons_succ, List.getD_eq_getElem?_getD, List.getElem?_getD_replicate_default_eq, abs_zero]
    positivity

/-- Pascal's rule taken twice: multiplying by `(1 + z)^2`. -/
theorem choose_add_two (n k : Nat) :
    (n + 2).choose (k + 1 + 1) = n.choose k + 2 * n.choose (k + 1) + n.choose (k + 1 + 1) := by
  rw [Nat.choose_succ_succ, Nat.choose_succ_succ, Nat.choose_succ_succ]
  ring

/-- A factor whose cosine is at most 1 is within `(1 + z)^2`; its rounding loses nothing, the bound being an integer. -/
theorem withinBinomial_expandStep {poly : List Int} {n : Nat} (h : WithinBinomial poly n) {x : Int}
    (hx : |x| ≤ 65536) : WithinBinomial (expandStep poly x) (n + 2) := by
  intro k
  by_cases hk : k < poly.length
  · have middle (j : Nat) : |rnd16 (2 * x * poly.getD j 0)| ≤ 2 * (65536 * (n.choose j : Int)) := by
      refine abs_rnd16_le ?_
      rw [abs_mul, abs_mul, abs_two]
      linear_combination 2 * mul_le_mul hx (h j) (abs_nonneg _) (by norm_num)
    rw [getD_expandStep _ _ hk]
    rcases k with _ | _ | k
    · simpa using h 0
    · have h0 := abs_le.1 (h 0)
      have h1 := abs_le.1 (h 1)
      have hm := abs_le.1 (middle 0)
      rw [if_pos le_rfl, if_neg (by omega), abs_le, Nat.choose_one_right]
      rw [Nat.choose_zero_right] at h0 hm
      rw [Nat.choose_one_right] at h1
      push_cast at *
      omega
    · have h0 := abs_le.1 (h k)
      have h1 := abs_le.1 (h (k + 1 + 1))
      have hm := abs_le.1 (middle (k + 1))
      rw [if_pos (by omega), if_pos (by omega), abs_le, choose_add_two, Nat.add_sub_cancel,
        Nat.add_sub_cancel (n := k) (m := 2)]
      push_cast
      omega
  · rw [List.getD_eq_default _ _ (by simpa using hk), abs_zero]
    positivity

theorem withinBinomial_foldl_expandStep {xs : List Int} (hxs : ∀ x ∈ xs, |x| ≤ 65536) {poly : List Int} {n : Nat}
    (h : WithinBinomial poly n) : WithinBinomial (xs.foldl expandStep poly) (n + 2 * xs.length) := by
  induction xs generalizing poly n with
  | nil => exact h
  | cons x xs ih =>
    rw [List.forall_mem_cons] at hxs
    rw [List.foldl_cons, List.length_cons, show n + 2 * (xs.length + 1) = n + 2 + 2 * xs.length by ring]
    exact ih hxs.2 (withinBinomial_expandStep h hxs.1)

theorem withinBinomial_expand (p : Nat) {xs : List Int} (hxs : ∀ x ∈ xs, |x| ≤ 65536) :
    WithinBinomial (expand p xs) (2 * xs.length) := by
  simpa [expand] using withinBinomial_foldl_expandStep hxs (withinBinomial_one p)

/-- With at most eight factors no coefficient exceeds the middle one of `(1 + z)^16`, 12870. -/
theorem abs_getD_expand_le (p : Nat) {xs : List Int} (hxs : ∀ x ∈ xs, |x| ≤ 65536) (hlen : xs.length ≤ 8) (k : Nat) :
    |(expand p xs).getD k 0| ≤ 65536 * 12870 := by
  have hchoose : (2 * xs.length).choose k ≤ 12870 := calc
    (2 * xs.length).choose k ≤ (16).choose k := Nat.choose_le_choose k (by omega)
    _ ≤ (16).choose 8 := Nat.choose_le_middle k 16
    _ = 12870 := by decide
  have := withinBinomial_expand p hxs k
  omega

theorem abs_le_of_mem_cosinesFrom {s : State} {va : VReg} {first : Nat} :
    ∀ x ∈ cosinesFrom s va first, |x| ≤ 65536 := by
  simp only [cosinesFrom, List.mem_map]
  rintro _ ⟨i, -, rfl⟩
  exact abs_cosfx_le _

@[simp] theorem length_cosinesFrom (s : State) (va : VReg) (first : Nat) :
    (cosinesFrom s va first).length = s.p / 2 := by
  simp [cosinesFrom]

/-- LSPPOLY never clamps: half of four coefficients of at most `65536 * 12870` fits a word (R166). -/
theorem clamps_polyCoef (s : State) (va : VReg) (hp : s.p ≤ 16) (k : Nat) :
    clamps (polyCoef (expand s.p (cosinesFrom s va 0)) (expand s.p (cosinesFrom s va 1)) k) = false := by
  have bound (first j : Nat) := abs_getD_expand_le s.p (abs_le_of_mem_cosinesFrom (s := s) (va := va) (first := first))
    (by rw [length_cosinesFrom]; omega) j
  have p0 := abs_le.1 (bound 0 k)
  have p1 := abs_le.1 (bound 0 (k - 1))
  have q0 := abs_le.1 (bound 1 k)
  have q1 := abs_le.1 (bound 1 (k - 1))
  rw [clamps_eq_false_iff, polyCoef, shiftRight, minWord, maxWord]
  omega

/-! ## Which flag an instruction can change (R47) -/

/-- The twelve instructions that can set SAT (R47). -/
def CanSetSat : Instr → Prop
  | .mulq .. | .vadd .. | .vsub .. | .vlerp .. | .vqs .. | .vqa .. | .vqenc .. | .vqdec ..
  | .bwx .. | .fir .. | .iir .. | .syn .. => True
  | _ => False

theorem canSetSat_iff (i : Instr) :
    CanSetSat i ↔ (∃ d a b, i = .mulq d a b) ∨ (∃ d a b, i = .vadd d a b) ∨ (∃ d a b, i = .vsub d a b) ∨
      (∃ d a b w, i = .vlerp d a b w) ∨ (∃ d w st, i = .vqs d w st) ∨ (∃ d st, i = .vqa d st) ∨
      (∃ d w, i = .vqenc d w) ∨ (∃ d, i = .vqdec d) ∨ (∃ d a g, i = .bwx d a g) ∨
      (∃ m c s d n, i = .fir m c s d n) ∨ (∃ m c s d n, i = .iir m c s d n) ∨ (∃ c s d n, i = .syn c s d n) := by
  cases i <;> simp [CanSetSat]

/-- What an instruction can do to the flags from `s` to `t` (R47). -/
structure FlagFrame (i : Instr) (s t : State) : Prop where
  rf : t.rf = s.rf ∨ ∃ vd va, i = .lsproot vd va
  mf : t.mf = s.mf ∨ ∃ vd rm, i = .lspmrg vd rm
  sat : t.sat = s.sat ∨ CanSetSat i ∧ (s.sat = true → t.sat = true)

theorem FlagFrame.of_kept {i : Instr} {s t : State} (hrf : t.rf = s.rf) (hmf : t.mf = s.mf) (hsat : t.sat = s.sat) :
    FlagFrame i s t := ⟨.inl hrf, .inl hmf, .inl hsat⟩

theorem FlagFrame.of_sticky {i : Instr} {s t : State} (hi : CanSetSat i) (hrf : t.rf = s.rf) (hmf : t.mf = s.mf)
    (hsat : s.sat = true → t.sat = true) : FlagFrame i s t := ⟨.inl hrf, .inl hmf, .inr ⟨hi, hsat⟩⟩

/-- A fault changes no flag (R314), so the effect alone decides. -/
theorem FlagFrame.of_finish {i : Instr} {trap : Option Trap} {effect : State → State} {s t : State}
    (h : finish trap effect s = .next t) (he : trap = none → FlagFrame i s (effect s)) : FlagFrame i s t := by
  obtain ⟨tr, -, rfl⟩ | ⟨hnone, rfl⟩ := finish_cases h
  · exact .of_kept rfl rfl rfl
  · exact he hnone

/-- A run of steps each of which keeps a set SAT keeps it. -/
theorem sat_foldl {β : Type} {f : State → β → State} (hf : ∀ s b, s.sat = true → (f s b).sat = true) (l : List β)
    {s : State} (h : s.sat = true) : (l.foldl f s).sat = true :=
  List.foldlRecOn (motive := fun u => u.sat = true) l f h fun u hu b _ => hf u b hu

theorem State.sat_encodeStage (vd vw : VReg) (s : State) (st : StageNo) (h : s.sat = true) :
    (s.encodeStage vd vw st).sat = true := by
  simp [State.encodeStage, State.setIdx, State.subtractEntry, h]

theorem State.sat_decodeStage (vd : VReg) (s : State) (st : StageNo) (h : s.sat = true) :
    (s.decodeStage vd st).sat = true := by
  simp [State.decodeStage, State.addEntry, h]

theorem State.sat_filter (s : State) (kind : FilterKind) (mem : Lanes) (vc : VReg) (rs rd rn : SReg)
    (h : s.sat = true) : (s.filter kind mem vc rs rd rn).sat = true := sat_filterRun _ _ _ _ _ _ h

theorem FlagFrame.vqenc (vd vw : VReg) (l : List StageNo) (s : State) :
    FlagFrame (.vqenc vd vw) s (l.foldl (State.encodeStage vd vw) s).advance :=
  .of_sticky trivial (foldl_field State.rf (State.encodeStage vd vw) (fun _ _ => rfl) l s)
    (foldl_field State.mf (State.encodeStage vd vw) (fun _ _ => rfl) l s) (sat_foldl (State.sat_encodeStage vd vw) l)

theorem FlagFrame.vqdec (vd : VReg) (l : List StageNo) (f : Nat → Word) (s : State) :
    FlagFrame (.vqdec vd) s (l.foldl (State.decodeStage vd) (s.putLanes vd 0 s.p f)).advance :=
  .of_sticky trivial (foldl_field State.rf (State.decodeStage vd) (fun _ _ => rfl) l _)
    (foldl_field State.mf (State.decodeStage vd) (fun _ _ => rfl) l _)
    fun hs => sat_foldl (State.sat_decodeStage vd) l (s := s.putLanes vd 0 s.p f) hs

theorem FlagFrame.lsproot (vd va : VReg) (roots : List Nat) (s : State) :
    FlagFrame (.lsproot vd va) s (s.putRoots vd roots).advance := by
  obtain ⟨v, e⟩ := State.putRoots_eq vd roots s
  rw [e]
  exact ⟨.inr ⟨vd, va, rfl⟩, .inl rfl, .inl rfl⟩

theorem FlagFrame.lsppoly {vd va : VReg} {s t : State} (h : execLsppoly vd va s = .next t) :
    FlagFrame (.lsppoly vd va) s t :=
  .of_finish h fun hnone => .of_kept rfl rfl <| State.sat_putSatLanes_of_not_clamps _ _ _ _ _ fun k _ _ =>
    clamps_polyCoef s va ((evenOrderTrap_eq_none_iff s).1 hnone).2.1 (k + 1)

theorem FlagFrame.csrw {rs : SReg} {csr : BitVec 8} {s t : State} (h : execCsrw rs csr s = .next t)
    (hcsr : csr ≠ 0x03) : FlagFrame (.csrw rs csr) s t := by
  unfold execCsrw at h
  split at h
  next => exact .of_finish h nofun
  next c hc =>
    have hflags : c ≠ .flags := by
      rintro rfl
      exact hcsr ((csrOf_eq_flags_iff csr).1 hc)
    obtain ⟨hrf, hsat, hmf⟩ := writeCsr_flags hflags (s.reg rs) s
    exact .of_finish h fun _ => .of_kept hrf hmf hsat

/-- Every instruction but a CSRW of FLAGS keeps to its flags (R47). -/
theorem exec_flagFrame {i : Instr} {s t : State} (h : exec i s = .next t) (hi : ∀ rs, i ≠ .csrw rs 0x03) :
    FlagFrame i s t := by
  cases i <;> dsimp only [exec] at h
  case csrw rs csr => exact .csrw h fun hcsr => hi rs (hcsr ▸ rfl)
  case csrr rd csr =>
    unfold execCsrr at h
    split at h <;> exact .of_finish h fun _ => .of_kept rfl rfl rfl
  case bnz | bz | bfs | bfc =>
    refine .of_finish h fun _ => ?_
    split_ifs <;> exact .of_kept rfl rfl rfl
  case lsproot vd va => exact .of_finish h fun _ => .lsproot vd va _ s
  case lsppoly vd va => exact .lsppoly h
  case lspmrg vd rm => exact .of_finish h fun _ => ⟨.inl rfl, .inr ⟨vd, rm, rfl⟩, .inl rfl⟩
  case mulq | vadd | vsub | vlerp | bwx =>
    exact .of_finish h fun _ => .of_sticky trivial rfl rfl fun hs => by simp [hs]
  case vqs vd vw st => exact .of_finish h fun _ => .of_sticky trivial rfl rfl (s.sat_encodeStage vd vw st)
  case vqa vd st => exact .of_finish h fun _ => .of_sticky trivial rfl rfl (s.sat_decodeStage vd st)
  case vqenc vd vw => exact .of_finish h fun _ => .vqenc vd vw s.stages s
  case vqdec vd => exact .of_finish h fun _ => .vqdec vd s.stages _ s
  case fir | iir | syn => exact .of_finish h fun _ => .of_sticky trivial rfl rfl (s.sat_filter _ _ _ _ _ _)
  case synwr vs => exact .of_finish h fun _ => .of_kept (by simp) (by simp) (by simp)
  -- the rest write no flag
  all_goals exact .of_finish h fun _ => .of_kept rfl rfl rfl

/-- Settles O14: RF, MF and SAT have no writers but those R47 names, by the frame of each instruction and the bound on
LSPPOLY's coefficients. -/
theorem flagsHaveTheirWriters : Obligations.FlagsHaveTheirWriters := by
  intro i s t h hi
  obtain ⟨hrf, hmf, hsat⟩ := exec_flagFrame h hi
  refine ⟨hrf.resolve_left, hmf.resolve_left, fun hs => ?_, fun hne => (canSetSat_iff i).1 (hsat.resolve_left hne).1⟩
  obtain hkept | ⟨-, hsticky⟩ := hsat
  · exact hkept.trans hs
  · exact hsticky hs

end Sys2Proof.Machine
end

section
/-! PROOF. What the host can do through its window (`20_memory.md` R104, R105, `10_state.md` R48, `60_exceptions.md`
R321). The window's table read slot by slot, then what each operation does there, then the host's step. -/

namespace Sys2Proof.Machine

open Sys2Proof

/-! ## The table of R104, slot by slot -/

theorem windowTarget_imem {addr : BitVec 14} (h : addr.toNat < 0x0400) : windowTarget addr = .imem addr.toNat := by
  have hfits : addr.toNat < Config.imemWords := h
  simp only [windowTarget, if_pos h, if_pos hfits]

theorem windowTarget_csr {addr : BitVec 14} {n : Nat} (hn : n < 256) (h : addr.toNat = 0x0400 + n) :
    windowTarget addr = .csr (BitVec.ofNat 8 n) := by
  simp only [windowTarget, h, if_neg (Nat.not_lt.2 (Nat.le_add_right 0x0400 n)),
    if_pos (show 0x0400 + n < 0x0500 by omega), Nat.add_sub_cancel_left]

theorem windowTarget_tmem {addr : BitVec 14} (h : 0x1000 ≤ addr.toNat) (h' : addr.toNat < 0x2000) :
    windowTarget addr = .tmem (addr.toNat - 0x1000) := by
  have himem : ¬ addr.toNat < 0x0400 := by omega
  have hcsr : ¬ addr.toNat < 0x0500 := by omega
  have hfits : addr.toNat - 0x1000 < Config.tmemWords := by unfold Config.tmemWords; omega
  simp only [windowTarget, if_neg himem, if_neg hcsr, if_neg (Nat.not_lt.2 h), if_pos h', if_pos hfits]

theorem windowTarget_dmem {addr : BitVec 14} (h : 0x2000 ≤ addr.toNat) (h' : addr.toNat < 0x3000) :
    windowTarget addr = .dmem (addr.toNat - 0x2000) := by
  have himem : ¬ addr.toNat < 0x0400 := by omega
  have hcsr : ¬ addr.toNat < 0x0500 := by omega
  have hgap : ¬ addr.toNat < 0x1000 := by omega
  have hfits : addr.toNat - 0x2000 < Config.dmemWords := by unfold Config.dmemWords; omega
  simp only [windowTarget, if_neg himem, if_neg hcsr, if_neg hgap, if_neg (Nat.not_lt.2 h), if_pos h', if_pos hfits]

theorem windowTarget_unmapped {addr : BitVec 14}
    (h : (0x0500 ≤ addr.toNat ∧ addr.toNat < 0x1000) ∨ 0x3000 ≤ addr.toNat) : windowTarget addr = .unmapped := by
  have himem : ¬ addr.toNat < 0x0400 := by omega
  have hcsr : ¬ addr.toNat < 0x0500 := by omega
  simp only [windowTarget, if_neg himem, if_neg hcsr]
  obtain ⟨-, hgap⟩ | htop := h
  · exact if_pos hgap
  · rw [if_neg (by omega), if_neg (by omega), if_neg (Nat.not_lt.2 htop)]

/-- Only the addresses from 0x0400 on name a CSR, each the one of its low byte. -/
theorem toNat_of_windowTarget_csr {addr : BitVec 14} {n : BitVec 8} (h : windowTarget addr = .csr n) :
    addr.toNat = 0x0400 + n.toNat := by
  obtain h' | h' | h' | h' | h' : addr.toNat < 0x0400 ∨ (0x0400 ≤ addr.toNat ∧ addr.toNat - 0x0400 < 256) ∨
      ((0x0500 ≤ addr.toNat ∧ addr.toNat < 0x1000) ∨ 0x3000 ≤ addr.toNat) ∨
      (0x1000 ≤ addr.toNat ∧ addr.toNat < 0x2000) ∨ (0x2000 ≤ addr.toNat ∧ addr.toNat < 0x3000) := by omega
  · rw [windowTarget_imem h'] at h
    cases h
  · rw [windowTarget_csr h'.2 (by omega)] at h
    injection h with h
    rw [← h, BitVec.toNat_ofNat, Nat.mod_eq_of_lt h'.2]
    omega
  · rw [windowTarget_unmapped h'] at h
    cases h
  · rw [windowTarget_tmem h'.1 h'.2] at h
    cases h
  · rw [windowTarget_dmem h'.1 h'.2] at h
    cases h

/-! ## The CSRs with an access of their own (R48, R105) -/

theorem alwaysReadable_iff (n : BitVec 8) : ∀ c ∈ csrOf n, (c.alwaysReadable = true ↔ n.toNat < 3) := by
  revert n; decide +kernel

theorem csrOf_eq_ctrl_iff (n : BitVec 8) : csrOf n = some .ctrl ↔ n = 0x01 := by
  revert n; decide +kernel

theorem Csr.ne_ctrl_of_writable {c : Csr} (h : c.writable = true) : c ≠ .ctrl := by
  rintro rfl; cases h

/-- The numbers R48 marks read-only are neither CTRL nor writable. -/
theorem csrReadOnly_not_writable :
    ∀ n ∈ csrReadOnly, n < 256 ∧ ∀ c ∈ csrOf (BitVec.ofNat 8 n), c ≠ .ctrl ∧ c.writable = false := by
  decide +kernel

theorem csrOf_of_unassigned {n : Nat} (h : CsrUnassigned n) : csrOf (BitVec.ofNat 8 n) = none := by
  rw [csrOf_eq_none_iff, BitVec.toNat_ofNat, Nat.mod_eq_of_lt (by omega)]
  exact h

/-! ## A read and a write of the CSR space (R105) -/

theorem hostRead_csr {addr : BitVec 14} {n : BitVec 8} {c : Csr} {s : State} (h : windowTarget addr = .csr n)
    (hc : csrOf n = some c) (hs : s.state ≠ .running ∨ c.alwaysReadable = true) :
    hostRead addr s = some (readCsr c s) := by
  simp only [hostRead, h, hc]
  exact if_neg fun hno => hs.elim (fun hr => hr hno.1) fun hr => Bool.noConfusion (hr.symm.trans hno.2)

theorem hostRead_csr_refused {addr : BitVec 14} {n : BitVec 8} {s : State} (h : windowTarget addr = .csr n)
    (hno : ∀ c ∈ csrOf n, s.state = .running ∧ c.alwaysReadable = false) : hostRead addr s = none := by
  simp only [hostRead, h]
  cases hc : csrOf n with
  | none => rfl
  | some c => exact if_pos (hno c hc)

/-- A write of any CSR but CTRL. -/
theorem hostWrite_csr_of_ne_ctrl {addr : BitVec 14} {n : BitVec 8} {c : Csr} (h : windowTarget addr = .csr n)
    (hc : csrOf n = some c) (hctrl : c ≠ .ctrl) (v : Word) (s : State) :
    hostWrite addr v s = if s.state = .running ∨ c.writable = false then none else some (writeCsr c v s) := by
  simp only [hostWrite, h, hc]

theorem hostWrite_csr {addr : BitVec 14} {n : BitVec 8} {c : Csr} {v : Word} {s : State}
    (h : windowTarget addr = .csr n) (hc : csrOf n = some c) (hw : c.writable = true) (hs : s.state ≠ .running) :
    hostWrite addr v s = some (writeCsr c v s) := by
  rw [hostWrite_csr_of_ne_ctrl h hc (Csr.ne_ctrl_of_writable hw), if_neg (by simp [hw, hs])]

theorem hostWrite_csr_refused {addr : BitVec 14} {n : BitVec 8} {s : State} (h : windowTarget addr = .csr n)
    {v : Word} (hno : ∀ c ∈ csrOf n, c ≠ .ctrl ∧ (s.state = .running ∨ c.writable = false)) :
    hostWrite addr v s = none := by
  cases hc : csrOf n with
  | none => simp only [hostWrite, h, hc]
  | some c => rw [hostWrite_csr_of_ne_ctrl h hc (hno c hc).1, if_pos (hno c hc).2]

theorem hostWrite_ctrl {addr : BitVec 14} {n : BitVec 8} (h : windowTarget addr = .csr n)
    (hc : csrOf n = some .ctrl) (v : Word) (s : State) : hostWrite addr v s = some (ctrlWrite v s) := by
  simp only [hostWrite, h, hc]

/-! ## What a running engine refuses (R105 item 3) -/

theorem hostRead_of_running {addr : BitVec 14} {s : State} (hs : s.state = .running) (h0 : addr ≠ 0x0400)
    (h1 : addr ≠ 0x0401) (h2 : addr ≠ 0x0402) : hostRead addr s = none := by
  cases h : windowTarget addr with
  | csr n =>
    have hn : ¬ n.toNat < 3 := by
      have := toNat_of_windowTarget_csr h
      bv_omega
    exact hostRead_csr_refused h fun c hc =>
      ⟨hs, Bool.eq_false_iff.2 fun hr => hn ((alwaysReadable_iff n c hc).1 hr)⟩
  | unmapped => simp only [hostRead, h]
  | imem a | tmem a | dmem a => simp only [hostRead, h, if_pos hs]

theorem hostWrite_of_running {addr : BitVec 14} {v : Word} {s : State} (hs : s.state = .running)
    (h1 : addr ≠ 0x0401) : hostWrite addr v s = none := by
  cases h : windowTarget addr with
  | csr n =>
    have hn : n ≠ 0x01 := by
      have := toNat_of_windowTarget_csr h
      bv_omega
    exact hostWrite_csr_refused h fun c hc => ⟨fun e => hn ((csrOf_eq_ctrl_iff n).1 (e ▸ hc)), .inl hs⟩
  | unmapped => simp only [hostWrite, h]
  | imem a | tmem a | dmem a => simp only [hostWrite, h, if_pos hs]

/-- What a host operation on a running engine can change: it resets the registers, or it reaches only what CTRL reaches
(R328), the port `hrdata` and HERR. -/
theorem hostStep_of_running (op : HostOp) {s : State} (hs : s.state = .running) :
    hostStep op s = s.resetRegisters ∨
      ∃ pc state herr fcause fpc finfo hrdata,
        hostStep op s =
          { s with pc := pc, state := state, herr := herr, fcause := fcause, fpc := fpc, finfo := finfo
                   hrdata := hrdata } := by
  cases op with
  | reset => exact .inl rfl
  | hread addr =>
    dsimp only [hostStep]
    cases hostRead addr s <;> exact .inr ⟨_, _, _, _, _, _, _, rfl⟩
  | hwrite addr v =>
    dsimp only [hostStep]
    by_cases h : addr = 0x0401
    · rw [hostWrite_ctrl (n := 0x01) (by rw [h]; rfl) rfl, Option.getD_some]
      obtain e | ⟨pc, state, herr, fcause, fpc, finfo, e⟩ := ctrlWrite_eq v s
      · exact .inl e
      · exact .inr ⟨pc, state, herr, fcause, fpc, finfo, _, e⟩
    · rw [hostWrite_of_running hs h]
      exact .inr ⟨_, _, _, _, _, _, _, rfl⟩

/-! ## The host's step (R14, R105) -/

theorem step_hread {s : State} {addr : BitVec 14} {rest : List Turn} {w : Word}
    (ht : s.turns = .host (.hread addr) :: rest) (h : hostRead addr { s with turns := rest } = some w) :
    step s = .next { s with turns := rest, hrdata := w } := by
  simp only [step, ht, hostStep, h]

theorem step_hread_refused {s : State} {addr : BitVec 14} {rest : List Turn}
    (ht : s.turns = .host (.hread addr) :: rest) (h : hostRead addr { s with turns := rest } = none) :
    step s = .next { s with turns := rest, hrdata := 0, herr := true } := by
  simp only [step, ht, hostStep, h]

theorem step_hwrite {s t : State} {addr : BitVec 14} {v : Word} {rest : List Turn}
    (ht : s.turns = .host (.hwrite addr v) :: rest) (h : hostWrite addr v { s with turns := rest } = some t) :
    step s = .next t := by
  simp only [step, ht, hostStep, h, Option.getD_some]

theorem step_hwrite_refused {s : State} {addr : BitVec 14} {v : Word} {rest : List Turn}
    (ht : s.turns = .host (.hwrite addr v) :: rest) (h : hostWrite addr v { s with turns := rest } = none) :
    step s = .next { s with turns := rest, herr := true } := by
  simp only [step, ht, hostStep, h, Option.getD_none]

/-! ## While the engine runs (R105, R112) -/

/-- No engine step writes the instructions or the tables (R112). -/
theorem engineStep_keeps_code {s t : State} (h : engineStep s = .next t) : t.imem = s.imem ∧ t.tmem = s.tmem := by
  obtain ⟨-, ⟨tr, rfl⟩ | ⟨i, -, hf⟩⟩ | ⟨-, rfl⟩ := engineStep_cases h
  · exact ⟨rfl, rfl⟩
  · exact ⟨hf.imem, hf.tmem⟩
  · exact ⟨rfl, rfl⟩

/-- Settles O11, by the frame of an engine step and the reach of a host operation on a running engine. -/
theorem nothingWritesCodeWhileRunning : Obligations.NothingWritesCodeWhileRunning := by
  intro s t hs h
  by_cases hturn : s.EngineNext
  · rw [step_of_engineNext hturn] at h
    obtain ⟨himem, htmem⟩ := engineStep_keeps_code h
    exact ⟨himem, htmem, absurd hturn⟩
  · obtain ⟨op, hop⟩ := step_of_not_engineNext hturn
    obtain rfl : hostStep op s.turnTaken = t := by
      rw [hop] at h
      injection h
    obtain e | ⟨_, _, _, _, _, _, _, e⟩ := hostStep_of_running op (s := s.turnTaken) hs
    · rw [e]
      exact ⟨rfl, rfl, fun _ => ⟨rfl, .inl rfl⟩⟩
    · rw [e]
      exact ⟨rfl, rfl, fun _ => ⟨rfl, .inr ⟨rfl, rfl⟩⟩⟩

/-- Settles O57: a running engine answers no host operation but a read of ID, CTRL or STATUS and a write of CTRL. -/
theorem hostIsRefusedWhileRunning : Obligations.HostIsRefusedWhileRunning := by
  intro s addr v rest hs
  constructor
  · intro ht h0 h1 h2
    exact step_hread_refused ht (hostRead_of_running hs h0 h1 h2)
  · intro ht h1
    exact step_hwrite_refused ht (hostWrite_of_running hs h1)

/-! ## The memories (R104) -/

/-- An address at which the host reads word `word` of the memory `m`, and at which its store is put in place by `store`:
the step delivers that word, and it stores a memory that reads the word back and keeps every other byte (R107). -/
theorem step_slot {s : State} {addr : BitVec 14} {v : Word} {rest : List Turn} {m : Memory} {word : Nat}
    {store : Memory → State} (hread : hostRead addr { s with turns := rest } = some (m.readWord word))
    (hwrite : hostWrite addr v { s with turns := rest } = some (store (m.writeWord word v))) :
    (s.turns = .host (.hread addr) :: rest →
      step s = .next { s with turns := rest, hrdata := m.readWord word }) ∧
    (s.turns = .host (.hwrite addr v) :: rest →
      ∃ m' : Memory, m'.readWord word = v ∧ (∀ b, b / 4 ≠ word → m'.readByte b = m.readByte b) ∧
        step s = .next (store m')) :=
  ⟨fun ht => step_hread ht hread, fun ht => ⟨m.writeWord word v, by simp,
    fun b hb => m.readByte_writeWord_of_ne word b v hb, step_hwrite ht hwrite⟩⟩

/-- Settles O58: the window's table gives the slot of each address, and each slot its read and its write. -/
theorem hostReachesTheMemories : Obligations.HostReachesTheMemories := by
  intro s addr v rest a target word
  constructor
  · intro m hm hs
    by_cases himem : a < 0x0400
    · have htarget := windowTarget_imem himem
      obtain rfl : s.imem = m := by simpa [target, himem] using hm
      have hword : word = a := if_pos himem
      rw [hword]
      simp only [if_pos himem]
      exact step_slot (by simp only [hostRead, htarget, if_neg hs, a]) (by simp only [hostWrite, htarget, if_neg hs, a])
    by_cases htmem : 0x1000 ≤ a ∧ a < 0x2000
    · have htarget := windowTarget_tmem htmem.1 htmem.2
      obtain rfl : s.tmem = m := by simpa [target, himem, htmem] using hm
      have hword : word = a - 0x1000 := by simp [word, himem, htmem]
      rw [hword]
      simp only [if_neg himem, if_pos htmem.2]
      exact step_slot (by simp only [hostRead, htarget, if_neg hs, a]) (by simp only [hostWrite, htarget, if_neg hs, a])
    by_cases hdmem : 0x2000 ≤ a ∧ a < 0x3000
    · have htarget := windowTarget_dmem hdmem.1 hdmem.2
      obtain rfl : s.dmem = m := by simpa [target, himem, htmem, hdmem] using hm
      have hlow : ¬ a < 0x2000 := by omega
      have hword : word = a - 0x2000 := by simp [word, himem, hlow]
      rw [hword]
      simp only [if_neg himem, if_neg hlow]
      exact step_slot (by simp only [hostRead, htarget, if_neg hs, a]) (by simp only [hostWrite, htarget, if_neg hs, a])
    · simp [target, himem, htmem, hdmem] at hm
  · intro hout
    have htarget := windowTarget_unmapped hout
    exact ⟨fun ht => step_hread_refused ht (by simp only [hostRead, htarget]),
      fun ht => step_hwrite_refused ht (by simp only [hostWrite, htarget])⟩

/-! ## The CSR space (R48, R269, R270) -/

theorem csrOf_sdbase (st : StageNo) : csrOf (BitVec.ofNat 8 (0x20 + st.val)) = some (.sdbase st) := by
  revert st; decide
theorem csrOf_sdcfg (st : StageNo) : csrOf (BitVec.ofNat 8 (0x28 + st.val)) = some (.sdcfg st) := by
  revert st; decide
theorem csrOf_idx (st : StageNo) : csrOf (BitVec.ofNat 8 (0x30 + st.val)) = some (.idx st) := by
  revert st; decide
theorem csrOf_synmemWord (k : Fin 16) : csrOf (BitVec.ofNat 8 (0x40 + k.val)) = some (.synmem k) := by
  revert k; decide
theorem csrOf_scalar (i : SReg) : csrOf (BitVec.ofNat 8 (0x50 + i.val)) = some (.scalar i) := by
  revert i; decide
theorem csrOf_lane (i : VReg) (k : Fin 16) :
    csrOf (BitVec.ofNat 8 (0x80 + 16 * i.val + k.val)) = some (.lane i k) := by
  revert i k; decide +kernel

theorem State.flagsWord_eq (s : State) :
    s.flagsWord = BitVec.ofNat 32 (s.rf.toNat + 2 * s.sat.toNat + 4 * s.mf.toNat) := by
  unfold State.flagsWord
  cases s.rf <;> cases s.sat <;> cases s.mf <;> rfl

theorem State.statusWord_eq (s : State) :
    s.statusWord = BitVec.ofNat 32 (s.state.code.toNat + 16 * s.herr.toNat + 256 * s.irq.toNat) := by
  unfold State.statusWord
  cases s.state <;> cases s.herr <;> cases s.irq <;> rfl

/-- Whoever reads every assigned CSR through `readCsr` delivers the table of R269. -/
theorem State.csrReads_of_readCsr {s : State} {reads : Nat → Word → Prop}
    (h : ∀ n c, n < 256 → csrOf (BitVec.ofNat 8 n) = some c → reads n (readCsr c s)) : s.CsrReads reads := by
  have deliver {n : Nat} {w : Word} (hn : n < 256) (c : Csr) (hc : csrOf (BitVec.ofNat 8 n) = some c)
      (hw : w = readCsr c s) : reads n w := hw ▸ h n c hn hc
  have field {n k : Nat} {x : BitVec k} (hn : n < 256) (c : Csr) (hc : csrOf (BitVec.ofNat 8 n) = some c)
      (hw : x.setWidth 32 = readCsr c s) : reads n (BitVec.ofNat 32 x.toNat) :=
    deliver hn c hc ((BitVec.ofNat_toNat 32 x).trans hw)
  exact ⟨deliver (by decide) .id rfl rfl, deliver (by decide) .ctrl rfl rfl,
    deliver (by decide) .flags rfl s.flagsWord_eq.symm,
    field (by decide) .ien rfl rfl, field (by decide) .entry rfl rfl, field (by decide) .pc rfl rfl,
    field (by decide) .fcause rfl rfl, field (by decide) .fpc rfl rfl, deliver (by decide) .finfo rfl rfl,
    field (by decide) .order rfl rfl, field (by decide) .grid rfl rfl, deliver (by decide) .cdelta rfl rfl,
    field (by decide) .rootcnt rfl rfl, deliver (by decide) .wnum rfl rfl, deliver (by decide) .woff rfl rfl,
    field (by decide) .nstg rfl rfl,
    deliver (by decide) .cidxlo rfl (BitVec.eq_of_toNat_eq (by simp [readCsr])),
    deliver (by decide) .cidxhi rfl rfl,
    fun st => ⟨field (by omega) (.sdbase st) (csrOf_sdbase st) rfl, field (by omega) (.sdcfg st) (csrOf_sdcfg st) rfl,
      field (by omega) (.idx st) (csrOf_idx st) rfl⟩,
    fun k => deliver (by omega) (.synmem k) (csrOf_synmemWord k) rfl,
    fun i => deliver (by omega) (.scalar i) (csrOf_scalar i) rfl,
    fun i k => deliver (by omega) (.lane i k) (csrOf_lane i k) rfl⟩

/-- Whoever writes every writable CSR through `writeCsr` leaves the table of R270. -/
theorem State.csrWrites_of_writeCsr {s : State} {w : Word} {writes : Nat → State → Prop}
    (h : ∀ n c, n < 256 → csrOf (BitVec.ofNat 8 n) = some c → c.writable = true → writes n (writeCsr c w s)) :
    s.CsrWrites w writes := by
  exact ⟨h 0x03 .flags (by decide) rfl rfl, h 0x04 .ien (by decide) rfl rfl, h 0x05 .entry (by decide) rfl rfl,
    h 0x0A .order (by decide) rfl rfl, h 0x0B .grid (by decide) rfl rfl, h 0x0C .cdelta (by decide) rfl rfl,
    h 0x0E .wnum (by decide) rfl rfl, h 0x0F .woff (by decide) rfl rfl, h 0x10 .nstg (by decide) rfl rfl,
    fun st => ⟨h _ (.sdbase st) (by omega) (csrOf_sdbase st) rfl, h _ (.sdcfg st) (by omega) (csrOf_sdcfg st) rfl,
      h _ (.idx st) (by omega) (csrOf_idx st) rfl⟩,
    fun k => h _ (.synmem k) (by omega) (csrOf_synmemWord k) rfl,
    fun i => h _ (.scalar i) (by omega) (csrOf_scalar i) rfl,
    fun i k => h _ (.lane i k) (by omega) (csrOf_lane i k) rfl⟩

/-- The window address of CSR number `n` (R104). -/
theorem windowTarget_csrAddress {n : Nat} (hn : n < 256) :
    windowTarget (BitVec.ofNat 14 (0x0400 + n)) = .csr (BitVec.ofNat 8 n) :=
  windowTarget_csr hn (by rw [BitVec.toNat_ofNat]; omega)

/-- The turn of a step is no part of what a CSR read delivers (log 4). -/
theorem readCsr_setTurns (c : Csr) (s : State) (turns : List Turn) :
    readCsr c { s with turns := turns } = readCsr c s := by cases c <;> rfl

/-- The turn of a step is no part of what a CSR write changes (log 4). -/
theorem writeCsr_setTurns (c : Csr) (w : Word) (s : State) (turns : List Turn) :
    writeCsr c w { s with turns := turns } = { writeCsr c w s with turns := turns } := by cases c <;> rfl

theorem step_hread_csr {s : State} {n : Nat} {c : Csr} (rest : List Turn) (hn : n < 256)
    (hc : csrOf (BitVec.ofNat 8 n) = some c) (hs : s.state ≠ .running ∨ c.alwaysReadable = true) :
    step { s with turns := .host (.hread (BitVec.ofNat 14 (0x0400 + n))) :: rest } =
      .next { s with turns := rest, hrdata := readCsr c s } := by
  rw [← readCsr_setTurns c s rest]
  exact step_hread rfl (hostRead_csr (windowTarget_csrAddress hn) hc hs)

theorem step_hwrite_csr {s : State} {n : Nat} {c : Csr} (v : Word) (rest : List Turn) (hn : n < 256)
    (hc : csrOf (BitVec.ofNat 8 n) = some c) (hw : c.writable = true) (hs : s.state ≠ .running) :
    step { s with turns := .host (.hwrite (BitVec.ofNat 14 (0x0400 + n)) v) :: rest } =
      .next { writeCsr c v s with turns := rest } := by
  rw [← writeCsr_setTurns]
  exact step_hwrite rfl (hostWrite_csr (windowTarget_csrAddress hn) hc hw hs)

theorem step_hwrite_csr_refused {s : State} {n : Nat} (v : Word) (rest : List Turn) (hn : n < 256)
    (hno : ∀ c ∈ csrOf (BitVec.ofNat 8 n), c ≠ .ctrl ∧ c.writable = false) :
    step { s with turns := .host (.hwrite (BitVec.ofNat 14 (0x0400 + n)) v) :: rest } =
      .next { s with turns := rest, herr := true } :=
  step_hwrite_refused rfl <| hostWrite_csr_refused (windowTarget_csrAddress hn) fun c hc =>
    ⟨(hno c hc).1, .inr (hno c hc).2⟩

/-- Settles O60: the host reads and writes the CSR space through the one map that the program uses too, and R105 and
R321 say which accesses are refused. -/
theorem hostReachesTheCsrs : Obligations.HostReachesTheCsrs := by
  intro s v rest addr reads writes
  have always {n : Nat} (hn : n < 256) (c : Csr) (hc : csrOf (BitVec.ofNat 8 n) = some c)
      (hr : c.alwaysReadable = true) : reads n (readCsr c s) := step_hread_csr rest hn hc (.inr hr)
  refine ⟨⟨always (by decide) .id rfl rfl, always (by decide) .ctrl rfl rfl, ?_⟩, fun hs => ⟨?_, ?_⟩,
    fun n hn => ?_, fun n hn => ⟨?_, ?_⟩⟩
  · rw [← s.statusWord_eq]
    exact always (by decide) .status rfl rfl
  · exact s.csrReads_of_readCsr fun n c hn hc => step_hread_csr rest hn hc (.inl hs)
  · exact s.csrWrites_of_writeCsr fun n c hn hc hw => step_hwrite_csr v rest hn hc hw hs
  · obtain ⟨hlt, hno⟩ := csrReadOnly_not_writable n hn
    exact step_hwrite_csr_refused v rest hlt hno
  · exact step_hwrite_csr_refused v rest (by omega) (by simp [csrOf_of_unassigned hn])
  · exact step_hread_refused rfl <| hostRead_csr_refused (windowTarget_csrAddress (by omega))
      (by simp [csrOf_of_unassigned hn])

end Sys2Proof.Machine
end

section
/-! PROOF. Decode and encode are inverse, decoding is total, and an illegal word faults (`30_encoding.md` R131 to R141,
`60_exceptions.md` R330). The decoder is read through the opcode map: a word with the op of a row answers the row's
reserved-bit test with an instruction whose layout is the row's, and a word with no row's op is refused. -/

namespace Sys2Proof

open Machine

/-! ## The layout of a format (R132) -/

/-- The word of format `f` with this op and the operand fields of `w`, its reserved bits 0 (R132). -/
def Format.layout (f : Format) (op : BitVec 6) (w : Word) : Word :=
  match f with
  | .z => encodeZ op
  | .r1 => encodeR1 op (fieldA w)
  | .r2 => encodeR2 op (fieldA w) (fieldB w)
  | .r3 => encodeR3 op (fieldA w) (fieldB w) (fieldC w)
  | .r4 => encodeR4 op (fieldA w) (fieldB w) (fieldC w) (fieldD w)
  | .r5 => encodeR5 op (fieldA w) (fieldB w) (fieldC w) (fieldD w) (fieldE w)
  | .j => encodeJ op (fieldImm w)
  | .i => encodeI op (fieldA w) (fieldImm w)
  | .m => encodeM op (fieldA w) (fieldB w) (fieldImm w)
  | .k => encodeK op (fieldA w) (fieldCsr w)

/-- A word whose reserved bits of a format are 0 is the layout of its own op and fields. -/
theorem Format.layout_of_reserved {f : Format} {w : Word} (h : w &&& f.reserved = 0) :
    f.layout (fieldOp w) w = w := by
  cases f with
  | z => exact encodeZ_of_reserved h
  | r1 => exact encodeR1_of_reserved h
  | r2 => exact encodeR2_of_reserved h
  | r3 => exact encodeR3_of_reserved h
  | r4 => exact encodeR4_of_reserved h
  | r5 => exact encodeR5_of_reserved h
  | j => exact encodeJ_of_reserved h
  | i => exact encodeI_of_reserved h
  | m => exact encodeM_of_reserved h
  | k => exact encodeK_of_reserved h

/-! ## The op: assigned to one row, or reserved (R134, R135) -/

/-- The 26 reserved values of `op` (R135). -/
abbrev reservedOps : List Nat :=
  [0x0F, 0x1B, 0x1C, 0x1D, 0x1E, 0x1F, 0x23, 0x24, 0x25, 0x26, 0x27, 0x2D, 0x2E, 0x2F, 0x34, 0x35, 0x36, 0x37, 0x38,
    0x39, 0x3A, 0x3B, 0x3C, 0x3D, 0x3E, 0x3F]

theorem op_assigned_or_reserved : ∀ op : BitVec 6, (∃ row ∈ opcodeMap, op = row.op) ∨ op.toNat ∈ reservedOps := by
  decide +kernel

theorem opcodeMap_op_not_reserved : ∀ row ∈ opcodeMap, row.op.toNat ∉ reservedOps := by
  decide +kernel

/-! ## The decoder, op by op (R134 to R136) -/

/-- A word with the op of a row decodes as that row says: refused for a reserved bit of the row's format, or an
instruction whose word is the row's op with the fields of the word. -/
theorem decode_of_row {row : Row} (hmem : row ∈ opcodeMap) {w : Word} (hop : fieldOp w = row.op) :
    ∃ i, decode w = ifReservedClear w row.format i ∧ encode i = row.format.layout row.op w := by
  unfold decode
  rw [hop]
  fin_cases hmem <;> exact ⟨_, rfl, rfl⟩

theorem decode_of_reservedOp {w : Word} (h : (fieldOp w).toNat ∈ reservedOps) :
    decode w = .error (.reservedOpcode (fieldOp w)) := by
  unfold decode
  generalize (fieldOp w).toNat = op at h
  fin_cases h <;> rfl

/-- A word with the op of a row and a 1 in a reserved bit of its format is refused (R136). -/
theorem decode_of_reserved_set {row : Row} (hmem : row ∈ opcodeMap) {w : Word} (hop : fieldOp w = row.op)
    (h : w &&& row.format.reserved ≠ 0) : decode w = .error (.reservedBits row.format) := by
  obtain ⟨i, hdec, -⟩ := decode_of_row hmem hop
  rw [hdec, ifReservedClear_of_set h]

/-- A word with the op of a row and clear reserved bits is the word of the instruction it decodes to (R132, R136). -/
theorem decode_of_reserved_clear {row : Row} (hmem : row ∈ opcodeMap) {w : Word} (hop : fieldOp w = row.op)
    (h : w &&& row.format.reserved = 0) : ∃ i, decode w = .ok i ∧ encode i = w := by
  obtain ⟨i, hdec, henc⟩ := decode_of_row hmem hop
  refine ⟨i, by rw [hdec, ifReservedClear_of_clear h], ?_⟩
  rw [henc, ← hop, Format.layout_of_reserved h]

/-- R135 and R136 refuse a word: its op is reserved, or a reserved bit of its row's format is 1. -/
abbrev IllegalWord (w : Word) : Prop :=
  (fieldOp w).toNat ∈ reservedOps ∨ ∃ row ∈ opcodeMap, fieldOp w = row.op ∧ w &&& row.format.reserved ≠ 0

/-- Every word is legal, with a row's op and its reserved bits clear, or illegal (R138). -/
theorem legal_or_illegalWord (w : Word) :
    (∃ row ∈ opcodeMap, fieldOp w = row.op ∧ w &&& row.format.reserved = 0) ∨ IllegalWord w := by
  obtain ⟨row, hmem, hop⟩ | hres := op_assigned_or_reserved (fieldOp w)
  · by_cases h : w &&& row.format.reserved = 0
    · exact .inl ⟨row, hmem, hop, h⟩
    · exact .inr (.inr ⟨row, hmem, hop, h⟩)
  · exact .inr (.inl hres)

theorem decode_of_illegalWord {w : Word} (h : IllegalWord w) : ∃ e, decode w = .error e := by
  obtain hres | ⟨row, hmem, hop, hset⟩ := h
  · exact ⟨_, decode_of_reservedOp hres⟩
  · exact ⟨_, decode_of_reserved_set hmem hop hset⟩

/-- No row of the opcode map matches an illegal word: a matching row would be the row of its op. -/
theorem not_matches_of_illegalWord {w : Word} (h : IllegalWord w) :
    ∀ row ∈ opcodeMap, w &&& row.mask ≠ row.pattern := by
  intro row hmem hmatch
  obtain ⟨hop, hclear⟩ := (Row.matches_iff row w).1 hmatch
  obtain hres | ⟨row', hmem', hop', hset⟩ := h
  · exact opcodeMap_op_not_reserved row hmem (hop ▸ hres)
  · obtain rfl := opcodeMap_op_injective row hmem row' hmem' (hop.symm.trans hop')
    exact hset hclear

/-! ## The obligations of the encoding -/

/-- Settles O1: one case per format, in which the decoder finds the op, the fields and clear reserved bits that the
encoder laid out. -/
theorem decodeInvertsEncode : Obligations.DecodeInvertsEncode := by
  intro i
  cases i
  case nop | halt => simp [encode, decode, fieldOp_encodeZ, ifReservedClear_of_clear (reserved_encodeZ _)]
  case vzero | synrd | synwr | vqdec =>
    simp [encode, decode, fieldOp_encodeR1, fieldA_encodeR1, ifReservedClear_of_clear (reserved_encodeR1 ..)]
  case vld | vst | vmov | lsproot | lsppoly | lspmrg | vqw | vqa | vqenc =>
    simp [encode, decode, fieldOp_encodeR2, fieldA_encodeR2, fieldB_encodeR2,
      ifReservedClear_of_clear (reserved_encodeR2 ..)]
  case add | sub | mulq | vadd | vsub | vqs | bwx =>
    simp [encode, decode, fieldOp_encodeR3, fieldA_encodeR3, fieldB_encodeR3, fieldC_encodeR3,
      ifReservedClear_of_clear (reserved_encodeR3 ..)]
  case vlerp | syn =>
    simp [encode, decode, fieldOp_encodeR4, fieldA_encodeR4, fieldB_encodeR4, fieldC_encodeR4, fieldD_encodeR4,
      ifReservedClear_of_clear (reserved_encodeR4 ..)]
  case fir | iir =>
    simp [encode, decode, fieldOp_encodeR5, fieldA_encodeR5, fieldB_encodeR5, fieldC_encodeR5, fieldD_encodeR5,
      fieldE_encodeR5, ifReservedClear_of_clear (reserved_encodeR5 ..)]
  case bra =>
    simp [encode, decode, fieldOp_encodeJ, fieldImm_encodeJ, ifReservedClear_of_clear (reserved_encodeJ ..)]
  case li | lih | bnz | bz | bfs | bfc =>
    simp [encode, decode, fieldOp_encodeI, fieldA_encodeI, fieldImm_encodeI,
      ifReservedClear_of_clear (reserved_encodeI ..)]
  case addi | ldw | stw =>
    simp [encode, decode, fieldOp_encodeM, fieldA_encodeM, fieldB_encodeM, fieldImm_encodeM,
      ifReservedClear_of_clear (reserved_encodeM ..)]
  case csrr | csrw =>
    simp [encode, decode, fieldOp_encodeK, fieldA_encodeK, fieldCsr_encodeK,
      ifReservedClear_of_clear (reserved_encodeK ..)]

/-- Settles O2: a word that decodes has the op of a row and its reserved bits clear. -/
theorem encodeInvertsDecode : Obligations.EncodeInvertsDecode := by
  intro w i h
  obtain ⟨row, hmem, hop, hclear⟩ | hillegal := legal_or_illegalWord w
  · obtain ⟨j, hdec, henc⟩ := decode_of_reserved_clear hmem hop hclear
    obtain rfl : j = i := by simpa [hdec] using h
    exact henc
  · obtain ⟨e, he⟩ := decode_of_illegalWord hillegal
    simp [he] at h

/-- Settles O3: the test of a row asks for its op and clear reserved bits, and no two rows share an op. -/
theorem decodingIsTotal : Obligations.DecodingIsTotal := by
  intro w
  obtain ⟨row, hmem, hop, hclear⟩ | hillegal := legal_or_illegalWord w
  · obtain ⟨i, hdec, -⟩ := decode_of_reserved_clear hmem hop hclear
    refine .inl ⟨row, hmem, (Row.matches_iff row w).2 ⟨hop, hclear⟩, fun row' hmem' hmatch => ?_, i, hdec⟩
    have hop' : fieldOp w = row'.op := ((Row.matches_iff row' w).1 hmatch).1
    exact opcodeMap_op_injective row' hmem' row hmem (hop'.symm.trans hop)
  · exact .inr ⟨not_matches_of_illegalWord hillegal, decode_of_illegalWord hillegal⟩

/-- Settles O4: the decoder evaluated on the sixteen words of R141. -/
theorem workedEncodingsDecode : Obligations.WorkedEncodingsDecode := by
  unfold Obligations.WorkedEncodingsDecode
  decide +kernel

/-! ## The fault of an illegal word (R330) -/

/-- Fetch and decode raise IllegalInstruction for a word the decoder refuses (R255, R330). -/
theorem fetchInstr_of_decode_error {s : State} {e : DecodeError} (hp : s.pc.toNat < Config.imemWords)
    (h : decode (s.imem.readWord s.pc.toNat) = .error e) :
    fetchInstr s = .error (.illegalInstruction (s.imem.readWord s.pc.toNat)) := by
  simp only [fetchInstr, fetchWord, if_neg (Nat.not_le.2 hp), h]

/-- A running engine takes the fault of fetch and decode on the state as it was (R255, R314). -/
theorem engineStep_of_fetch_error {s : State} {t : Trap} (hs : s.state = .running) (h : fetchInstr s = .error t) :
    engineStep s = .next (takeFault t s) := by
  simp only [engineStep, if_pos hs, h]

/-- IllegalInstruction is cause 1, with the word in FINFO (R311, R330). -/
theorem takeFault_illegalInstruction (w : Word) (s : State) :
    takeFault (.illegalInstruction w) s = s.withFault 1 w.toNat := by
  simp [takeFault, recordFault, Trap.code, Trap.info, State.withFault]

/-- Settles O8: the decoder refuses the word, whatever the rest of the state holds, and the fault is taken. -/
theorem illegalWordsFault : Obligations.IllegalWordsFault := by
  intro s w hturn hrun hpc hword hillegal
  subst hword
  obtain ⟨e, hdec⟩ := decode_of_illegalWord hillegal
  calc step s = engineStep s.turnTaken := step_of_engineNext hturn
    _ = .next (takeFault (.illegalInstruction (s.imem.readWord s.pc.toNat)) s.turnTaken) :=
      engineStep_of_fetch_error hrun (fetchInstr_of_decode_error hpc hdec)
    _ = .next (s.turnTaken.withFault 1 (s.imem.readWord s.pc.toNat).toNat) := by
      rw [takeFault_illegalInstruction]

end Sys2Proof
end

section
/-! PROOF. The LSP unit (`40_lsp_transform.md` R160 to R168): the engine's cosine, the search of LSPROOT as a rule for
each root, the exact coefficients of LSPPOLY, and what the two walks of LSPMRG guarantee. -/

namespace Sys2Proof.Machine

open Sys2Proof

/-! ## The cosine (R160) -/

theorem cosfx_of_le {t : Int} (h0 : 0 ≤ t) (h : t ≤ 32768) : cosfx t = cosQuadrant t := by
  rw [cosfx, clampAngle_of_range h0 (by omega), if_neg (by omega)]

theorem cosfx_of_gt {t : Int} (h : 32768 < t) (h1 : t ≤ 65536) : cosfx t = -cosQuadrant (65536 - t) := by
  rw [cosfx, clampAngle_of_range (by omega) h1, if_pos (by omega)]

@[simp] theorem cosfx_zero : cosfx 0 = 65536 := by decide
@[simp] theorem cosfx_half : cosfx 32768 = 0 := by decide
@[simp] theorem cosfx_pi : cosfx 65536 = -65536 := by decide

/-- An angle above pi/2 is reflected by definition, pi/2 is its own reflection, and one below is the reflection of one
above. -/
theorem cosfx_reflect {t : Int} (h0 : 0 ≤ t) (h1 : t ≤ 65536) : cosfx (65536 - t) = -cosfx t := by
  rcases lt_trichotomy t 32768 with h | rfl | h
  · rw [cosfx_of_gt (by omega) (by omega), cosfx_of_le h0 (by omega), sub_sub_cancel]
  · decide
  · rw [cosfx_of_le (by omega) (by omega), cosfx_of_gt h h1, neg_neg]

theorem cosfx_of_neg {t : Int} (h : t < 0) : cosfx t = 65536 := by
  rw [cosfx, clampAngle, if_pos h]
  exact cosfx_zero

theorem cosfx_of_pi_lt {t : Int} (h : t > 65536) : cosfx t = -65536 := by
  rw [cosfx, clampAngle, if_neg (show ¬ t < 0 by omega), if_pos h]
  exact cosfx_pi

/-- Settles O38: the quadrant's polynomial with its shifts read as floors, its end values, and the reflection. -/
theorem cosineIsAntisymmetric : Obligations.CosineIsAntisymmetric := by
  refine ⟨fun t h0 h => ?_, cosfx_zero, cosfx_half, cosfx_pi, fun _ => cosfx_reflect, abs_cosfx_le,
    fun _ => cosfx_of_neg, fun _ => cosfx_of_pi_lt⟩
  rw [cosfx_of_le h0 h]
  rfl

/-! ## One search of LSPROOT (R163, R164) -/

/-- The search of R164 for one root of the polynomial `c`, from the angle `start` over the grid points from `first`
on: the first sign change lies in `cell`, and `root` is bisected there. -/
structure CellRule (c : Nat → Int) (m g : Nat) (delta : Int) (start first cell root : Nat) : Prop where
  first_le : first ≤ cell
  cell_le : cell ≤ g
  same : ∀ k, first ≤ k → k < cell → SameSign c m start (gridPoint g k)
  change : ¬ SameSign c m start (gridPoint g cell)
  bisected : BisectionRule c m delta (if cell = first then start else gridPoint g (cell - 1)) (gridPoint g cell) root

theorem gridPoint_mono (g : Nat) {i j : Nat} (h : i ≤ j) : gridPoint g i ≤ gridPoint g j :=
  Nat.div_le_div_right (Nat.mul_le_mul_right _ h)

theorem BisectionRule.left_le {c : Nat → Int} {m left right root : Nat} {delta : Int}
    (h : BisectionRule c m delta left right root) : left ≤ root := by
  obtain ⟨n, lo, hi, -, -, -, hlo, hlt, -, -, -, rfl⟩ := h
  omega

theorem BisectionRule.lt_right {c : Nat → Int} {m left right root : Nat} {delta : Int}
    (h : BisectionRule c m delta left right root) : root < right := by
  obtain ⟨n, lo, hi, -, -, -, -, hlt, hhi, -, -, rfl⟩ := h
  omega

/-- A search that starts below its first grid point finds no root before its start (R165). -/
theorem CellRule.start_le {c : Nat → Int} {m g start first cell root : Nat} {delta : Int}
    (h : CellRule c m g delta start first cell root) (hs : start ≤ gridPoint g first) : start ≤ root := by
  have hleft := h.bisected.left_le
  split_ifs at hleft with hc
  · exact hleft
  · have := h.first_le
    exact (hs.trans (gridPoint_mono g (by omega))).trans hleft

/-- Every root is below the upper end of its cell, from which the next search goes on. -/
theorem CellRule.root_lt {c : Nat → Int} {m g start first cell root : Nat} {delta : Int}
    (h : CellRule c m g delta start first cell root) : root < gridPoint g cell := h.bisected.lt_right

/-- A walk over the cells from `k` on that finds a root follows the rule (R164). -/
theorem cellRule_of_findRoot {c : Nat → Int} {m g delta k tl root cell : Nat} (hg : 1 ≤ g) (hg' : g ≤ 1024)
    (hd : 1 ≤ delta) (htl : tl < gridPoint g k)
    (h : findRoot (halfCoefs c m) g delta (g + 1 - k) k tl (evalPoly (halfCoefs c m) tl) = some (root, cell)) :
    CellRule c m g delta tl k cell root := by
  obtain ⟨hfirst, hcell, hsame, hchange, l, hl, hroot⟩ := findRoot_some h
  have hsame' (i : Nat) (h1 : k ≤ i) (h2 : i < cell) : SameSign c m tl (gridPoint g i) :=
    (neg_eq_neg_iff c m _ _).1 (hsame i h1 h2)
  have hchange' : ¬ SameSign c m tl (gridPoint g cell) := fun e => hchange ((neg_eq_neg_iff c m _ _).2 e)
  refine ⟨hfirst, by omega, hsame', hchange', ?_⟩
  have hlt : l < gridPoint g cell ∧ ¬ SameSign c m l (gridPoint g cell) := by
    by_cases hc : cell = k
    · obtain rfl : l = tl := by rw [hl, if_pos hc]
      exact ⟨hc ▸ htl, hchange'⟩
    · obtain rfl : l = gridPoint g (cell - 1) := by rw [hl, if_neg hc]
      have hnext := gridPoint_lt (k := cell - 1) hg hg'
      rw [show cell - 1 + 1 = cell by omega] at hnext
      exact ⟨hnext, fun e => hchange' ((hsame' (cell - 1) (by omega) (by omega)).trans e)⟩
  have hpi := gridPoint_le hg (show cell ≤ g by omega)
  rw [← hl, hroot]
  exact bisectionRule c m delta 17 l (gridPoint g cell) hd hlt.1 (by omega) hlt.2

/-! ## All searches of LSPROOT (R164, R165) -/

/-- What search `j` takes over from search `j - 1`; search 0 takes `x0`. -/
def takenOver (x0 : Nat) (x : Nat → Nat) (j : Nat) : Nat := if j = 0 then x0 else x (j - 1)

/-- The searches of R164 for `todo` roots, root `j` in the polynomial `c j`, from the angle `tl` and the grid point `k`
on; `cell j` is where root `j` was found. -/
structure SearchRule (c : Nat → Nat → Int) (m g : Nat) (delta : Int) (todo tl k : Nat) (roots : List Nat)
    (cell : Nat → Nat) : Prop where
  found : ∀ (j : Nat) (h : j < roots.length),
    CellRule (c j) m g delta (takenOver tl (fun i => roots.getD i 0) j) (takenOver k cell j) (cell j) roots[j]
  stopped : roots.length < todo → ∀ i, takenOver k cell roots.length ≤ i → i ≤ g →
    SameSign (c roots.length) m (takenOver tl (fun i => roots.getD i 0) roots.length) (gridPoint g i)

/-- One root, and after it the searches that go on from its cell. -/
theorem SearchRule.cons {c : Nat → Nat → Int} {m g todo tl k root cell0 : Nat} {delta : Int} {roots : List Nat}
    {cell : Nat → Nat} (h0 : CellRule (c 0) m g delta tl k cell0 root)
    (h : SearchRule (fun j => c (j + 1)) m g delta todo root cell0 roots cell) :
    SearchRule c m g delta (todo + 1) tl k (root :: roots) (fun j => j.casesOn cell0 cell) := by
  have start (j : Nat) : takenOver tl (fun i => (root :: roots).getD i 0) (j + 1) =
      takenOver root (fun i => roots.getD i 0) j := by cases j <;> rfl
  have first (j : Nat) : takenOver k (fun j => j.casesOn cell0 cell) (j + 1) = takenOver cell0 cell j := by
    cases j <;> rfl
  constructor
  · rintro (_ | j) hj
    · exact h0
    · rw [start, first]
      exact h.found j (by simpa using hj)
  · intro hlt
    rw [List.length_cons, start, first]
    exact h.stopped (by simpa using hlt)

/-- The model's searches, F and G in turn, follow the rule (R164). -/
theorem exists_searchRule_findRoots {g delta : Nat} (m todo : Nat) (hg : 1 ≤ g) (hg' : g ≤ 1024) (hd : 1 ≤ delta)
    {c : Nat → Nat → Int} (hc : ∀ j, c (j + 2) = c j) {tl k : Nat} (htl : tl < gridPoint g k) :
    ∃ cell, SearchRule c m g delta todo tl k
      (findRoots g delta todo (halfCoefs (c 0) m) (halfCoefs (c 1) m) tl k) cell := by
  induction todo generalizing c tl k with
  | zero => exact ⟨fun _ => 0, fun j h => absurd h j.not_lt_zero, fun h => absurd h (Nat.not_lt_zero _)⟩
  | succ todo ih =>
    rw [findRoots]
    split
    next hnone =>
      refine ⟨fun _ => 0, fun j h => absurd h j.not_lt_zero, fun _ i h1 h2 => ?_⟩
      exact (neg_eq_neg_iff (c 0) m _ _).1 (findRoot_none hnone h1 (by omega))
    next root cell0 hsome =>
      have h0 := cellRule_of_findRoot hg hg' hd htl hsome
      obtain ⟨cell, hrest⟩ := ih (c := fun j => c (j + 1)) (fun j => hc (j + 1)) h0.root_lt
      rw [show c (1 + 1) = c 0 from hc 0] at hrest
      exact ⟨_, .cons h0 hrest⟩

/-- Each search starts below its first grid point, so the roots do not fall (R165). -/
theorem SearchRule.le_next {c : Nat → Nat → Int} {m g todo tl k : Nat} {delta : Int} {roots : List Nat}
    {cell : Nat → Nat} (h : SearchRule c m g delta todo tl k roots cell) (j : Nat) (hj : j + 1 < roots.length) :
    roots[j] ≤ roots[j + 1] := by
  have hstart : takenOver tl (fun i => roots.getD i 0) (j + 1) = roots[j] :=
    List.getD_eq_getElem _ _ (by omega)
  have hnext := h.found (j + 1) hj
  rw [hstart] at hnext
  exact hnext.start_le (h.found j (by omega)).root_lt.le

theorem SearchRule.le_pi {c : Nat → Nat → Int} {m g todo tl k : Nat} {delta : Int} {roots : List Nat}
    {cell : Nat → Nat} (h : SearchRule c m g delta todo tl k roots cell) (hg : 1 ≤ g) :
    ∀ root ∈ roots, root ≤ 65536 := by
  intro root hmem
  obtain ⟨j, hj, rfl⟩ := List.getElem_of_mem hmem
  have hcell := h.found j hj
  exact hcell.root_lt.le.trans (gridPoint_le hg hcell.cell_le)

/-- The polynomial of search `j`: F for even `j`, G for odd `j` (R164). -/
def inTurn (f g : Nat → Int) (j : Nat) : Nat → Int := if j % 2 = 0 then f else g

/-- The roots of LSPROOT are those of the rule's searches (R161 to R164). -/
theorem State.exists_searchRule_lspRoots (s : State) (a : VReg) (hg : 1 ≤ s.grid.toNat) (hg' : s.grid.toNat ≤ 1024) :
    ∃ cell, SearchRule (inTurn (symCoef (s.laneInt a) s.p) (antiCoef (s.laneInt a) s.p)) (s.p / 2) s.grid.toNat
      (max 1 s.cdelta.toInt) s.p 0 1 (s.lspRoots a) cell := by
  have hfirst : 0 < gridPoint s.grid.toNat 1 := (Nat.zero_le _).trans_lt (gridPoint_lt (k := 0) hg hg')
  have hturn (f g : Nat → Int) (j : Nat) : inTurn f g (j + 2) = inTurn f g j := by
    rw [inTurn, inTurn, Nat.add_mod_right]
  have h := exists_searchRule_findRoots (delta := (max 1 s.cdelta.toInt).toNat) (s.p / 2) s.p hg hg' (by omega)
    (hturn (symCoef (s.laneInt a) s.p) (antiCoef (s.laneInt a) s.p)) hfirst
  rwa [Int.toNat_of_nonneg (by omega)] at h

theorem State.length_lspRoots_le (s : State) (a : VReg) : (s.lspRoots a).length ≤ s.p :=
  length_findRoots_le ..

/-- Settles O40: the searches follow the rule one by one, each from the cell of the one before. -/
theorem rootsIsolateSignChanges : Obligations.RootsIsolateSignChanges := by
  intro a s _ hg hg'
  obtain ⟨cell, h⟩ := s.exists_searchRule_lspRoots a hg hg'
  refine ⟨_, _, cell, halfCoefficientsRule _ _, s.length_lspRoots_le a, fun j hj => ?_, h.stopped, h.le_next,
    h.le_pi hg⟩
  obtain ⟨hfirst, hcell, hsame, hchange, hbisected⟩ := h.found j hj
  exact ⟨hfirst, hcell, hsame, hchange, hbisected⟩

/-! ## Active and inactive lanes (R43) -/

theorem Lanes.update_active (x : Lanes) (f : Nat → Word) {p : Nat} {k : Fin 16} (h : k.val < p) :
    (x.update 0 p f)[k] = f k.val :=
  (Lanes.getElem_update x 0 p f k.val k.isLt).trans (if_pos ⟨k.val.zero_le, h⟩)

theorem Lanes.update_inactive (x : Lanes) (f : Nat → Word) {p : Nat} {k : Fin 16} (h : p ≤ k.val) :
    (x.update 0 p f)[k] = x[k] :=
  (Lanes.getElem_update x 0 p f k.val k.isLt).trans (if_neg fun hr => absurd hr.2 h.not_gt)

/-! ## LSPROOT (R164) -/

theorem gridTrap_eq_none_iff (s : State) : gridTrap s = none ↔ 1 ≤ s.grid.toNat ∧ s.grid.toNat ≤ 1024 := by
  simp only [gridTrap, ite_eq_right_iff, reduceCtorEq, imp_false]; omega

/-- With a legal ORDER and GRID, LSPROOT completes (R164). -/
theorem exec_lsproot_of_legal {s : State} (d a : VReg) (hp : s.EvenOrderLegal) (hg : 1 ≤ s.grid.toNat)
    (hg' : s.grid.toNat ≤ 1024) : exec (.lsproot d a) s = .next (s.putRoots d (s.lspRoots a)).advance := by
  change execLsproot d a s = _
  rw [execLsproot, (evenOrderTrap_eq_none_iff s).2 hp, (gridTrap_eq_none_iff s).2 ⟨hg, hg'⟩]
  rfl

theorem State.putRoots_of_lt (s : State) (d : VReg) {roots : List Nat} (h : roots.length < s.p) :
    s.putRoots d roots = { s with rootcnt := BitVec.ofNat 5 roots.length, rf := true } := by
  rw [State.putRoots, if_neg h.ne, decide_eq_true h.ne]
  rfl

/-- The destination of LSPROOT once all its roots are found (R164). -/
def State.rootLanes (s : State) (d : VReg) (roots : List Nat) : Lanes :=
  (s.vec d).update 0 s.p fun k => BitVec.ofNat 32 (roots.getD k 0)

theorem State.putRoots_of_eq (s : State) (d : VReg) {roots : List Nat} (h : roots.length = s.p) :
    s.putRoots d roots =
      { s with v := s.v.set d (s.rootLanes d roots), rootcnt := BitVec.ofNat 5 s.p, rf := false } := by
  rw [State.putRoots, if_pos h, decide_eq_false (not_not.2 h), h]
  rfl

theorem toInt_ofNat_of_le_pi {n : Nat} (h : n ≤ 65536) : (BitVec.ofNat 32 n).toInt = n := by
  rw [← BitVec.ofInt_natCast]
  exact toInt_ofInt_of_range (by unfold minWord; omega) (by unfold maxWord; omega)

/-- Settles O39: the two ways LSPROOT ends, by the number of roots; a root is an angle, so it fits its lane. -/
theorem lsprootReportsItsCount : Obligations.LsprootReportsItsCount := by
  intro d a s hp hg hg'
  have hexec := exec_lsproot_of_legal d a hp hg hg'
  refine ⟨s.length_lspRoots_le a, fun hlt => ?_, fun heq => ⟨s.rootLanes d (s.lspRoots a), ?_, fun k hk => ?_,
    fun k hk => ?_⟩⟩
  · rw [hexec, s.putRoots_of_lt d hlt]
    rfl
  · rw [hexec, s.putRoots_of_eq d heq]
    rfl
  · obtain ⟨cell, h⟩ := s.exists_searchRule_lspRoots a hg hg'
    have hle := h.le_pi hg _ (List.getElem_mem hk)
    have hlane : (s.rootLanes d (s.lspRoots a))[k] = BitVec.ofNat 32 ((s.lspRoots a).getD k 0) :=
      Lanes.update_active _ _ (hk.trans_eq heq)
    rw [hlane, List.getD_eq_getElem _ _ hk, toInt_ofNat_of_le_pi hle]
    rfl
  · exact Lanes.update_inactive _ _ hk

/-! ## LSPPOLY (R166) -/

theorem State.putSatLanes_of_not_clamps (s : State) (d : VReg) {p : Nat} {f : Nat → Int}
    (h : ∀ k, clamps (f k) = false) : s.putSatLanes d 0 p f = s.putLanes d 0 p fun k => sat32 (f k) := by
  have hsat := s.sat_putSatLanes_of_not_clamps d 0 p f fun k _ _ => h k
  calc s.putSatLanes d 0 p f
      = { s.putLanes d 0 p fun k => sat32 (f k) with sat := (s.putSatLanes d 0 p f).sat } := rfl
    _ = s.putLanes d 0 p fun k => sat32 (f k) := by rw [hsat]; rfl

/-- The exact coefficient that LSPPOLY computes for lane `k - 1` (R166). -/
def State.lspCoef (s : State) (a : VReg) : Nat → Int :=
  polyCoef (expand s.p (cosinesFrom s a 0)) (expand s.p (cosinesFrom s a 1))

theorem State.not_clamps_lspCoef (s : State) (a : VReg) (hp : s.p ≤ 16) (k : Nat) : clamps (s.lspCoef a k) = false :=
  clamps_polyCoef s a hp k

/-- With a legal ORDER, LSPPOLY completes without clamping (R166). -/
theorem exec_lsppoly_of_legal {s : State} (d a : VReg) (hp : s.EvenOrderLegal) :
    exec (.lsppoly d a) s = .next (s.putLanes d 0 s.p fun k => sat32 (s.lspCoef a (k + 1))).advance := by
  change execLsppoly d a s = _
  rw [execLsppoly, (evenOrderTrap_eq_none_iff s).2 hp, finish_none,
    ← s.putSatLanes_of_not_clamps d fun k => s.not_clamps_lspCoef a hp.2.1 (k + 1)]
  rfl

/-- The model's coefficient in terms of any expansions that agree with the model's (R166). -/
theorem State.lspCoef_succ {s : State} {a : VReg} {pp qp : Nat → Int}
    (hpp : ∀ k, k ≤ s.p → pp k = (expand s.p (cosinesFrom s a 0)).getD k 0)
    (hqp : ∀ k, k ≤ s.p → qp k = (expand s.p (cosinesFrom s a 1)).getD k 0) {k : Nat} (hk : k < s.p) :
    s.lspCoef a (k + 1) = (pp (k + 1) + pp k + qp (k + 1) - qp k + 1) / 2 := by
  rw [hpp _ hk, hpp _ hk.le, hqp _ hk, hqp _ hk.le]
  rfl

/-- Settles O41: the model's expansions follow the rule's recurrence, and their coefficients fit a word. -/
theorem lsppolyNeverSaturates : Obligations.LsppolyNeverSaturates := by
  intro d a s hp
  obtain ⟨pp, hpp, hpp'⟩ := exists_expansionRule (fun i => cosfx (s.laneInt a (2 * i))) (s.p / 2) s.p
  obtain ⟨qp, hqp, hqp'⟩ := exists_expansionRule (fun i => cosfx (s.laneInt a (2 * i + 1))) (s.p / 2) s.p
  refine ⟨_, pp, qp, exec_lsppoly_of_legal d a hp, hpp, hqp, fun k hk => ?_, fun k hk => Lanes.update_inactive _ _ hk⟩
  have hlane : ((s.vec d).update 0 s.p fun k => sat32 (s.lspCoef a (k + 1)))[k] = sat32 (s.lspCoef a (k.val + 1)) :=
    Lanes.update_active _ _ hk
  rw [hlane, toInt_sat32, clamp32_of_not_clamps (s.not_clamps_lspCoef a hp.2.1 _)]
  exact State.lspCoef_succ (hpp' _ le_rfl) (hqp' _ le_rfl) hk

/-! ## The margin (R167, R168) -/

/-- The lanes `xs` are in `[m, 65536 - m]` and at least `m` apart (R168). -/
structure Settled (m : Int) (xs : List Int) : Prop where
  low : ∀ k, k < xs.length → m ≤ xs.getD k 0
  high : ∀ k, k < xs.length → xs.getD k 0 ≤ 65536 - m
  apart : ∀ k, k + 1 < xs.length → xs.getD k 0 + m ≤ xs.getD (k + 1) 0

/-- The upward walk lifts lane `k` to `(k + 1) m` at least (R168). -/
theorem mul_le_getD_upwardWalk (m : Int) (xs : List Int) {k : Nat} (hk : k < xs.length) :
    (k + 1) * m ≤ (upwardWalk m m xs).getD k 0 := by
  have h := getD_upwardWalk m m xs hk
  induction k with
  | zero => rw [if_pos rfl] at h; push_cast; omega
  | succ k ih =>
    have := ih (by omega) (getD_upwardWalk m m xs (by omega))
    rw [if_neg (by omega), Nat.add_sub_cancel] at h
    push_cast
    linarith [le_max_right (xs.getD (k + 1) 0) ((upwardWalk m m xs).getD k 0 + m)]

theorem getD_enforceMargin_last (m : Int) (xs : List Int) {k : Nat} (hk : k + 1 = xs.length) :
    (enforceMargin m xs).getD k 0 = min ((upwardWalk m m xs).getD k 0) (65536 - m) := by
  rw [getD_enforceMargin m xs (by omega), if_neg (by omega)]

theorem getD_enforceMargin_of_lt (m : Int) (xs : List Int) {k : Nat} (hk : k + 1 < xs.length) :
    (enforceMargin m xs).getD k 0 =
      min ((upwardWalk m m xs).getD k 0) ((enforceMargin m xs).getD (k + 1) 0 - m) := by
  rw [getD_enforceMargin m xs (by omega), if_pos hk]

theorem list_ext_getD {xs ys : List Int} (hlen : xs.length = ys.length)
    (h : ∀ k, k < xs.length → xs.getD k 0 = ys.getD k 0) : xs = ys := by
  refine List.ext_getElem hlen fun k hk hk' => ?_
  rw [← List.getD_eq_getElem _ 0 hk, ← List.getD_eq_getElem _ 0 hk', h k hk]

/-- Induction from the last of `n` lanes down. -/
theorem down_induction {n : Nat} {P : Nat → Prop} (last : ∀ k, k + 1 = n → P k)
    (step : ∀ k, k + 1 < n → P (k + 1) → P k) {k : Nat} (hk : k < n) : P k :=
  Nat.decreasingInduction' (P := P) (m := k) (n := n - 1) (fun k hk _ => step k (by omega)) (by omega)
    (last _ (by omega))

/-- With room for all lanes, the downward walk leaves `(k + 1) m` at least in lane `k` (R168). -/
theorem mul_le_getD_enforceMargin {m : Int} {xs : List Int} (hroom : (xs.length + 1) * m ≤ 65536) {k : Nat}
    (hk : k < xs.length) : (k + 1) * m ≤ (enforceMargin m xs).getD k 0 := by
  refine down_induction (P := fun k => (k + 1) * m ≤ (enforceMargin m xs).getD k 0) (fun k hk => ?_)
    (fun k hk ih => ?_) hk
  · rw [getD_enforceMargin_last m xs hk]
    rw [← hk] at hroom
    push_cast at hroom
    exact le_min (mul_le_getD_upwardWalk m xs (by omega)) (by linarith)
  · rw [getD_enforceMargin_of_lt m xs hk]
    push_cast at ih
    exact le_min (mul_le_getD_upwardWalk m xs (by omega)) (by linarith)

theorem getD_enforceMargin_le {m : Int} {xs : List Int} (hm : 0 ≤ m) {k : Nat} (hk : k < xs.length) :
    (enforceMargin m xs).getD k 0 ≤ 65536 - m := by
  refine down_induction (P := fun k => (enforceMargin m xs).getD k 0 ≤ 65536 - m) (fun k hk => ?_)
    (fun k hk ih => ?_) hk
  · rw [getD_enforceMargin_last m xs hk]
    exact min_le_right _ _
  · rw [getD_enforceMargin_of_lt m xs hk]
    omega

/-- What LSPMRG leaves is settled (R168). -/
theorem settled_enforceMargin {m : Int} {xs : List Int} (hm : 1 ≤ m) (hroom : (xs.length + 1) * m ≤ 65536) :
    Settled m (enforceMargin m xs) := by
  constructor <;> simp only [length_enforceMargin]
  · intro k hk
    exact (le_mul_of_one_le_left (by omega) (by omega)).trans (mul_le_getD_enforceMargin hroom hk)
  · exact fun k hk => getD_enforceMargin_le (by omega) hk
  · intro k hk
    have := getD_enforceMargin_of_lt m xs hk
    omega

/-- The upward walk moves no lane of a settled vector. -/
theorem Settled.getD_upwardWalk {m : Int} {xs : List Int} (h : Settled m xs) {k : Nat} (hk : k < xs.length) :
    (upwardWalk m m xs).getD k 0 = xs.getD k 0 := by
  induction k with
  | zero =>
    rw [Machine.getD_upwardWalk m m xs hk, if_pos rfl]
    exact max_eq_left (h.low 0 hk)
  | succ k ih =>
    rw [Machine.getD_upwardWalk m m xs hk, if_neg k.succ_ne_zero, Nat.add_sub_cancel, ih (by omega)]
    exact max_eq_left (h.apart k hk)

/-- LSPMRG leaves a settled vector as it is (R168). -/
theorem Settled.enforceMargin_eq {m : Int} {xs : List Int} (h : Settled m xs) : enforceMargin m xs = xs := by
  refine list_ext_getD (length_enforceMargin m xs) fun k hk => ?_
  rw [length_enforceMargin] at hk
  refine down_induction (P := fun k => (enforceMargin m xs).getD k 0 = xs.getD k 0) (fun k hk => ?_)
    (fun k hk ih => ?_) hk
  · rw [getD_enforceMargin_last m xs hk, h.getD_upwardWalk (by omega)]
    exact min_eq_left (h.high k (by omega))
  · rw [getD_enforceMargin_of_lt m xs hk, h.getD_upwardWalk (by omega), ih]
    exact min_eq_left (by linarith [h.apart k hk])

/-- A lane that meets the constraints against its final neighbours keeps its value: the downward walk does not lower
it, and if the upward walk lifted it, the final lane before would be too near (R168). -/
theorem getD_enforceMargin_of_fits {m : Int} {xs : List Int} {k : Nat} (hk : k < xs.length)
    (hbelow : if k = 0 then m ≤ xs.getD k 0 else (enforceMargin m xs).getD (k - 1) 0 + m ≤ xs.getD k 0)
    (habove : xs.getD k 0 ≤ if k + 1 < xs.length then (enforceMargin m xs).getD (k + 1) 0 - m else 65536 - m) :
    (enforceMargin m xs).getD k 0 = xs.getD k 0 := by
  have hup := getD_upwardWalk m m xs hk
  have hdown := getD_enforceMargin m xs hk
  rcases k with _ | k
  · rw [if_pos rfl] at hbelow hup
    omega
  · have hprev := getD_enforceMargin_of_lt m xs hk
    rw [if_neg k.succ_ne_zero, Nat.add_sub_cancel] at hbelow hup
    omega

/-! ## LSPMRG (R167, R168) -/

@[simp] theorem State.length_activeInts (s : State) (d : VReg) : (s.activeInts d).length = s.p := by
  simp [State.activeInts]

theorem State.getD_activeInts (s : State) (d : VReg) {k : Nat} (hk : k < s.p) :
    (s.activeInts d).getD k 0 = s.laneInt d k := by
  rw [List.getD_eq_getElem _ _ (by simpa using hk)]
  simp [State.activeInts]

theorem State.getD_activeInts_fin (s : State) (d : VReg) {k : Fin 16} (hk : k.val < s.p) :
    (s.activeInts d).getD k 0 = s.lane d k := by
  rw [s.getD_activeInts d hk, State.laneInt, Lanes.int, Lanes.word_fin]
  rfl

theorem marginTrap_eq_none_iff (s : State) (rm : SReg) :
    marginTrap s rm = none ↔ 1 ≤ (s.reg rm).toInt ∧ (s.p + 1) * (s.reg rm).toInt ≤ 65536 := by
  simp only [marginTrap, ite_eq_right_iff, reduceCtorEq, imp_false, not_or, not_lt, gt_iff_lt]

/-- The active lanes after both walks with the margin `m` (R167). -/
def State.spread (s : State) (d : VReg) (m : Int) : List Int := enforceMargin m (s.activeInts d)

/-- The vector that LSPMRG writes (R167). -/
def State.spreadLanes (s : State) (d : VReg) (m : Int) : Lanes :=
  (s.vec d).update 0 s.p fun k => BitVec.ofInt 32 ((s.spread d m).getD k 0)

/-- The state after a completed LSPMRG with the margin `m` (R167). -/
def State.afterSpread (s : State) (d : VReg) (m : Int) : State :=
  { s with
    v := s.v.set d (s.spreadLanes d m)
    mf := decide (s.spread d m ≠ s.activeInts d)
    pc := s.pc + 1 }

/-- With a legal ORDER and margin, LSPMRG completes (R167). -/
theorem exec_lspmrg_of_legal {s : State} (d : VReg) (rm : SReg) (hp : s.OrderLegal) (hm : s.MarginLegal rm) :
    exec (.lspmrg d rm) s = .next (s.afterSpread d s.r[rm].toInt) := by
  change execLspmrg d rm s = _
  rw [execLspmrg, (orderTrap_eq_none_iff s).2 hp, (marginTrap_eq_none_iff s rm).2 hm]
  rfl

theorem State.settled_spread {s : State} {rm : SReg} (d : VReg) (hm : s.MarginLegal rm) :
    Settled s.r[rm].toInt (s.spread d s.r[rm].toInt) :=
  settled_enforceMargin hm.1 (by rw [s.length_activeInts]; exact hm.2)

theorem State.length_spread (s : State) (d : VReg) (m : Int) : (s.spread d m).length = s.p := by
  rw [State.spread, length_enforceMargin, s.length_activeInts]

/-- What both walks leave in a lane fits the word that is written (R167). -/
theorem State.toInt_spreadLanes {s : State} {rm : SReg} (d : VReg) (hm : s.MarginLegal rm) {k : Fin 16}
    (hk : k.val < s.p) : (s.spreadLanes d s.r[rm].toInt)[k].toInt = (s.spread d s.r[rm].toInt).getD k 0 := by
  have hlane : (s.spreadLanes d s.r[rm].toInt)[k] = BitVec.ofInt 32 ((s.spread d s.r[rm].toInt).getD k 0) :=
    Lanes.update_active _ _ hk
  have hk' := hk.trans_eq (s.length_spread d s.r[rm].toInt).symm
  have hlow := (State.settled_spread d hm).low k hk'
  have hhigh := (State.settled_spread d hm).high k hk'
  have hm1 := hm.1
  rw [hlane, toInt_ofInt_of_range (by unfold minWord; omega) (by unfold maxWord; omega)]

/-- The vector is unchanged exactly if no active lane moved (R167). -/
theorem State.spreadLanes_eq_iff {s : State} {rm : SReg} (d : VReg) (hp : s.OrderLegal) (hm : s.MarginLegal rm) :
    s.spreadLanes d s.r[rm].toInt = s.v[d] ↔ s.spread d s.r[rm].toInt = s.activeInts d := by
  constructor <;> intro h
  · refine list_ext_getD ((s.length_spread d _).trans (s.length_activeInts d).symm) fun k hk => ?_
    have hk : k < s.p := hk.trans_eq (s.length_spread d _)
    obtain ⟨k, rfl⟩ : ∃ i : Fin 16, k = i.val := ⟨⟨k, hk.trans_le hp.2⟩, rfl⟩
    rw [← State.toInt_spreadLanes d hm hk, s.getD_activeInts_fin d hk, h]
  · refine Lanes.update_self _ _ _ _ fun k _ _ hk => ?_
    rw [h, s.getD_activeInts d hk]
    exact BitVec.ofInt_toInt

/-- On settled lanes LSPMRG changes nothing but MF and PC (R168). -/
theorem exec_lspmrg_of_settled {s : State} (d : VReg) (rm : SReg) (hp : s.OrderLegal) (hm : s.MarginLegal rm)
    (hs : Settled s.r[rm].toInt (s.activeInts d)) :
    exec (.lspmrg d rm) s = .next { s with mf := false, pc := s.pc + 1 } := by
  have hkept : s.spread d s.r[rm].toInt = s.activeInts d := hs.enforceMargin_eq
  rw [exec_lspmrg_of_legal d rm hp hm, State.afterSpread, (State.spreadLanes_eq_iff d hp hm).2 hkept,
    decide_eq_false (not_not.2 hkept), Fin.getElem_fin, Vector.set_getElem_self]

theorem State.lane_afterSpread {s : State} {rm : SReg} (d : VReg) (hm : s.MarginLegal rm) {k : Fin 16}
    (hk : k.val < s.p) : (s.afterSpread d s.r[rm].toInt).lane d k = (s.spread d s.r[rm].toInt).getD k 0 := by
  have hvec : (s.afterSpread d s.r[rm].toInt).v[d] = s.spreadLanes d s.r[rm].toInt := Vector.getElem_set_self _
  rw [State.lane, hvec, State.toInt_spreadLanes d hm hk]

theorem State.activeInts_afterSpread {s : State} {rm : SReg} (d : VReg) (hp : s.OrderLegal) (hm : s.MarginLegal rm) :
    (s.afterSpread d s.r[rm].toInt).activeInts d = s.spread d s.r[rm].toInt := by
  have hlen : ((s.afterSpread d s.r[rm].toInt).activeInts d).length = s.p :=
    (s.afterSpread d s.r[rm].toInt).length_activeInts d
  refine list_ext_getD (hlen.trans (s.length_spread d _).symm) fun k hk => ?_
  rw [hlen] at hk
  obtain ⟨k, rfl⟩ : ∃ i : Fin 16, k = i.val := ⟨⟨k, hk.trans_le hp.2⟩, rfl⟩
  rw [(s.afterSpread d s.r[rm].toInt).getD_activeInts_fin d hk, State.lane_afterSpread d hm hk]

/-- Settles O42: the recurrences of the two walks, read through the word that each lane is written as. -/
theorem lspmrgReportsMoves : Obligations.LspmrgReportsMoves := by
  intro d rm s hp hm
  have hlen : (s.activeInts d).length = s.order.toNat := s.length_activeInts d
  refine ⟨_, _, fun k => (upwardWalk s.r[rm].toInt s.r[rm].toInt (s.activeInts d)).getD k 0,
    exec_lspmrg_of_legal d rm hp hm, fun k hk => ?_, fun k hk => ?_, fun k hk => Lanes.update_inactive _ _ hk, ?_⟩
  · rw [← s.getD_activeInts_fin d hk]
    exact getD_upwardWalk _ _ _ (hk.trans_eq hlen.symm)
  · rw [State.toInt_spreadLanes d hm hk, State.spread, getD_enforceMargin _ _ (hk.trans_eq hlen.symm), hlen]
    congr 1
    by_cases hnext : k.val + 1 < s.order.toNat
    · have hlt := hnext.trans_le hp.2
      rw [if_pos hnext, dif_pos ⟨hnext, hlt⟩]
      exact congrArg (· - _) (State.toInt_spreadLanes d hm (k := ⟨k.val + 1, hlt⟩) hnext).symm
    · rw [if_neg hnext, dif_neg fun h => hnext h.1]
  · rw [decide_eq_true_iff, Ne, Ne, State.spreadLanes_eq_iff d hp hm]

/-- Settles O43: the lanes that LSPMRG leaves are settled, and a settled vector is kept. -/
theorem marginIsEnforced : Obligations.MarginIsEnforced := by
  intro d rm s hp hm
  have hsettled := State.settled_spread d hm
  have hlen : (s.spread d s.r[rm].toInt).length = s.order.toNat := s.length_spread d _
  have hlane {k : Fin 16} (hk : k.val < s.order.toNat) := State.lane_afterSpread d hm hk
  refine ⟨_, exec_lspmrg_of_legal d rm hp hm, fun k hk16 hk => ?_, fun k hk => ?_, ?_, fun k hk hbelow habove => ?_⟩
  · rw [hlane (k := ⟨k.val + 1, hk16⟩) hk, hlane (k := k) (by omega)]
    linarith [hsettled.apart k.val (hk.trans_eq hlen.symm)]
  · rw [hlane hk]
    exact ⟨hsettled.low k.val (hk.trans_eq hlen.symm), hsettled.high k.val (hk.trans_eq hlen.symm)⟩
  · exact exec_lspmrg_of_settled d rm hp hm ((State.activeInts_afterSpread d hp hm).symm ▸ hsettled)
  · have hlen' : (s.activeInts d).length = s.order.toNat := s.length_activeInts d
    rw [hlane hk, ← s.getD_activeInts_fin d hk]
    rw [← s.getD_activeInts_fin d hk] at hbelow habove
    refine getD_enforceMargin_of_fits (hk.trans_eq hlen'.symm) ?_ ?_
    · split_ifs at hbelow ⊢ with h0
      · exact hbelow
      · rw [hlane (k := ⟨k.val - 1, _⟩) (show k.val - 1 < s.order.toNat by omega)] at hbelow
        exact Int.add_le_of_le_sub_left hbelow
    · rw [hlen']
      by_cases hnext : k.val + 1 < s.order.toNat
      · have hlt := hnext.trans_le hp.2
        rw [dif_pos ⟨hnext, hlt⟩, hlane (k := ⟨k.val + 1, hlt⟩) hnext] at habove
        rw [if_pos hnext]
        exact le_sub_comm.1 habove
      · rw [dif_neg fun h => hnext h.1] at habove
        rwa [if_neg hnext]

end Sys2Proof.Machine
end

section
/-! PROOF. The packed compound index (`41_vector_quantizer.md` R199): the active stages are packed one after another,
each moving what is packed already up by its own IBITS, so the fields are read back by induction on their number. -/

namespace Sys2Proof.Machine

open Sys2Proof

/-! ## The active stages (R62) -/

theorem stagesBelow_succ : ∀ st : StageNo, stagesBelow (st.val + 1) = stagesBelow st.val ++ [st] := by decide

theorem stagesBelow_min (n : Nat) : stagesBelow (min n 8) = stagesBelow n :=
  List.filter_congr fun st _ => by simp

theorem mem_stagesBelow {n : Nat} {st : StageNo} : st ∈ stagesBelow n ↔ st.val < n := by simp [stagesBelow]

theorem nodup_stagesBelow (n : Nat) : (stagesBelow n).Nodup := (List.nodup_finRange 8).filter _

/-! ## Packing fields of given widths -/

/-- The fields `val` of the widths `bits` of the first `n` stages, packed as CIDX packs them (R199). -/
def packedFields (bits val : StageNo → Nat) (n : Nat) : Nat :=
  (stagesBelow n).foldl (fun v st => v * 2 ^ bits st + val st % 2 ^ bits st) 0

/-- CIDX before it is cut at bit 64 (R199). -/
theorem State.cidx_eq (s : State) :
    s.cidx = packedFields (fun st => (s.desc st).ibits) s.idxNat (min s.nstg.toNat 8) % 2 ^ 64 := by
  rw [packedFields, stagesBelow_min]
  rfl

theorem packedFields_succ (bits val : StageNo → Nat) (st : StageNo) :
    packedFields bits val (st.val + 1) = packedFields bits val st.val * 2 ^ bits st + val st % 2 ^ bits st := by
  rw [packedFields, stagesBelow_succ, List.foldl_concat]
  rfl

/-- Without its last field, the packed number is that of the stages before. -/
theorem packedFields_succ_div (bits val : StageNo → Nat) (st : StageNo) :
    packedFields bits val (st.val + 1) / 2 ^ bits st = packedFields bits val st.val := by
  rw [packedFields_succ, mul_comm, Nat.mul_add_div (Nat.two_pow_pos _),
    Nat.div_eq_of_lt (Nat.mod_lt _ (Nat.two_pow_pos _)), add_zero]

theorem packedFields_succ_mod (bits val : StageNo → Nat) (st : StageNo) :
    packedFields bits val (st.val + 1) % 2 ^ bits st = val st % 2 ^ bits st := by
  rw [packedFields_succ, Nat.mul_add_mod_self_right, Nat.mod_mod]

/-- A sum over some of the stages up to `st`, the last of them taken out. -/
theorem sum_stages_succ (P : StageNo → Prop) [DecidablePred P] (bits : StageNo → Nat) (st : StageNo) :
    (∑ u : StageNo, if P u ∧ u.val < st.val + 1 then bits u else 0) =
      (∑ u : StageNo, if P u ∧ u.val < st.val then bits u else 0) + if P st then bits st else 0 := by
  have hlast : (∑ u : StageNo, if st = u then (if P u then bits u else 0) else 0) = if P st then bits st else 0 := by
    rw [Finset.sum_ite_eq, if_pos (Finset.mem_univ st)]
  rw [← hlast, ← Finset.sum_add_distrib]
  refine Finset.sum_congr rfl fun u _ => ?_
  obtain hlt | rfl | hgt := lt_trichotomy u st
  · simp [hlt, hlt.ne', Nat.lt_succ_of_lt hlt]
  · simp
  · simp [hgt.ne, hgt.not_gt, hgt.not_ge]

/-- The packed fields take the sum of their widths. -/
theorem packedFields_lt (bits val : StageNo → Nat) {n : Nat} (hn : n ≤ 8) :
    packedFields bits val n < 2 ^ ∑ u : StageNo, if u.val < n then bits u else 0 := by
  induction n with
  | zero => simp [packedFields, stagesBelow]
  | succ n ih =>
    have hsum := sum_stages_succ (fun _ => True) bits ⟨n, hn⟩
    simp only [true_and, if_true] at hsum
    rw [packedFields_succ bits val ⟨n, hn⟩, hsum, pow_add]
    have hfield := Nat.mod_lt (val ⟨n, hn⟩) (Nat.two_pow_pos (bits ⟨n, hn⟩))
    calc packedFields bits val n * 2 ^ bits ⟨n, hn⟩ + val ⟨n, hn⟩ % 2 ^ bits ⟨n, hn⟩
        < (packedFields bits val n + 1) * 2 ^ bits ⟨n, hn⟩ := by rw [add_mul, one_mul]; omega
      _ ≤ _ := Nat.mul_le_mul_right _ (ih (by omega))

/-- Above the bits of the later stages stands the field of stage `st` (R199). -/
theorem packedFields_field (bits val : StageNo → Nat) {n : Nat} (hn : n ≤ 8) {st : StageNo} (hst : st.val < n) :
    packedFields bits val n / 2 ^ (∑ u : StageNo, if st < u ∧ u.val < n then bits u else 0) % 2 ^ bits st =
      val st % 2 ^ bits st := by
  induction n with
  | zero => exact absurd hst (Nat.not_lt_zero _)
  | succ n ih =>
    obtain hlt | heq := Nat.lt_succ_iff_lt_or_eq.1 hst
    · have hsum := sum_stages_succ (fun u => st < u) bits ⟨n, hn⟩
      rw [if_pos (show st < ⟨n, hn⟩ from hlt)] at hsum
      rw [hsum, pow_add, Nat.mul_comm, ← Nat.div_div_eq_div_mul, packedFields_succ_div bits val ⟨n, hn⟩]
      exact ih (by omega) hlt
    · obtain rfl : st = ⟨n, hn⟩ := Fin.ext heq
      have hnone : (∑ u : StageNo, if (⟨n, hn⟩ : StageNo) < u ∧ u.val < n + 1 then bits u else 0) = 0 :=
        Finset.sum_eq_zero fun u _ => if_neg fun h => absurd h.2 (Nat.succ_le_of_lt h.1).not_gt
      rw [hnone, pow_zero, Nat.div_one, packedFields_succ_mod bits val ⟨n, hn⟩]

/-! ## The cut at bit 64 -/

/-- A field of `b` bits read above bit `below` of a number cut at bit 64, as far as it lies below bit 64. -/
theorem mod_two_pow_field {N x b : Nat} (below : Nat) (h : N / 2 ^ below % 2 ^ b = x % 2 ^ b) :
    N % 2 ^ 64 / 2 ^ below % 2 ^ min b (64 - below) = x % 2 ^ min b (64 - below) := by
  obtain hle | hgt := le_total below 64
  · have hdvd : 2 ^ min b (64 - below) ∣ 2 ^ b := pow_dvd_pow 2 (min_le_left _ _)
    have hcut : N % 2 ^ 64 / 2 ^ below = N / 2 ^ below % 2 ^ (64 - below) := by
      rw [← Nat.mod_mul_right_div_self, ← pow_add, Nat.add_sub_cancel' hle]
    calc N % 2 ^ 64 / 2 ^ below % 2 ^ min b (64 - below)
        = N / 2 ^ below % 2 ^ min b (64 - below) := by
          rw [hcut, Nat.mod_mod_of_dvd _ (pow_dvd_pow 2 (min_le_right _ _))]
      _ = N / 2 ^ below % 2 ^ b % 2 ^ min b (64 - below) := (Nat.mod_mod_of_dvd _ hdvd).symm
      _ = x % 2 ^ min b (64 - below) := by rw [h, Nat.mod_mod_of_dvd _ hdvd]
  · simp [Nat.sub_eq_zero_of_le hgt, Nat.mod_one]

/-- Settles O25: the packed fields by induction on the number of active stages, then the cut at bit 64. -/
theorem cidxPacksStageZeroFirst : Obligations.CidxPacksStageZeroFirst := by
  intro s n bits total below kept
  have hn : n ≤ 8 := min_le_right _ _
  have hcidx : s.cidx = packedFields bits s.idxNat n % 2 ^ 64 := s.cidx_eq
  rw [hcidx]
  refine ⟨?_, fun st hst => mod_two_pow_field (below st) (packedFields_field bits s.idxNat hn hst)⟩
  obtain hle | hgt := le_total total 64
  · rw [min_eq_left hle]
    exact (Nat.mod_le _ _).trans_lt (packedFields_lt bits s.idxNat hn)
  · rw [min_eq_right hgt]
    exact Nat.mod_lt _ (Nat.two_pow_pos _)

end Sys2Proof.Machine
end

section
/-! PROOF. The weights of VQW and one stage of the encoder and of the decoder (`41_vector_quantizer.md` R192 to R196):
the model's lanes, spacings and distances are those of the rules. -/

namespace Sys2Proof.Machine

open Sys2Proof

/-! ## VQW (R194) -/

theorem takeFault_badOrder (s : State) : takeFault (.badOrder s.order) s = s.withFault 5 s.order.toNat := by
  rw [takeFault, State.withFault, Trap.info, ← BitVec.ofNat_toNat]
  rfl

theorem State.laneInt_fin (s : State) (i : VReg) (k : Fin 16) : s.laneInt i k.val = s.lane i k :=
  congrArg BitVec.toInt (Lanes.word_fin (s.vec i) k)

theorem exec_vqw_of_legal {s : State} (d a : VReg) (hp : s.OrderLegal) :
    exec (.vqw d a) s = .next (s.putLanes d 0 s.p fun k => BitVec.ofInt 32 (vqWeight s a k)).advance := by
  change execVqw d a s = _
  rw [execVqw, (orderTrap_eq_none_iff s).2 hp]
  rfl

theorem exec_vqw_of_illegal {s : State} (d a : VReg) (hp : ¬ s.OrderLegal) :
    exec (.vqw d a) s = .next (s.withFault 5 s.order.toNat) := by
  have hp' : ¬ (1 ≤ s.p ∧ s.p ≤ 16) := hp
  change execVqw d a s = _
  rw [execVqw, orderTrap_of_illegal (by omega), finish_some, takeFault_badOrder]

/-- A weight fits its lane (R194). -/
theorem toInt_ofInt_vqWeight (s : State) (a : VReg) (k : Nat) :
    (BitVec.ofInt 32 (vqWeight s a k)).toInt = vqWeight s a k := by
  have hnonneg : ∀ den : Int, 0 ≤ (s.wnum.toNat : Int) / if den < 1 then 1 else den := fun den =>
    Int.ediv_nonneg (Int.natCast_nonneg _) (by split_ifs <;> omega)
  refine toInt_ofInt_of_range ?_ ?_
  · exact le_min (by decide) (le_trans (by decide) (hnonneg _))
  · exact (min_le_left _ _).trans (by decide)

/-- The weight by the two spacings of a line, the outer neighbours being 0 and pi (R194). -/
theorem vqWeight_fin (s : State) (a : VReg) (hp : s.p ≤ 16) {k : Fin 16} (hk : k.val < s.p) :
    vqWeight s a k.val = min 65535 ((s.wnum.toNat : Int) / max 1 (s.woff.toInt + min
      (if _h : k.val = 0 then s.lane a k else s.lane a k - s.lane a ⟨k.val - 1, by omega⟩)
      (if h : k.val + 1 < s.p ∧ k.val + 1 < 16 then s.lane a ⟨k.val + 1, h.2⟩ - s.lane a k
        else 65536 - s.lane a k))) := by
  have hmax (den : Int) : (if den < 1 then 1 else den) = max 1 den := by split_ifs <;> omega
  have hlow : (if k.val = 0 then s.laneInt a 0 else s.laneInt a k.val - s.laneInt a (k.val - 1)) =
      if _h : k.val = 0 then s.lane a k else s.lane a k - s.lane a ⟨k.val - 1, by omega⟩ := by
    split_ifs with h
    · rw [← h, s.laneInt_fin]
    · rw [s.laneInt_fin, ← s.laneInt_fin a ⟨k.val - 1, by omega⟩]
  have hhigh : (if k.val = s.p - 1 then 65536 - s.laneInt a k.val else s.laneInt a (k.val + 1) - s.laneInt a k.val) =
      if h : k.val + 1 < s.p ∧ k.val + 1 < 16 then s.lane a ⟨k.val + 1, h.2⟩ - s.lane a k
        else 65536 - s.lane a k := by
    by_cases hnext : k.val + 1 < s.p
    · rw [if_neg (by omega), dif_pos ⟨hnext, hnext.trans_le hp⟩, s.laneInt_fin,
        ← s.laneInt_fin a ⟨k.val + 1, hnext.trans_le hp⟩]
    · rw [if_pos (by omega), dif_neg fun h => hnext h.1, s.laneInt_fin]
  rw [vqWeight, hmax, hlow, hhigh]

/-- Settles O44: VQW completes with the weights of its lanes, each of which fits a word. -/
theorem vqwWeighsBySpacing : Obligations.VqwWeighsBySpacing := by
  intro d a s
  refine ⟨rfl, fun hp => ⟨_, exec_vqw_of_legal d a hp, fun k hk => ?_, fun k hk => Lanes.update_inactive _ _ hk⟩,
    exec_vqw_of_illegal d a⟩
  rw [Lanes.update_active _ _ (p := s.p) hk, toInt_ofInt_vqWeight]
  exact vqWeight_fin s a hp.2 hk

/-! ## The lanes of a stage (R192) -/

theorem sat32_eq_ofInt_saturated (v : Int) : sat32 v = BitVec.ofInt 32 (saturated v) :=
  congrArg (BitVec.ofInt 32) (clamp32_eq_max_min v)

theorem getElem_update_sat32 (x : Lanes) (lo hi : Nat) (f : Nat → Int) (k : Fin 16) :
    (x.update lo hi fun k => sat32 (f k))[k] =
      if lo ≤ k.val ∧ k.val < hi then BitVec.ofInt 32 (saturated (f k.val)) else x[k] := by
  rw [← sat32_eq_ofInt_saturated]
  exact Lanes.getElem_update _ _ _ _ _ k.isLt

/-- When a saturating write of lanes sets SAT, in the terms of R8. -/
theorem sat_putSatLanes_iff_outOfRange (s : State) (i : VReg) {lo hi : Nat} (f : Nat → Int) (h : hi ≤ 16) :
    (s.putSatLanes i lo hi f).sat = true ↔
      s.sat = true ∨ ∃ k : Fin 16, lo ≤ k.val ∧ k.val < hi ∧ OutOfRange (f k.val) := by
  rw [State.sat_putSatLanes_iff _ _ _ _ _ h]
  refine or_congr_right ⟨fun ⟨k, hlo, hhi, hc⟩ => ?_, fun ⟨k, hlo, hhi, hc⟩ => ⟨k.val, hlo, hhi, (clamps_iff _).2 hc⟩⟩
  exact ⟨⟨k, hhi.trans_le h⟩, hlo, hhi, (clamps_iff _).1 hc⟩

theorem State.StageLegal.hi_le {s : State} {st : StageNo} (h : s.StageLegal st) (hp : s.OrderLegal) :
    (s.desc st).off + (s.desc st).len ≤ 16 := le_trans h.1 hp.2

/-- The sum over a window of the sixteen lanes is the sum over the window's own numbering. -/
theorem sum_lanes_window (g : Nat → Int) {off len : Nat} (h : off + len ≤ 16) :
    (∑ k : Fin 16, if off ≤ k.val ∧ k.val < off + len then g k.val else 0) =
      ((List.range len).map fun j => g (off + j)).sum := by
  have hwindow : (Finset.range 16).filter (fun k => off ≤ k ∧ k < off + len) = Finset.Ico off (off + len) := by
    ext k
    simp only [Finset.mem_filter, Finset.mem_range, Finset.mem_Ico]
    omega
  rw [Fin.sum_univ_eq_sum_range (fun k => if off ≤ k ∧ k < off + len then g k else 0) 16, ← Finset.sum_filter,
    hwindow, Finset.sum_Ico_eq_sum_range, Nat.add_sub_cancel_left]
  rfl

/-- The model's distance is that of R192. -/
theorem State.dist_eq_distance {s : State} (d w : VReg) {st : StageNo}
    (h : (s.desc st).off + (s.desc st).len ≤ 16) (e : Nat) :
    s.dist (s.desc st) (s.vec d) (s.vec w) e = s.distance d w st e := by
  simp only [State.distance, ← s.laneInt_fin]
  rw [sum_lanes_window (fun k => (if (s.desc st).wen then max 0 (min 65535 (s.laneInt w k)) else 1) *
    (max (-131071) (min 131071 (s.laneInt d k - s.element st e (k - (s.desc st).off)))) ^ 2) h]
  simp only [Nat.add_sub_cancel_left, pow_two, ← mul_assoc]
  rfl

/-! ## VQS and VQA (R195, R196) -/

theorem exec_vqs_of_legal {s : State} (d w : VReg) {st : StageNo} (hp : s.OrderLegal) (hst : s.StageLegal st) :
    exec (.vqs d w st) s = .next (s.encodeStage d w st).advance := by
  change execVqs d w st s = _
  rw [execVqs, (orderTrap_eq_none_iff s).2 hp, Option.none_or, (stageTrap_eq_none_iff s st).2 hst]
  rfl

theorem exec_vqa_of_legal {s : State} (d : VReg) {st : StageNo} (hp : s.OrderLegal) (hst : s.StageLegal st)
    (hi : s.IndexLegal st) : exec (.vqa d st) s = .next (s.decodeStage d st).advance := by
  change execVqa d st s = _
  rw [execVqa, (orderTrap_eq_none_iff s).2 hp, (stageTrap_eq_none_iff s st).2 hst, (idxTrap_eq_none_iff s st).2 hi]
  rfl

/-- Settles O45: VQS is one encoder stage, whose search answers the first nearest entry. -/
theorem vqsSubtractsTheNearestEntry : Obligations.VqsSubtractsTheNearestEntry := by
  intro d w st s hp hst lo hi
  have hhi : hi ≤ 16 := hst.hi_le hp
  obtain ⟨hlt, hmin, hfirst⟩ := s.search_spec st (s.vec d) (s.vec w)
  simp only [State.dist_eq_distance d w hhi] at hmin hfirst
  refine ⟨_, _, _, exec_vqs_of_legal d w hp hst, hlt, hmin, hfirst, fun k => ?_, ?_⟩
  · rw [← s.laneInt_fin]
    exact getElem_update_sat32 _ _ _ _ _
  · simp only [← s.laneInt_fin]
    exact sat_putSatLanes_iff_outOfRange _ _ _ hhi

/-- Settles O46: VQA is one decoder stage. -/
theorem vqaAddsTheIndexedEntry : Obligations.VqaAddsTheIndexedEntry := by
  intro d st s hp hst hidx lo hi entry
  have hhi : hi ≤ 16 := hst.hi_le hp
  refine ⟨_, _, exec_vqa_of_legal d hp hst hidx, fun k => ?_, ?_⟩
  · rw [← s.laneInt_fin]
    exact getElem_update_sat32 _ _ _ _ _
  · simp only [← s.laneInt_fin]
    exact sat_putSatLanes_iff_outOfRange _ _ _ hhi

end Sys2Proof.Machine
end

section
/-! PROOF. The all-stage instructions (`41_vector_quantizer.md` R197, R198, R200): each is its one-stage instructions in
turn, and what the encoder took off a vector the decoder puts together again. -/

namespace Sys2Proof.Machine

open Sys2Proof

/-! ## Runs of one-stage instructions -/

/-- The one-stage instructions `instr` complete with the effect `f` wherever `ok` holds, whatever PC is, and the effect
keeps `ok`. -/
structure RunsStage (instr : StageNo → Instr) (f : State → StageNo → State) (ok : State → StageNo → Prop) : Prop where
  completes : ∀ s st, ok s st → exec (instr st) s = .next (f s st).advance
  ignores_pc : ∀ s pc st, f { s with pc := pc } st = { f s st with pc := pc }
  keeps : ∀ s st u, ok s u → ok (f s st).advance u

theorem RunsStage.foldl_pc {instr : StageNo → Instr} {f : State → StageNo → State} {ok : State → StageNo → Prop}
    (h : RunsStage instr f ok) (l : List StageNo) (s : State) (pc : BitVec 16) :
    l.foldl f { s with pc := pc } = { l.foldl f s with pc := pc } := by
  induction l generalizing s with
  | nil => rfl
  | cons st l ih => rw [List.foldl_cons, List.foldl_cons, h.ignores_pc, ih]

/-- Instructions of stages executed in turn have the effects of the stages in turn, up to PC. -/
theorem RunsStage.execAll_map {instr : StageNo → Instr} {f : State → StageNo → State} {ok : State → StageNo → Prop}
    (h : RunsStage instr f ok) (l : List StageNo) {s : State} (hok : ∀ st ∈ l, ok s st) :
    ∃ pc, execAll (l.map instr) s = some { l.foldl f s with pc := pc } := by
  induction l generalizing s with
  | nil => exact ⟨s.pc, rfl⟩
  | cons st l ih =>
    obtain ⟨pc, hrest⟩ := ih (s := (f s st).advance) fun u hu => h.keeps s st u (hok u (List.mem_cons_of_mem st hu))
    refine ⟨pc, ?_⟩
    rw [List.map_cons, execAll, h.completes s st (hok st List.mem_cons_self)]
    exact hrest.trans (congrArg (fun t : State => some { t with pc := pc }) (h.foldl_pc l (f s st) _))

theorem runsStage_vqs (d w : VReg) :
    RunsStage (Instr.vqs d w) (State.encodeStage d w) fun s st => s.OrderLegal ∧ s.StageLegal st where
  completes _ _ := fun ⟨hp, hst⟩ => exec_vqs_of_legal d w hp hst
  ignores_pc _ _ _ := rfl
  keeps _ _ _ h := h

theorem runsStage_vqa (d : VReg) :
    RunsStage (Instr.vqa d) (State.decodeStage d) fun s st => s.OrderLegal ∧ s.StageLegal st ∧ s.IndexLegal st where
  completes _ _ := fun ⟨hp, hst, hidx⟩ => exec_vqa_of_legal d hp hst hidx
  ignores_pc _ _ _ := rfl
  keeps _ _ _ h := h

/-! ## VQENC and VQDEC (R197, R198) -/

/-- All active stages encoded (R197). -/
def State.encoded (d w : VReg) (s : State) : State := s.stages.foldl (State.encodeStage d w) s

/-- The active lanes of `V[i]` cleared, as VZERO does (`45_vector_memory.md` R295). -/
def State.cleared (i : VReg) (s : State) : State := s.putLanes i 0 s.p fun _ => 0

/-- All active stages decoded (R198). -/
def State.decoded (d : VReg) (s : State) : State := s.stages.foldl (State.decodeStage d) (s.cleared d)

/-- Every active stage of the quantizer passes its check (R191). -/
def State.StagesLegal (s : State) : Prop := ∀ st ∈ s.stages, s.StageLegal st

/-- Every active index names an entry (R196). -/
def State.IndicesLegal (s : State) : Prop := ∀ st ∈ s.stages, s.IndexLegal st

theorem State.StagesLegal.findSome? {s : State} (h : s.StagesLegal) : s.stages.findSome? (stageTrap s) = none :=
  List.findSome?_eq_none_iff.2 fun st hst => (stageTrap_eq_none_iff s st).2 (h st hst)

theorem State.IndicesLegal.findSome? {s : State} (h : s.IndicesLegal) : s.stages.findSome? (idxTrap s) = none :=
  List.findSome?_eq_none_iff.2 fun st hst => (idxTrap_eq_none_iff s st).2 (h st hst)

theorem exec_vzero_of_legal {s : State} (d : VReg) (hp : s.OrderLegal) :
    exec (.vzero d) s = .next (s.cleared d).advance := by
  change execVzero d s = _
  rw [execVzero, (orderTrap_eq_none_iff s).2 hp]
  rfl

theorem exec_vqenc_of_legal {s : State} (d w : VReg) (hp : s.OrderLegal) (hn : s.nstg.toNat ≤ 8)
    (hst : s.StagesLegal) : exec (.vqenc d w) s = .next (s.encoded d w).advance := by
  change execVqenc d w s = _
  rw [execVqenc, (orderTrap_eq_none_iff s).2 hp, (nstgTrap_eq_none_iff s).2 hn, hst.findSome?]
  rfl

theorem exec_vqdec_of_legal {s : State} (d : VReg) (hp : s.OrderLegal) (hn : s.nstg.toNat ≤ 8)
    (hst : s.StagesLegal) (hidx : s.IndicesLegal) : exec (.vqdec d) s = .next (s.decoded d).advance := by
  change execVqdec d s = _
  rw [execVqdec, (orderTrap_eq_none_iff s).2 hp, (nstgTrap_eq_none_iff s).2 hn, hst.findSome?, hidx.findSome?]
  rfl

/-- What encoding all stages can change (R197). -/
theorem State.encoded_eq (d w : VReg) (s : State) :
    ∃ v sat idx, s.encoded d w = { s with v := v, sat := sat, idx := idx } :=
  State.foldl_encodeStage_eq d w s.stages s

/-- What decoding all stages can change (R198). -/
theorem State.decoded_eq (d : VReg) (s : State) : ∃ v sat, s.decoded d = { s with v := v, sat := sat } := by
  obtain ⟨v, sat, h⟩ := State.foldl_decodeStage_eq d s.stages (s.cleared d)
  exact ⟨v, sat, h⟩

theorem State.p_encoded (d w : VReg) (s : State) : (s.encoded d w).p = s.p := by
  obtain ⟨v, sat, idx, h⟩ := s.encoded_eq d w
  rw [h]
  rfl

theorem State.stages_encoded (d w : VReg) (s : State) : (s.encoded d w).stages = s.stages := by
  obtain ⟨v, sat, idx, h⟩ := s.encoded_eq d w
  rw [h]
  rfl

/-- Settles O47: VQENC and the run of VQS have the same effect, and both advance PC past themselves. -/
theorem vqencRunsItsStagesInTurn : Obligations.VqencRunsItsStagesInTurn := by
  intro d w s hp hn hst
  have hlegal : s.StagesLegal := fun st h => hst st (mem_stagesBelow.1 h)
  obtain ⟨pc, hrun⟩ := (runsStage_vqs d w).execAll_map s.stages fun st h => ⟨hp, hlegal st h⟩
  obtain ⟨v, sat, idx, heq⟩ := s.encoded_eq d w
  refine ⟨{ s.encoded d w with pc := pc }, hrun, ?_, ?_⟩
  · rw [heq]
  · rw [exec_vqenc_of_legal d w hp hn hlegal, heq]
    rfl

/-- Settles O48: VQDEC clears its vector and then has the effect of the run of VQA. -/
theorem vqdecIsVzeroThenVqa : Obligations.VqdecIsVzeroThenVqa := by
  intro d s hp hn hst
  have hlegal : s.StagesLegal := fun st h => (hst st (mem_stagesBelow.1 h)).1
  have hidx : s.IndicesLegal := fun st h => (hst st (mem_stagesBelow.1 h)).2
  obtain ⟨pc, hrun⟩ := (runsStage_vqa d).execAll_map s.stages (s := (s.cleared d).advance)
    fun st h => ⟨hp, hlegal st h, hidx st h⟩
  have hpc : s.stages.foldl (State.decodeStage d) (s.cleared d).advance = { s.decoded d with pc := s.pc + 1 } :=
    (runsStage_vqa d).foldl_pc s.stages (s.cleared d) _
  rw [hpc] at hrun
  obtain ⟨v, sat, heq⟩ := s.decoded_eq d
  refine ⟨{ s.decoded d with pc := pc }, ?_, ?_, ?_⟩
  · rw [execAll, exec_vzero_of_legal d hp]
    exact hrun
  · rw [heq]
  · rw [exec_vqdec_of_legal d hp hn hlegal hidx, heq]
    rfl

/-! ## The indices the encoder leaves (R195) -/

theorem State.idxNat_encodeStage (d w : VReg) (s : State) (st u : StageNo) :
    (s.encodeStage d w st).idxNat u =
      if st = u then s.search (s.desc st) (s.vec d) (s.vec w) else s.idxNat u := by
  have hlt := (s.search_spec st (s.vec d) (s.vec w)).1.trans_le (s.desc_n_le st)
  change ((s.idx.set st.val (BitVec.ofNat 10 _))[u.val]).toNat = _
  rw [Vector.getElem_set]
  simp only [Fin.ext_iff]
  split_ifs
  · exact (BitVec.toNat_ofNat _ _).trans (Nat.mod_eq_of_lt hlt)
  · rfl

theorem State.idxNat_foldl_encodeStage_of_notMem (d w : VReg) {l : List StageNo} {st : StageNo} (h : st ∉ l)
    (s : State) : (l.foldl (State.encodeStage d w) s).idxNat st = s.idxNat st := by
  induction l generalizing s with
  | nil => rfl
  | cons u l ih =>
    rw [List.mem_cons, not_or] at h
    rw [List.foldl_cons, ih h.2, State.idxNat_encodeStage, if_neg (Ne.symm h.1)]

/-- Every stage that was encoded has an index that names an entry. -/
theorem State.indexLegal_foldl_encodeStage (d w : VReg) (l : List StageNo) {s : State} {st : StageNo}
    (h : st ∈ l ∨ s.IndexLegal st) : (l.foldl (State.encodeStage d w) s).IndexLegal st := by
  induction l generalizing s with
  | nil => exact h.resolve_left List.not_mem_nil
  | cons u l ih =>
    have hidx := State.idxNat_encodeStage d w s u st
    rw [List.foldl_cons]
    obtain rfl | hu := eq_or_ne u st
    · rw [if_pos rfl] at hidx
      exact ih (.inr (hidx.trans_lt (s.search_spec u _ _).1))
    · rw [if_neg hu] at hidx
      exact ih (h.imp (fun hmem => (List.mem_cons.1 hmem).resolve_left hu.symm) hidx.trans_lt)

theorem State.indicesLegal_encoded (d w : VReg) (s : State) : (s.encoded d w).IndicesLegal := by
  intro st hst
  rw [State.stages_encoded] at hst
  exact State.indexLegal_foldl_encodeStage d w _ (.inl hst)

/-! ## Lanes where nothing clamped (R200) -/

/-- What entry `IDX[st]` of a stage holds for lane `k`, 0 outside the lanes of the stage. -/
def State.contribution (s : State) (st : StageNo) (k : Nat) : Int :=
  if (s.desc st).off ≤ k ∧ k < (s.desc st).off + (s.desc st).len then
    s.codeElem (s.desc st) (s.idxNat st) (k - (s.desc st).off)
  else 0

/-- A saturating write that leaves SAT clear wrote the exact integers. -/
theorem State.laneInt_putSatLanes_of_sat {s : State} {i : VReg} {lo hi : Nat} {f : Nat → Int}
    (hsat : (s.putSatLanes i lo hi f).sat = false) {k : Nat} (hk : k < 16) :
    (s.putSatLanes i lo hi f).laneInt i k = if lo ≤ k ∧ k < hi then f k else s.laneInt i k := by
  rw [State.laneInt, State.vec_putSatLanes_self, Lanes.int, Lanes.word_update _ _ _ _ hk]
  split_ifs with hr
  · have hnot : clamps (f k) = false := by
      rw [State.putSatLanes_sat, Bool.or_eq_false_iff, List.any_eq_false] at hsat
      simpa [hr] using hsat.2 k (List.mem_range.2 hk)
    rw [toInt_sat32, clamp32_of_not_clamps hnot]
  · rfl

/-- One encoder stage that leaves SAT clear takes the contribution of its entry off each lane. -/
theorem State.laneInt_encodeStage {d w : VReg} {s : State} {st : StageNo}
    (hsat : (s.encodeStage d w st).sat = false) {k : Nat} (hk : k < 16) :
    s.laneInt d k = (s.encodeStage d w st).laneInt d k + (s.encodeStage d w st).contribution st k := by
  have hlane : (s.encodeStage d w st).laneInt d k = _ := State.laneInt_putSatLanes_of_sat hsat hk
  have hidx := State.idxNat_encodeStage d w s st st
  rw [if_pos rfl] at hidx
  rw [hlane, State.contribution, hidx, State.desc_encodeStage]
  split_ifs
  · exact (sub_add_cancel _ _).symm
  · exact (add_zero _).symm

/-- One decoder stage that leaves SAT clear adds the contribution of its entry to each lane. -/
theorem State.laneInt_decodeStage {d : VReg} {s : State} {st : StageNo}
    (hsat : (s.decodeStage d st).sat = false) {k : Nat} (hk : k < 16) :
    (s.decodeStage d st).laneInt d k = s.laneInt d k + s.contribution st k := by
  have hlane : (s.decodeStage d st).laneInt d k = _ := State.laneInt_putSatLanes_of_sat hsat hk
  rw [hlane, State.contribution]
  split_ifs
  · rfl
  · exact (add_zero _).symm

theorem sat_of_sat_foldl {β : Type} {f : State → β → State} (hf : ∀ s b, s.sat = true → (f s b).sat = true)
    (l : List β) {s : State} (h : (l.foldl f s).sat = false) : s.sat = false :=
  Bool.eq_false_iff.2 fun hs => Bool.eq_false_iff.1 h (sat_foldl hf l hs)

/-- A contribution depends on TMEM, the descriptor and the stage's index alone. -/
theorem State.contribution_foldl_encodeStage (d w : VReg) {l : List StageNo} {st : StageNo} (h : st ∉ l) (s : State)
    (k : Nat) : (l.foldl (State.encodeStage d w) s).contribution st k = s.contribution st k := by
  have hidx := State.idxNat_foldl_encodeStage_of_notMem d w h s
  rw [State.contribution, hidx]
  obtain ⟨v, sat, idx, heq⟩ := State.foldl_encodeStage_eq d w l s
  rw [heq]
  rfl

/-- A run of encoder stages in which nothing clamps takes the contributions of the chosen entries off each lane. -/
theorem State.laneInt_foldl_encodeStage {d w : VReg} {l : List StageNo} (hl : l.Nodup) {s : State}
    (hsat : (l.foldl (State.encodeStage d w) s).sat = false) {k : Nat} (hk : k < 16) :
    s.laneInt d k = (l.foldl (State.encodeStage d w) s).laneInt d k +
      (l.map fun st => (l.foldl (State.encodeStage d w) s).contribution st k).sum := by
  induction l generalizing s with
  | nil => exact (add_zero _).symm
  | cons st l ih =>
    obtain ⟨hst, hl⟩ := List.nodup_cons.1 hl
    rw [List.foldl_cons] at hsat ⊢
    have hfirst := State.laneInt_encodeStage (sat_of_sat_foldl (State.sat_encodeStage d w) l hsat) hk
    have hrest := ih hl hsat
    rw [List.map_cons, List.sum_cons, State.contribution_foldl_encodeStage d w hst]
    linarith

/-- A run of decoder stages in which nothing clamps adds the contributions of the indexed entries to each lane. -/
theorem State.laneInt_foldl_decodeStage {d : VReg} {l : List StageNo} {s : State}
    (hsat : (l.foldl (State.decodeStage d) s).sat = false) {k : Nat} (hk : k < 16) :
    (l.foldl (State.decodeStage d) s).laneInt d k =
      s.laneInt d k + (l.map fun st => s.contribution st k).sum := by
  induction l generalizing s with
  | nil => exact (add_zero _).symm
  | cons st l ih =>
    rw [List.foldl_cons] at hsat ⊢
    have hfirst := State.laneInt_decodeStage (sat_of_sat_foldl (State.sat_decodeStage d) l hsat) hk
    have hkept : (fun u => (s.decodeStage d st).contribution u k) = fun u => s.contribution u k := rfl
    rw [ih hsat, hkept, List.map_cons, List.sum_cons, hfirst, add_assoc]

theorem State.vec_decoded_of_ne {d e : VReg} (h : d ≠ e) (s : State) : (s.decoded e).vec d = s.vec d := by
  have hstage (t : State) (st : StageNo) : (t.decodeStage e st).vec d = t.vec d :=
    State.vec_putSatLanes_of_ne _ h.symm _ _ _
  rw [State.decoded, foldl_field (fun t => t.vec d) _ hstage, State.cleared, State.vec_putLanes, if_neg h.symm]

theorem State.laneInt_cleared (e : VReg) {s : State} {k : Nat} (hk : k < s.p) (hk16 : k < 16) :
    (s.cleared e).laneInt e k = 0 := by
  rw [State.cleared, State.laneInt, State.vec_putLanes_self, Lanes.int, Lanes.word_update _ _ _ _ hk16,
    if_pos ⟨k.zero_le, hk⟩]
  rfl

/-- The vector `e` decoded from the indices that encoding `d` leaves: VQENC and then VQDEC, but for the last PC. -/
def State.reconstructed (d w e : VReg) (s : State) : State := (s.encoded d w).advance.decoded e

/-- If encoding and then decoding leave SAT clear, the residual and the decoder's vector add up to the original
(R200). -/
theorem State.laneInt_reconstructed {d w e : VReg} (hde : d ≠ e) {s : State}
    (hsat : (s.reconstructed d w e).sat = false) {k : Nat} (hk : k < s.p) (hk16 : k < 16) :
    s.laneInt d k = (s.reconstructed d w e).laneInt e k + (s.reconstructed d w e).laneInt d k := by
  have hsat' : (s.encoded d w).sat = false :=
    sat_of_sat_foldl (s := (s.encoded d w).advance.cleared e) (State.sat_decodeStage e) _ hsat
  have hencoded : s.laneInt d k = (s.encoded d w).laneInt d k + _ :=
    State.laneInt_foldl_encodeStage (nodup_stagesBelow _) hsat' hk16
  have hdecoded : (s.reconstructed d w e).laneInt e k = ((s.encoded d w).advance.cleared e).laneInt e k +
      ((s.encoded d w).stages.map fun st => (s.encoded d w).contribution st k).sum :=
    State.laneInt_foldl_decodeStage hsat hk16
  have hcleared : ((s.encoded d w).advance.cleared e).laneInt e k = 0 :=
    State.laneInt_cleared e (hk.trans_eq (s.p_encoded d w).symm) hk16
  have hresidual : (s.reconstructed d w e).laneInt d k = (s.encoded d w).laneInt d k :=
    congrArg (fun x : Lanes => x.int k) (State.vec_decoded_of_ne hde (s.encoded d w).advance)
  rw [hdecoded, hcleared, hresidual, State.stages_encoded, hencoded, zero_add, add_comm]
  rfl

/-! ## VQENC and then VQDEC (R200) -/

/-- The run does the same whatever SAT held before, which it keeps set (R8, R47). -/
theorem State.reconstructed_or_sat (d w e : VReg) (b : Bool) (s : State) :
    State.reconstructed d w e { s with sat := b || s.sat } =
      { s.reconstructed d w e with sat := b || (s.reconstructed d w e).sat } := by
  have hencoded : State.encoded d w { s with sat := b || s.sat } =
      { s.encoded d w with sat := b || (s.encoded d w).sat } := State.foldl_encodeStage_or_sat d w b s.stages s
  rw [State.reconstructed, hencoded]
  exact State.foldl_decodeStage_or_sat e b (s.encoded d w).stages ((s.encoded d w).advance.cleared e)

/-- After VQENC, VQDEC completes: the descriptors are as they were and the encoder's indices name entries. -/
theorem exec_vqdec_after_encoded {s : State} (d w e : VReg) (hp : s.OrderLegal) (hn : s.nstg.toNat ≤ 8)
    (hst : s.StagesLegal) :
    exec (.vqdec e) (s.encoded d w).advance = .next (s.reconstructed d w e).advance := by
  have hidx := s.indicesLegal_encoded d w
  obtain ⟨v, sat, idx, h⟩ := s.encoded_eq d w
  have hp' : (s.encoded d w).OrderLegal := by rw [h]; exact hp
  have hn' : (s.encoded d w).nstg.toNat ≤ 8 := by rw [h]; exact hn
  have hst' : (s.encoded d w).StagesLegal := by rw [h]; exact hst
  exact exec_vqdec_of_legal e hp' hn' hst' hidx

/-- Settles O49: the run from SAT clear has the same effect but for SAT, and where it leaves SAT clear, every stage took
off and added its entry exactly. -/
theorem residualCompletesReconstruction : Obligations.ResidualCompletesReconstruction := by
  intro d w e s hde hp hn hst
  let s0 : State := { s with sat := false }
  have hlegal : s.StagesLegal := fun st h => hst st (mem_stagesBelow.1 h)
  have hsame : s.reconstructed d w e =
      { s0.reconstructed d w e with sat := s.sat || (s0.reconstructed d w e).sat } := by
    rw [← State.reconstructed_or_sat, Bool.or_false]
  refine ⟨_, _, _, (s0.reconstructed d w e).sat, exec_vqenc_of_legal d w hp hn hlegal,
    exec_vqdec_after_encoded d w e hp hn hlegal, exec_vqenc_of_legal (s := s0) d w hp hn hlegal, ?_, ?_, ?_, ?_⟩
  · rw [hsame]
    exact exec_vqdec_after_encoded (s := s0) d w e hp hn hlegal
  · obtain ⟨v, sat, idx, hencoded⟩ := s.encoded_eq d w
    obtain ⟨v', sat', hdecoded⟩ := (s.encoded d w).advance.decoded_eq e
    rw [State.reconstructed, hdecoded, hencoded]
    rfl
  · rw [hsame]
    rfl
  · intro hclear k hk
    rw [hsame, ← State.laneInt_fin, ← State.laneInt_fin, ← State.laneInt_fin]
    exact State.laneInt_reconstructed (s := s0) hde hclear hk k.isLt

end Sys2Proof.Machine
end

section
/-! PROOF. The weighting filters (`42_weighting_filters.md` R221 to R225): the loop of BWX walks the power chain of
gamma, and the one sample loop of FIR, IIR and SYN follows the rule of its kind sample by sample. -/

namespace Sys2Proof.Machine

open Sys2Proof

/-! ## The power chain of BWX (R221) -/

/-- The `k`-th power of gamma in the chain that starts at `gp`, each one rounded and saturated. -/
def gammaPower (gamma gp : Word) (k : Nat) : Word := (fun w => mulq w gamma)^[k] gp

theorem toInt_gammaPower_succ (gamma gp : Word) (k : Nat) :
    (gammaPower gamma gp (k + 1)).toInt = saturated (rounded ((gammaPower gamma gp k).toInt * gamma.toInt)) := by
  rw [gammaPower, Function.iterate_succ_apply', mulq, toInt_sat32, clamp32_eq_max_min]
  rfl

/-- The loop of BWX multiplies its source lanes by the powers in turn. -/
theorem getElem?_bwxLoop (gamma gp : Word) (lanes : List Word) (k : Nat) :
    (bwxLoop gamma gp lanes).1[k]? = lanes[k]?.map fun a => mulqExact a (gammaPower gamma gp k) := by
  induction lanes generalizing gp k with
  | nil => rfl
  | cons a rest ih =>
    cases k with
    | zero => rfl
    | succ k => exact ih (mulq gp gamma) k

/-- The loop of BWX reports a clamp in one power for each source lane, the last power among them. -/
theorem bwxLoop_clamped_iff (gamma gp : Word) (lanes : List Word) :
    (bwxLoop gamma gp lanes).2 = true ↔
      ∃ k, k < lanes.length ∧ clamps (mulqExact (gammaPower gamma gp k) gamma) = true := by
  induction lanes generalizing gp with
  | nil => simp [bwxLoop]
  | cons a rest ih =>
    rw [bwxLoop, Bool.or_eq_true, ih (mulq gp gamma), List.length_cons, Nat.exists_lt_succ_left]
    rfl

/-! ## BWX (R221) -/

/-- The power that BWX multiplies lane `k` by. -/
def State.bwxPower (s : State) (g : SReg) (k : Nat) : Int := (gammaPower (s.reg g) (s.reg g) k).toInt

/-- The products and the clamp report of BWX from the state `s`. -/
def State.bwxRun (s : State) (a : VReg) (g : SReg) : List Int × Bool :=
  bwxLoop (s.reg g) (s.reg g) ((List.range s.p).map (s.vec a).word)

theorem exec_bwx_of_legal {s : State} (d a : VReg) (g : SReg) (hp : s.OrderLegal) :
    exec (.bwx d a g) s = .next
      ((s.putSatLanes d 0 s.p fun k => (s.bwxRun a g).1.getD k 0).orSat (s.bwxRun a g).2).advance := by
  change execBwx d a g s = _
  rw [execBwx, (orderTrap_eq_none_iff s).2 hp]
  rfl

theorem exec_bwx_of_illegal {s : State} (d a : VReg) (g : SReg) (hp : ¬ s.OrderLegal) :
    exec (.bwx d a g) s = .next (s.withFault 5 s.order.toNat) := by
  have hp' : ¬ (1 ≤ s.p ∧ s.p ≤ 16) := hp
  change execBwx d a g s = _
  rw [execBwx, orderTrap_of_illegal (by omega), finish_some, takeFault_badOrder]

/-- The exact product BWX saturates into an active lane. -/
theorem State.bwxRun_product (s : State) (a : VReg) (g : SReg) {k : Fin 16} (hk : k.val < s.p) :
    (s.bwxRun a g).1.getD k.val 0 = rounded (s.lane a k * s.bwxPower g k.val) := by
  rw [List.getD_eq_getElem?_getD, State.bwxRun, getElem?_bwxLoop, List.getElem?_map, List.getElem?_range hk,
    ← s.laneInt_fin]
  rfl

theorem State.bwxRun_clamped_iff (s : State) (a : VReg) (g : SReg) (hp : s.p ≤ 16) :
    (s.bwxRun a g).2 = true ↔
      ∃ k : Fin 16, k.val < s.p ∧ OutOfRange (rounded (s.bwxPower g k.val * (s.reg g).toInt)) := by
  rw [State.bwxRun, bwxLoop_clamped_iff, List.length_map, List.length_range]
  refine ⟨fun ⟨k, hk, hc⟩ => ?_, fun ⟨k, hk, hc⟩ => ⟨k.val, hk, (clamps_iff _).2 hc⟩⟩
  exact ⟨⟨k, hk.trans_le hp⟩, hk, (clamps_iff _).1 hc⟩

/-- When BWX leaves SAT set: a product or one of the next powers is out of range. -/
theorem State.sat_bwx_iff (s : State) (d a : VReg) (g : SReg) (hp : s.p ≤ 16) :
    ((s.putSatLanes d 0 s.p fun k => (s.bwxRun a g).1.getD k 0).orSat (s.bwxRun a g).2).sat = true ↔
      s.sat = true ∨ ∃ k : Fin 16, k.val < s.p ∧ (OutOfRange (rounded (s.lane a k * s.bwxPower g k.val)) ∨
        OutOfRange (rounded (s.bwxPower g k.val * (s.reg g).toInt))) := by
  have hproducts : (∃ k : Fin 16, 0 ≤ k.val ∧ k.val < s.p ∧ OutOfRange ((s.bwxRun a g).1.getD k.val 0)) ↔
      ∃ k : Fin 16, k.val < s.p ∧ OutOfRange (rounded (s.lane a k * s.bwxPower g k.val)) :=
    exists_congr fun k => by
      rw [and_iff_right k.val.zero_le]
      exact and_congr_right fun hk => by rw [s.bwxRun_product a g hk]
  rw [State.orSat_sat, Bool.or_eq_true, sat_putSatLanes_iff_outOfRange _ _ _ hp, hproducts,
    s.bwxRun_clamped_iff a g hp, or_assoc, ← exists_or]
  simp only [and_or_left]

/-- Settles O50: the powers are those the loop of BWX walks through, which reports the last one's clamp too. -/
theorem bwxScalesByPowers : Obligations.BwxScalesByPowers := by
  intro d a g s
  refine ⟨rfl, fun hp => ⟨_, _, s.bwxPower g, exec_bwx_of_legal d a g hp, rfl,
    fun k => toInt_gammaPower_succ _ _ k, fun k => ?_, s.sat_bwx_iff d a g hp.2⟩, exec_bwx_of_illegal d a g⟩
  split_ifs with hk
  · rw [← s.bwxRun_product a g hk, ← sat32_eq_ofInt_saturated]
    exact Lanes.update_active _ _ hk
  · exact Lanes.update_inactive _ _ (not_lt.1 hk)

/-! ## One sample (R223, R224) -/

/-- The output of the filter, and not its input, enters its memory. -/
def FilterKind.feedback : FilterKind → Bool
  | .numerator => false
  | .denominator => true

/-- The model's sum of products is the rule's, which runs over all sixteen lanes. -/
theorem macSum_eq_sum {p : Nat} (hp : p ≤ 16) (coef mem : Lanes) :
    macSum p coef mem = ∑ k : Fin 16, if k.val < p then coef[k].toInt * mem[k].toInt else 0 := by
  have hwindow := sum_lanes_window (fun k => coef.int k * mem.int k) (off := 0) (len := p) (by omega)
  simpa [Lanes.int, macSum] using hwindow.symm

/-- The model's exact output is the rule's. -/
theorem filterExact_eq (kind : FilterKind) {p : Nat} (hp : p ≤ 16) (coef mem : Lanes) (x : Word) :
    filterExact kind p coef mem x =
      let acc : Int := ∑ k : Fin 16, if k.val < p then coef[k].toInt * mem[k].toInt else 0
      if kind.feedback then x.toInt - rounded acc else x.toInt + rounded acc := by
  rw [← macSum_eq_sum hp]
  cases kind <;> rfl

/-- The word that enters the filter memory is the output with feedback, the input without. -/
theorem mem_filterSample (kind : FilterKind) (p : Nat) (coef : Lanes) (src dst : Nat) (f : FilterState) :
    (filterSample kind p coef src dst f).mem =
      shiftIn p (if kind.feedback then sat32 (filterExact kind p coef f.mem (f.dmem.readWord src))
        else f.dmem.readWord src) f.mem := by
  cases kind <;> rfl

/-- Lane by lane, the filter memory after a shift of at least one lane. -/
theorem getElem_shiftIn_fin {p : Nat} (h1 : 1 ≤ p) (w : Word) (mem : Lanes) (k : Fin 16) :
    (shiftIn p w mem)[k] = if k.val = 0 then w else if k.val < p then mem[k.val - 1] else mem[k] := by
  refine (getElem_shiftIn p w mem k.val k.isLt).trans ?_
  by_cases hk : k.val = 0
  · rw [if_pos (by omega), if_pos hk, if_pos hk]
  · rw [if_neg hk, if_neg hk, Lanes.word_of_lt mem (by omega)]
    rfl

/-- One sample of the model follows the sample rule of its kind. -/
theorem filterSampleRule_filterSample (kind : FilterKind) {p : Nat} (h1 : 1 ≤ p) (hp : p ≤ 16) (coef : Lanes)
    (src dst : Nat) (f : FilterState) :
    FilterSampleRule kind.feedback p coef src dst f.mem f.dmem f.sat (filterSample kind p coef src dst f).mem
      (filterSample kind p coef src dst f).dmem (filterSample kind p coef src dst f).sat := by
  unfold FilterSampleRule
  intro x acc out y
  have hexact : filterExact kind p coef f.mem x = out := filterExact_eq kind hp coef f.mem x
  have hy : sat32 (filterExact kind p coef f.mem x) = y := by rw [hexact, sat32_eq_ofInt_saturated]
  refine ⟨?_, fun b hb => Memory.readByte_writeWord_of_ne _ _ _ _ hb, fun k => ?_, ?_⟩
  · exact ((Memory.readWord_writeWord _ _ _ _).trans (if_pos rfl)).trans hy
  · rw [mem_filterSample, hy, getElem_shiftIn_fin h1]
  · rw [← hexact]
    exact Bool.or_eq_true_iff.trans (or_congr_right (clamps_iff _))

/-! ## A run of samples (R225) -/

/-- A run of the model follows the rule of its kind. -/
theorem filterRule_filterRun (kind : FilterKind) {p : Nat} (h1 : 1 ≤ p) (hp : p ≤ 16) (coef : Lanes)
    (cnt src dst : Nat) (f : FilterState) :
    FilterRule kind.feedback p coef cnt src dst f.mem f.dmem f.sat (filterRun kind p coef cnt src dst f).mem
      (filterRun kind p coef cnt src dst f).dmem (filterRun kind p coef cnt src dst f).sat := by
  induction cnt generalizing src dst f with
  | zero => exact ⟨rfl, rfl, rfl⟩
  | succ cnt ih => exact ⟨_, _, _, filterSampleRule_filterSample kind h1 hp coef src dst f, ih _ _ _⟩

/-- The whole run of a filter instruction follows the rule of its kind. -/
theorem State.filterRule_filter {s : State} (kind : FilterKind) (mem : Lanes) (vc : VReg) (rs rd rn : SReg)
    (hp : s.OrderLegal) :
    FilterRule kind.feedback s.order.toNat s.v[vc] s.r[rn].toNat s.r[rs].toNat s.r[rd].toNat mem s.dmem s.sat
      (s.filter kind mem vc rs rd rn).mem (s.filter kind mem vc rs rd rn).dmem (s.filter kind mem vc rs rd rn).sat :=
  filterRule_filterRun kind hp.1 hp.2 _ _ _ _ ⟨mem, s.dmem, s.sat⟩

/-! ## FIR and IIR (R223, R224) -/

theorem exec_fir_of_legal {s : State} (vm vc : VReg) {rs rd rn : SReg} (hp : s.OrderLegal)
    (hb : s.BlocksLegal rs rd rn) :
    exec (.fir vm vc rs rd rn) s = .next (s.filterVec .numerator vm vc rs rd rn).advance := by
  change execFir vm vc rs rd rn s = _
  rw [execFir, (filterTrap_eq_none_iff s rs rd rn).2 ⟨hp, hb⟩]
  rfl

theorem exec_iir_of_legal {s : State} (vm vc : VReg) {rs rd rn : SReg} (hp : s.OrderLegal)
    (hb : s.BlocksLegal rs rd rn) :
    exec (.iir vm vc rs rd rn) s = .next (s.filterVec .denominator vm vc rs rd rn).advance := by
  change execIir vm vc rs rd rn s = _
  rw [execIir, (filterTrap_eq_none_iff s rs rd rn).2 ⟨hp, hb⟩]
  rfl

/-- Settles O51: FIR is a run of the numerator. -/
theorem firFollowsItsRecurrence : Obligations.FirFollowsItsRecurrence := by
  intro vm vc rs rd rn s hp hb
  exact ⟨_, _, _, exec_fir_of_legal vm vc hp hb, State.filterRule_filter .numerator _ vc rs rd rn hp⟩

/-- Settles O52: IIR is a run of the denominator. -/
theorem iirFollowsItsRecurrence : Obligations.IirFollowsItsRecurrence := by
  intro vm vc rs rd rn s hp hb
  exact ⟨_, _, _, exec_iir_of_legal vm vc hp hb, State.filterRule_filter .denominator _ vc rs rd rn hp⟩

end Sys2Proof.Machine
end

section
/-! PROOF. The synthesis unit (`43_synthesis_filter.md` R240 to R244): who writes SYNMEM, the exact effect of SYNWR and
SYN, and that a filter run may be cut anywhere (R243), because its state between two samples is the filter memory, DMEM
and SAT and nothing more. -/

namespace Sys2Proof.Machine

open Sys2Proof

/-! ## Which instruction can change SYNMEM (R67, R244, R270) -/

/-- SYN, SYNWR and a CSRW whose number is a SYNMEM word's. -/
def CanWriteSynmem : Instr → Prop
  | .syn .. | .synwr .. => True
  | .csrw _ csr => 0x40 ≤ csr.toNat ∧ csr.toNat < 0x50
  | _ => False

theorem canWriteSynmem_iff (i : Instr) :
    CanWriteSynmem i ↔ (∃ vc rs rd rn, i = .syn vc rs rd rn) ∨ (∃ vs, i = .synwr vs) ∨
      ∃ rs csr, i = .csrw rs csr ∧ 0x40 ≤ csr.toNat ∧ csr.toNat < 0x50 := by
  cases i <;> simp [CanWriteSynmem]

/-- A fault leaves SYNMEM alone (R314), so the effect alone decides. -/
theorem synmem_of_finish {trap : Option Trap} {effect : State → State} {s t : State}
    (h : finish trap effect s = .next t) (he : (effect s).synmem = s.synmem) : t.synmem = s.synmem := by
  obtain ⟨tr, -, rfl⟩ | ⟨-, rfl⟩ := finish_cases h
  · rfl
  · exact he

theorem synmem_of_execCsrw {rs : SReg} {csr : BitVec 8} {s t : State} (h : execCsrw rs csr s = .next t)
    (hcsr : ¬ (0x40 ≤ csr.toNat ∧ csr.toNat < 0x50)) : t.synmem = s.synmem := by
  unfold execCsrw at h
  split at h
  next => exact synmem_of_finish h rfl
  next c hc =>
    have hother : ∀ k, c ≠ .synmem k := by
      rintro k rfl
      exact hcsr (csrOf_synmem hc)
    exact synmem_of_finish h (writeCsr_synmem hother (s.reg rs) s)

theorem State.putRoots_synmem (vd : VReg) (roots : List Nat) (s : State) :
    (s.putRoots vd roots).synmem = s.synmem := by
  obtain ⟨v, hv⟩ := State.putRoots_eq vd roots s
  rw [hv]

/-- Every other instruction keeps SYNMEM. -/
theorem exec_keeps_synmem {i : Instr} {s t : State} (h : exec i s = .next t) (hi : ¬ CanWriteSynmem i) :
    t.synmem = s.synmem := by
  cases i <;> dsimp only [exec] at h
  case syn | synwr => exact absurd trivial hi
  case csrw rs csr => exact synmem_of_execCsrw h hi
  case csrr rd csr =>
    unfold execCsrr at h
    split at h <;> exact synmem_of_finish h rfl
  case bnz | bz | bfs | bfc =>
    refine synmem_of_finish h ?_
    split_ifs <;> rfl
  case lsproot vd va => exact synmem_of_finish h (State.putRoots_synmem vd _ s)
  case vqenc vd vw =>
    exact synmem_of_finish h (foldl_field State.synmem (State.encodeStage vd vw) (fun _ _ => rfl) s.stages s)
  case vqdec vd =>
    exact synmem_of_finish h
      (foldl_field State.synmem (State.decodeStage vd) (fun _ _ => rfl) s.stages (s.cleared vd))
  -- the effect of each of the rest writes other fields only
  all_goals exact synmem_of_finish h rfl

/-- Settles O13: an instruction that is none of the three keeps SYNMEM. -/
theorem synmemHasThreeWriters : Obligations.SynmemHasThreeWriters := by
  intro i s t h hne
  by_contra hi
  exact hne (exec_keeps_synmem h (mt (canWriteSynmem_iff i).1 hi))

/-! ## SYNWR (R242) -/

theorem exec_synwr_of_legal {s : State} (b : VReg) (hp : s.OrderLegal) :
    exec (.synwr b) s = .next { s with synmem := s.synmem.update 0 s.p (s.vec b).word, pc := s.pc + 1 } := by
  change execSynwr b s = _
  rw [execSynwr, (orderTrap_eq_none_iff s).2 hp]
  rfl

theorem exec_synwr_of_illegal {s : State} (b : VReg) (hp : ¬ s.OrderLegal) :
    exec (.synwr b) s = .next (s.withFault 5 s.order.toNat) := by
  have hp' : ¬ (1 ≤ s.p ∧ s.p ≤ 16) := hp
  change execSynwr b s = _
  rw [execSynwr, orderTrap_of_illegal (by omega), finish_some, takeFault_badOrder]

/-- Settles O31: SYNWR updates the active words of SYNMEM. -/
theorem synwrLoadsSynmem : Obligations.SynwrLoadsSynmem := by
  intro b s
  refine ⟨rfl, fun hp => ⟨_, exec_synwr_of_legal b hp, fun k => ?_⟩, exec_synwr_of_illegal b⟩
  split_ifs with hk
  · rw [Lanes.update_active _ _ (p := s.p) hk, Lanes.word_fin]
    rfl
  · exact Lanes.update_inactive _ _ (not_lt.1 hk)

/-! ## SYN (R240) -/

/-- A run of the denominator whose memory is SYNMEM. -/
def State.filterSyn (vc : VReg) (rs rd rn : SReg) (s : State) : State :=
  let f := s.filter .denominator s.synmem vc rs rd rn
  { s with synmem := f.mem, dmem := f.dmem, sat := f.sat }

theorem exec_syn_of_legal {s : State} (vc : VReg) {rs rd rn : SReg} (hp : s.OrderLegal)
    (hb : s.BlocksLegal rs rd rn) : exec (.syn vc rs rd rn) s = .next (s.filterSyn vc rs rd rn).advance := by
  change execSyn vc rs rd rn s = _
  rw [execSyn, (filterTrap_eq_none_iff s rs rd rn).2 ⟨hp, hb⟩]
  rfl

/-- Settles O53: SYN is a run of the denominator from SYNMEM. -/
theorem synFollowsItsRecurrence : Obligations.SynFollowsItsRecurrence := by
  intro vc rs rd rn s hp hb
  exact ⟨_, _, _, exec_syn_of_legal vc hp hb, State.filterRule_filter .denominator _ vc rs rd rn hp⟩

/-! ## A run cut in two (R243) -/

/-- The scalar registers `r1` and then `r2` cut the run that `r` asks for in two: the first part starts where the whole
does, the second where the first ends, and the counts add up. -/
structure CutsRun (rs rd rn : SReg) (r r1 r2 : Vector Word 8) : Prop where
  src1 : r1[rs].toNat = r[rs].toNat
  dst1 : r1[rd].toNat = r[rd].toNat
  src2 : r2[rs].toNat = r[rs].toNat + r1[rn].toNat
  dst2 : r2[rd].toNat = r[rd].toNat + r1[rn].toNat
  count : r[rn].toNat = r1[rn].toNat + r2[rn].toNat

section
variable {rs rd rn : SReg} {s : State} {r1 r2 : Vector Word 8}

theorem CutsRun.blocksLegal_first (h : CutsRun rs rd rn s.r r1 r2) (hb : s.BlocksLegal rs rd rn) (u : State) :
    State.BlocksLegal { u with r := r1 } rs rd rn := by
  obtain ⟨hsrc1, hdst1, -, -, hcount⟩ := h
  obtain ⟨hsrc, hdst⟩ := hb
  exact ⟨by dsimp only; omega, by dsimp only; omega⟩

theorem CutsRun.blocksLegal_second (h : CutsRun rs rd rn s.r r1 r2) (hb : s.BlocksLegal rs rd rn) (u : State) :
    State.BlocksLegal { u with r := r2 } rs rd rn := by
  obtain ⟨-, -, hsrc2, hdst2, hcount⟩ := h
  obtain ⟨hsrc, hdst⟩ := hb
  exact ⟨by dsimp only; omega, by dsimp only; omega⟩

/-- The second part, run in a state `u` that holds what the first left, ends as the whole run does. -/
theorem CutsRun.filter_eq (h : CutsRun rs rd rn s.r r1 r2) (kind : FilterKind) (mem : Lanes) (vc : VReg) {u : State}
    {f : FilterState} (hf : f = State.filter { s with r := r1 } kind mem vc rs rd rn) (horder : u.order = s.order)
    (hcoef : u.vec vc = s.vec vc) (hdmem : u.dmem = f.dmem) (hsat : u.sat = f.sat) :
    State.filter { u with r := r2 } kind f.mem vc rs rd rn = s.filter kind mem vc rs rd rn := by
  have hfirst : f = filterRun kind s.p (s.vec vc) r1[rn].toNat (s.regNat rs) (s.regNat rd) ⟨mem, s.dmem, s.sat⟩ := by
    rw [hf, State.regNat, State.regNat, State.reg, State.reg, ← h.src1, ← h.dst1]
    rfl
  have hsecond : State.filter { u with r := r2 } kind f.mem vc rs rd rn =
      filterRun kind s.p (s.vec vc) r2[rn].toNat (s.regNat rs + r1[rn].toNat) (s.regNat rd + r1[rn].toNat) f := by
    change filterRun kind u.order.toNat (u.vec vc) r2[rn].toNat r2[rs].toNat r2[rd].toNat ⟨f.mem, u.dmem, u.sat⟩ = _
    rw [horder, hcoef, hdmem, hsat, h.src2, h.dst2]
    rfl
  have hwhole : s.regNat rn = r1[rn].toNat + r2[rn].toNat := h.count
  rw [hsecond, State.filter, hwhole, filterRun_add, ← hfirst]

end

theorem State.filterSyn_eq {s : State} {vc : VReg} {rs rd rn : SReg} {f : FilterState}
    (h : s.filter .denominator s.synmem vc rs rd rn = f) :
    s.filterSyn vc rs rd rn = { s with synmem := f.mem, dmem := f.dmem, sat := f.sat } := by
  rw [State.filterSyn, h]

theorem State.filterVec_eq {s : State} {kind : FilterKind} {vm vc : VReg} {rs rd rn : SReg} {f : FilterState}
    (h : s.filter kind (s.vec vm) vc rs rd rn = f) :
    s.filterVec kind vm vc rs rd rn = { s.setVec vm f.mem with dmem := f.dmem, sat := f.sat } := by
  rw [State.filterVec, h]

/-- The instruction runs a filter over the blocks of `rs`, `rd` and `rn`, and a run cut in two leaves what the whole
leaves, but for the scalar registers and PC. -/
structure Decomposes (i : Instr) (rs rd rn : SReg) (effect : State → State) : Prop where
  exec_of_legal {s : State} : s.OrderLegal → s.BlocksLegal rs rd rn → exec i s = .next (effect s).advance
  keeps_order (s : State) : (effect s).order = s.order
  keeps_state (s : State) : (effect s).state = s.state
  second_of_first {s : State} {r1 r2 : Vector Word 8} : CutsRun rs rd rn s.r r1 r2 →
    effect { (effect { s with r := r1 }).advance with r := r2 } = { effect s with r := r2, pc := s.pc + 1 }

theorem decomposes_syn (vc : VReg) (rs rd rn : SReg) :
    Decomposes (.syn vc rs rd rn) rs rd rn (State.filterSyn vc rs rd rn) where
  exec_of_legal := exec_syn_of_legal vc
  keeps_order _ := rfl
  keeps_state _ := rfl
  second_of_first {s r1 _} h :=
    State.filterSyn_eq (h.filter_eq .denominator s.synmem vc
      (u := (State.filterSyn vc rs rd rn { s with r := r1 }).advance) rfl rfl rfl rfl rfl)

/-- A run whose memory is a vector register decomposes unless that register holds the coefficients too. -/
theorem decomposes_filterVec {i : Instr} {vm vc : VReg} {rs rd rn : SReg} (kind : FilterKind) (hne : vm ≠ vc)
    (hexec : ∀ {s : State}, s.OrderLegal → s.BlocksLegal rs rd rn →
      exec i s = .next (s.filterVec kind vm vc rs rd rn).advance) :
    Decomposes i rs rd rn (State.filterVec kind vm vc rs rd rn) where
  exec_of_legal := hexec
  keeps_order _ := rfl
  keeps_state _ := rfl
  second_of_first {s r1 r2} h := by
    let first : State := (State.filterVec kind vm vc rs rd rn { s with r := r1 }).advance
    have hmem : first.vec vm = (State.filter { s with r := r1 } kind (s.vec vm) vc rs rd rn).mem :=
      State.vec_setVec_self _ _ _
    have hcoef : first.vec vc = s.vec vc := (State.vec_setVec _ _ _ _).trans (if_neg hne)
    have hrun : State.filter { first with r := r2 } kind (first.vec vm) vc rs rd rn =
        s.filter kind (s.vec vm) vc rs rd rn := by
      rw [hmem]
      exact h.filter_eq kind (s.vec vm) vc rfl rfl hcoef rfl rfl
    have hset : first.v.set vm (s.filter kind (s.vec vm) vc rs rd rn).mem =
        s.v.set vm (s.filter kind (s.vec vm) vc rs rd rn).mem := Vector.set_set ..
    refine (State.filterVec_eq (s := { first with r := r2 }) hrun).trans ?_
    rw [State.setVec, hset]
    rfl

/-- The two runs of a decomposable instruction, one after the other, against the whole run. -/
theorem Decomposes.exec_cut {i : Instr} {rs rd rn : SReg} {effect : State → State} (hi : Decomposes i rs rd rn effect)
    {s : State} {r1 r2 : Vector Word 8} (hcut : CutsRun rs rd rn s.r r1 r2) (hp : s.OrderLegal)
    (hb : s.BlocksLegal rs rd rn) :
    ∃ t t1 t2 : State, exec i s = .next t ∧ exec i { s with r := r1 } = .next t1 ∧
      exec i { t1 with r := r2 } = .next t2 ∧ t.state = s.state ∧
      t2.dmem = t.dmem ∧ t2.synmem = t.synmem ∧ t2.v = t.v ∧ t2.sat = t.sat := by
  let first : State := (effect { s with r := r1 }).advance
  have hsecond : effect { first with r := r2 } = { effect s with r := r2, pc := s.pc + 1 } :=
    hi.second_of_first hcut
  have horder : State.OrderLegal { first with r := r2 } := by
    change 1 ≤ (effect { s with r := r1 }).order.toNat ∧ (effect { s with r := r1 }).order.toNat ≤ 16
    rw [hi.keeps_order]
    exact hp
  refine ⟨_, first, _, hi.exec_of_legal hp hb, hi.exec_of_legal hp (hcut.blocksLegal_first hb s),
    hi.exec_of_legal horder (hcut.blocksLegal_second hb first), hi.keeps_state s, ?_⟩
  rw [hsecond]
  exact ⟨rfl, rfl, rfl, rfl⟩

/-- Settles O54: the sample loop over `n1 + n2` samples is the loop over `n1` and then over `n2`, and each filter's
memory, coefficients, DMEM and SAT come through the first run as the second needs them. -/
theorem filtersAreDecomposable : Obligations.FiltersAreDecomposable := by
  intro i vm vc rs rd rn s r1 r2 src dst n1 n2 hi hp hsrc hdst hs hd hn hs1 hd1 hn1 hs2 hd2 hn2
  have hcut : CutsRun rs rd rn s.r r1 r2 := ⟨by omega, by omega, by omega, by omega, by omega⟩
  have hb : s.BlocksLegal rs rd rn := ⟨by omega, by omega⟩
  obtain rfl | ⟨hne, rfl | rfl⟩ := hi
  · exact (decomposes_syn vc rs rd rn).exec_cut hcut hp hb
  · exact (decomposes_filterVec .numerator hne (exec_fir_of_legal vm vc)).exec_cut hcut hp hb
  · exact (decomposes_filterVec .denominator hne (exec_iir_of_legal vm vc)).exec_cut hcut hp hb

end Sys2Proof.Machine
end

section
/-! PROOF. The sequencer and the scalar instructions (`44_sequencer_scalar.md` R255 to R273): what a step of the engine
runs, how an instruction can leave STATE, the constants, the arithmetic, the branches and the program's access to the
CSR space. -/

namespace Sys2Proof.Machine

open Sys2Proof

/-! ## The engine's step (R255) -/

theorem engineStep_of_fetch {s : State} {i : Instr} (hs : s.state = .running) (h : fetchInstr s = .ok i) :
    engineStep s = exec i s := by
  simp only [engineStep, if_pos hs, h]

/-- Settles O5: the engine's turn is an engine step, and its fetch hands over the decoded instruction. -/
theorem stepRunsTheDecodedInstruction : Obligations.StepRunsTheDecodedInstruction := by
  intro s i hturn hrun hpc hdec
  have hfetch : fetchInstr s.turnTaken = .ok i := fetchInstr_of_decode hpc hdec
  rw [step_of_engineNext hturn, engineStep_of_fetch (s := s.turnTaken) hrun hfetch]

/-- Settles O6: the engine's turn is an engine step, which rests. -/
theorem engineRestsUnlessRunning : Obligations.EngineRestsUnlessRunning := by
  intro s hturn hrest
  rw [step_of_engineNext hturn, engineStep_of_not_running (s := s.turnTaken) hrest]

/-! ## NOP and HALT (R256, R257) -/

theorem exec_halt (s : State) : exec .halt s = .next { s with state := .halted } := rfl

/-- A halted engine raises `irq` where DONE_IE is set (R320). -/
theorem State.irq_of_halted {s : State} (hs : s.state = .halted) (hie : s.ien.getLsbD 0 = true) : s.irq = true := by
  rw [State.irq, hie, hs]
  rfl

/-- Settles O17: both meanings are their record updates, and HALT's leaves an engine that is HALTED. -/
theorem nopAndHalt : Obligations.NopAndHalt :=
  ⟨rfl, rfl, fun s => ⟨rfl, exec_halt s, State.irq_of_halted (s := { s with state := .halted }) rfl⟩⟩

/-- Settles O12: HALT has no fault to take, and any other instruction keeps STATE unless it takes one. -/
theorem onlyHaltHalts : Obligations.OnlyHaltHalts := by
  intro i s t hrun h
  by_cases hi : i = .halt
  · subst hi
    rw [exec_halt] at h
    injection h with h
    exact .inl ⟨rfl, h ▸ rfl⟩
  · refine .inr ⟨hi, ?_⟩
    obtain ⟨tr, rfl⟩ | hframe := exec_frame h
    · exact .inr rfl
    · exact .inl (by rw [hframe.state, if_neg hi, hrun])

/-! ## Constants (R258, R259, R273) -/

theorem exec_li (d : SReg) (imm : BitVec 16) (s : State) :
    exec (.li d imm) s = .next { s with r := s.r.set d (sext16 imm), pc := s.pc + 1 } := rfl

theorem exec_lih (d : SReg) (imm : BitVec 16) (s : State) :
    exec (.lih d imm) s =
      .next { s with r := s.r.set d (imm ++ s.r[d].extractLsb' 0 16), pc := s.pc + 1 } := rfl

/-- Two halves side by side, as the number LIH makes of them. -/
theorem append_low_half (imm : BitVec 16) (w : Word) :
    imm ++ w.extractLsb' 0 16 = BitVec.ofNat 32 (imm.toNat * 65536 + w.toNat % 65536) := by
  have hlow : w.toNat % 2 ^ 16 < 2 ^ 16 := Nat.mod_lt _ (by decide)
  have himm := imm.isLt
  apply BitVec.eq_of_toNat_eq
  rw [BitVec.toNat_append, BitVec.extractLsb'_toNat, Nat.shiftRight_zero, ← Nat.shiftLeft_add_eq_or_of_lt hlow,
    Nat.shiftLeft_eq, BitVec.toNat_ofNat]
  omega

/-- Sign extension keeps the half it extends. -/
theorem low_half_sext16 (imm : BitVec 16) : (sext16 imm).extractLsb' 0 16 = imm := by
  change BitVec.extractLsb' 0 16 (imm.signExtend 32) = imm
  ext k hk
  rw [BitVec.getElem_extractLsb', Nat.zero_add, BitVec.getLsbD_signExtend, if_pos hk, BitVec.getLsbD_eq_getElem hk]
  simp only [Bool.and_eq_right_iff_imp, decide_eq_true_iff]
  omega

theorem append_halves (w : Word) : w.extractLsb' 16 16 ++ w.extractLsb' 0 16 = w := by
  rw [BitVec.extractLsb'_append_extractLsb'_eq_extractLsb' (by decide), BitVec.extractLsb'_eq_self]

/-- Settles O18: LIH's two halves read as one number. -/
theorem constantLoads : Obligations.ConstantLoads := by
  intro d imm s
  refine ⟨rfl, rfl, exec_li d imm s, ?_⟩
  rw [exec_lih, append_low_half]

/-- Settles O19: LIH finds in the register the low half that LI put there. -/
theorem liThenLihLoadsAnyConstant : Obligations.LiThenLihLoadsAnyConstant := by
  intro d w s
  have hpc : s.pc + 1 + 1 = s.pc + 2 := BitVec.add_assoc ..
  simp only [execAll, exec_li, exec_lih, Fin.getElem_fin, Vector.getElem_set_self, low_half_sext16, append_halves,
    Vector.set_set, hpc]

/-! ## Arithmetic (R260 to R263) -/

/-- Settles O20: each meaning writes `wrap32` of the exact result and advances. -/
theorem scalarArithmeticWraps : Obligations.ScalarArithmeticWraps :=
  fun _ _ _ _ _ => ⟨rfl, rfl, rfl, rfl, rfl, rfl⟩

theorem exec_mulq (d a b : SReg) (s : State) :
    exec (.mulq d a b) s = .next
      { s with
        r := s.r.set d (sat32 (mulqExact s.r[a] s.r[b]))
        sat := s.sat || clamps (mulqExact s.r[a] s.r[b])
        pc := s.pc + 1 } := rfl

theorem clamps_eq_decide (v : Int) : clamps v = decide (OutOfRange v) := by
  rw [Bool.eq_iff_iff, clamps_iff, decide_eq_true_iff]

/-- Settles O21: the model's saturation and its clamp test are those of R8. -/
theorem mulqRoundsAndSaturates : Obligations.MulqRoundsAndSaturates := by
  intro d a b s
  refine ⟨rfl, ?_⟩
  rw [exec_mulq, sat32_eq_ofInt_saturated, clamps_eq_decide]
  rfl

/-! ## Branches (R264 to R268, R271) -/

/-- A choice between two values of PC is a choice of PC alone. -/
theorem ite_pc {c c' : Prop} [Decidable c] [Decidable c'] (h : c ↔ c') (s : State) (x y : BitVec 16) :
    (if c then { s with pc := x } else { s with pc := y }) = { s with pc := if c' then x else y } := by
  by_cases hc : c
  · rw [if_pos hc, if_pos (h.1 hc)]
  · rw [if_neg hc, if_neg (mt h.2 hc)]

/-- Indices 3 to 7 name no flag (R47). -/
theorem State.flag_iff (s : State) (f : FlagNo) :
    s.flag f = true ↔ (f = 0 ∧ s.rf = true) ∨ (f = 1 ∧ s.sat = true) ∨ (f = 2 ∧ s.mf = true) := by
  unfold State.flag
  split_ifs with h0 h1 h2
  · simp [h0]
  · simp [h1]
  · simp [h2]
  · simp [h0, h1, h2]

/-- Settles O22: a branch chooses between its target and the next instruction. -/
theorem branchesGoToTheirTarget : Obligations.BranchesGoToTheirTarget := by
  intro r f imm s target flag
  exact ⟨rfl, rfl, rfl, rfl, rfl, rfl,
    congrArg _ (ite_pc Iff.rfl s target (s.pc + 1)), congrArg _ (ite_pc Iff.rfl s target (s.pc + 1)),
    congrArg _ (ite_pc (s.flag_iff f) s target (s.pc + 1)), congrArg _ (ite_pc (s.flag_iff f) s (s.pc + 1) target)⟩

/-! ## The program's access to the CSR space (R269, R270, R336) -/

/-- CsrAccess is cause 7, with the number in FINFO (R311, R336). -/
theorem takeFault_csrAccess {n : Nat} (hn : n < 256) (s : State) :
    takeFault (.csrAccess (BitVec.ofNat 8 n)) s = s.withFault 7 n := by
  have hinfo : (BitVec.ofNat 8 n).setWidth 32 = BitVec.ofNat 32 n := by bv_omega
  rw [takeFault, recordFault, Trap.code, Trap.info, hinfo]
  rfl

theorem exec_csrr_of_assigned {csr : BitVec 8} {c : Csr} (d : SReg) (s : State) (hc : csrOf csr = some c) :
    exec (.csrr d csr) s = .next { s with r := s.r.set d (readCsr c s), pc := s.pc + 1 } := by
  change execCsrr d csr s = _
  rw [execCsrr, hc]
  rfl

theorem exec_csrr_of_unassigned {n : Nat} (d : SReg) (s : State) (hn : CsrUnassigned n) :
    exec (.csrr d (BitVec.ofNat 8 n)) s = .next (s.withFault 7 n) := by
  change execCsrr d _ s = _
  rw [execCsrr, csrOf_of_unassigned hn, ← takeFault_csrAccess (by omega)]
  rfl

theorem exec_csrw_of_writable {csr : BitVec 8} {c : Csr} (a : SReg) (s : State) (hc : csrOf csr = some c)
    (hw : c.writable = true) : exec (.csrw a csr) s = .next { writeCsr c s.r[a] s with pc := s.pc + 1 } := by
  change execCsrw a csr s = _
  rw [execCsrw, hc, ← writeCsr_pc c s.r[a] s]
  dsimp only
  rw [if_pos hw]
  rfl

/-- A number that no writable CSR has is refused to a program, whether it is assigned or not. -/
theorem exec_csrw_of_not_writable {n : Nat} (a : SReg) (s : State) (hn : n < 256)
    (hno : ∀ c ∈ csrOf (BitVec.ofNat 8 n), c.writable = false) :
    exec (.csrw a (BitVec.ofNat 8 n)) s = .next (s.withFault 7 n) := by
  change execCsrw a _ s = _
  rw [execCsrw, ← takeFault_csrAccess hn]
  cases hc : csrOf (BitVec.ofNat 8 n) with
  | none => rfl
  | some c => simp only [hno c hc, Bool.false_eq_true, if_false, finish_some]

/-- STATUS as a running engine reads it: STATE is 1 and `irq` is low (R51, R269). -/
theorem State.statusWord_of_running {s : State} (hs : s.state = .running) :
    s.statusWord = BitVec.ofNat 32 (1 + 16 * s.herr.toNat) := by
  have hirq : s.irq = false := by simp [State.irq, hs]
  rw [s.statusWord_eq, hirq, hs]
  rfl

/-- Settles O23: the program reads through the CSR map, whose reads are the table of R269. -/
theorem csrrDeliversEveryCsr : Obligations.CsrrDeliversEveryCsr := by
  intro d s hrun reads
  refine ⟨fun _ => rfl, s.csrReads_of_readCsr fun n c _ hc => exec_csrr_of_assigned d s hc, ?_,
    fun n hn => exec_csrr_of_unassigned d s hn⟩
  rw [← State.statusWord_of_running hrun]
  exact exec_csrr_of_assigned (c := .status) d s rfl

/-- Settles O24: the program writes through the CSR map, whose writes are the table of R270, and no other number is
writable. -/
theorem csrwStoresEveryWritableCsr : Obligations.CsrwStoresEveryWritableCsr := by
  intro a s
  refine ⟨fun _ => rfl, s.csrWrites_of_writeCsr fun n c _ hc hw => exec_csrw_of_writable a s hc hw, ?_⟩
  rintro n (hro | rfl | hun)
  · obtain ⟨hn, hno⟩ := csrReadOnly_not_writable n hro
    exact exec_csrw_of_not_writable a s hn fun c hc => (hno c hc).2
  · refine exec_csrw_of_not_writable a s (by decide) fun c hc => ?_
    cases hc
    rfl
  · exact exec_csrw_of_not_writable a s (by omega) (by simp [csrOf_of_unassigned hun])

end Sys2Proof.Machine
end

section
/-! PROOF. The memory and vector moves (`45_vector_memory.md` R290 to R299, `43_synthesis_filter.md` R241): which fault
a check takes, what a completed move leaves in the lanes of its destination, and each instruction as the use of the
two. -/

namespace Sys2Proof.Machine

open Sys2Proof

/-! ## The checks and their faults (R299, R332, R334) -/

/-- DmemRange is cause 3, with the address in FINFO (R311, R332). -/
theorem takeFault_dmemRange (addr : Nat) (s : State) : takeFault (.dmemRange addr) s = s.withFault 3 addr := rfl

theorem finish_wordTrap_of_inside {addr : Nat} (h : addr < Config.dmemWords) (effect : State → State) (s : State) :
    finish (wordTrap addr) effect s = .next (effect s) := by
  rw [(wordTrap_eq_none_iff addr).2 h, finish_none]

theorem finish_wordTrap_of_outside {addr : Nat} (h : addr ≥ Config.dmemWords) (effect : State → State) (s : State) :
    finish (wordTrap addr) effect s = .next (s.withFault 3 addr) := by
  rw [wordTrap_of_illegal h, finish_some, takeFault_dmemRange]

/-- An illegal ORDER is reported before any later check. -/
theorem finish_order_or_of_illegal {s : State} (hp : ¬ s.OrderLegal) (trap : Option Trap) (effect : State → State) :
    finish ((orderTrap s).or trap) effect s = .next (s.withFault 5 s.order.toNat) := by
  have hp' : ¬ (1 ≤ s.p ∧ s.p ≤ 16) := hp
  rw [orderTrap_of_illegal (by omega), Option.some_or, finish_some, takeFault_badOrder]

theorem finish_order_of_legal {s : State} (hp : s.OrderLegal) (effect : State → State) :
    finish (orderTrap s) effect s = .next (effect s) := by
  rw [(orderTrap_eq_none_iff s).2 hp, finish_none]

theorem finish_order_of_illegal {s : State} (hp : ¬ s.OrderLegal) (effect : State → State) :
    finish (orderTrap s) effect s = .next (s.withFault 5 s.order.toNat) := by
  rw [← finish_order_or_of_illegal hp none effect, Option.or_none]

/-- The checks of VLD and VST pass where ORDER is legal and the block lies in DMEM. -/
theorem finish_order_block_of_legal {s : State} {base : Nat} (hp : s.OrderLegal)
    (h : base + s.order.toNat ≤ Config.dmemWords) (effect : State → State) :
    finish ((orderTrap s).or (blockTrap base s.p)) effect s = .next (effect s) := by
  rw [(orderTrap_eq_none_iff s).2 hp, (blockTrap_eq_none_iff base s.p).2 h, Option.none_or, finish_none]

/-- The faults of VLD and VST in their order: BadOrder, then DmemRange (R292, R293). -/
theorem finish_order_block_faults (s : State) (base : Nat) (effect : State → State) :
    (¬ s.OrderLegal → finish ((orderTrap s).or (blockTrap base s.p)) effect s =
      .next (s.withFault 5 s.order.toNat)) ∧
    (s.OrderLegal → base + s.order.toNat > Config.dmemWords →
      finish ((orderTrap s).or (blockTrap base s.p)) effect s =
        .next (s.withFault 3 (max base Config.dmemWords))) := by
  refine ⟨fun hp => finish_order_or_of_illegal hp _ effect, fun hp h => ?_⟩
  rw [(orderTrap_eq_none_iff s).2 hp, Option.none_or, blockTrap_of_illegal (cnt := s.p) h, finish_some,
    takeFault_dmemRange]

/-! ## The dispatch -/

theorem exec_ldw (d a : SReg) (imm : BitVec 16) (s : State) : exec (.ldw d a imm) s = execLdw d a imm s := rfl
theorem exec_stw (b a : SReg) (imm : BitVec 16) (s : State) : exec (.stw b a imm) s = execStw b a imm s := rfl
theorem exec_vld (d : VReg) (a : SReg) (s : State) : exec (.vld d a) s = execVld d a s := rfl
theorem exec_vst (b : VReg) (a : SReg) (s : State) : exec (.vst b a) s = execVst b a s := rfl
theorem exec_vmov (d a : VReg) (s : State) : exec (.vmov d a) s = execVmov d a s := rfl
theorem exec_vzero (d : VReg) (s : State) : exec (.vzero d) s = execVzero d s := rfl
theorem exec_synrd (d : VReg) (s : State) : exec (.synrd d) s = execSynrd d s := rfl
theorem exec_vadd (d a b : VReg) (s : State) : exec (.vadd d a b) s = execVadd d a b s := rfl
theorem exec_vsub (d a b : VReg) (s : State) : exec (.vsub d a b) s = execVsub d a b s := rfl
theorem exec_vlerp (d a b : VReg) (w : SReg) (s : State) : exec (.vlerp d a b w) s = execVlerp d a b w s := rfl

/-! ## LDW and STW (R290, R291) -/

/-- Settles O26: LDW is a register write behind the range check of its word. -/
theorem ldwLoadsAWord : Obligations.LdwLoadsAWord := by
  intro d a imm s addr
  rw [exec_ldw]
  exact ⟨rfl, fun h => finish_wordTrap_of_inside h _ s, fun h => finish_wordTrap_of_outside h _ s⟩

/-- Settles O27: STW is a word store behind the range check of its word. -/
theorem stwStoresAWord : Obligations.StwStoresAWord := by
  intro b a imm s addr
  rw [exec_stw]
  refine ⟨rfl, fun h => ⟨s.dmem.writeWord addr s.r[b], finish_wordTrap_of_inside h _ s, ?_, fun byte hbyte => ?_⟩,
    fun h => finish_wordTrap_of_outside h _ s⟩
  · rw [Memory.readWord_writeWord, if_pos rfl]
  · exact Memory.readByte_writeWord_of_ne _ _ _ _ hbyte

/-! ## What a move leaves in its lanes (R43, R8) -/

theorem Lanes.getElem_update_below (x : Lanes) (p : Nat) (f : Nat → Word) (k : Fin 16) :
    (x.update 0 p f)[k] = if k.val < p then f k.val else x[k] := by
  split_ifs with hk
  · exact Lanes.update_active x f hk
  · exact Lanes.update_inactive x f (not_lt.1 hk)

/-- An instruction that writes the words `w` to the active lanes of `V[d]` changes those lanes and PC. -/
theorem active_lanes_of_putLanes {i : Instr} {s : State} {d : VReg} {f : Nat → Word} {w : Fin 16 → Word}
    (h : exec i s = .next (s.putLanes d 0 s.p f).advance) (hw : ∀ k : Fin 16, f k.val = w k) :
    ∃ x : Lanes, exec i s = .next { s with v := s.v.set d x, pc := s.pc + 1 } ∧
      ∀ k : Fin 16, x[k] = if k.val < s.p then w k else (s.v[d])[k] := by
  refine ⟨(s.vec d).update 0 s.p f, h, fun k => ?_⟩
  rw [Lanes.getElem_update_below, hw]
  rfl

/-- An instruction that writes the saturated integers `e` to the active lanes of `V[d]` changes those lanes, PC, and SAT
where one of them clamps. -/
theorem saturated_lanes_of_putSatLanes {i : Instr} {s : State} {d : VReg} {f : Nat → Int} {e : Fin 16 → Int}
    (hp : s.OrderLegal) (h : exec i s = .next (s.putSatLanes d 0 s.p f).advance)
    (he : ∀ k : Fin 16, f k.val = e k) :
    ∃ (x : Lanes) (sat : Bool), exec i s = .next { s with v := s.v.set d x, sat := sat, pc := s.pc + 1 } ∧
      (∀ k : Fin 16, x[k] = if k.val < s.p then BitVec.ofInt 32 (saturated (e k)) else (s.v[d])[k]) ∧
      (sat = true ↔ s.sat = true ∨ ∃ k : Fin 16, k.val < s.p ∧ OutOfRange (e k)) := by
  refine ⟨(s.vec d).update 0 s.p fun k => sat32 (f k), (s.putSatLanes d 0 s.p f).sat, h, fun k => ?_, ?_⟩
  · rw [Lanes.getElem_update_below, sat32_eq_ofInt_saturated, he]
    rfl
  · have hp16 : s.p ≤ 16 := hp.2
    rw [sat_putSatLanes_iff_outOfRange s d f hp16]
    simp only [he, Nat.zero_le, true_and]

/-! ## VLD and VST (R292, R293) -/

theorem exec_vld_of_inside {s : State} (d : VReg) {a : SReg} (hp : s.OrderLegal)
    (h : s.r[a].toNat + s.order.toNat ≤ Config.dmemWords) :
    exec (.vld d a) s = .next (s.putLanes d 0 s.p fun k => s.dmem.readWord (s.regNat a + k)).advance :=
  (exec_vld d a s).trans (finish_order_block_of_legal hp h _)

/-- Settles O28: VLD writes the words of its block to the active lanes. -/
theorem vldLoadsActiveLanes : Obligations.VldLoadsActiveLanes := by
  intro d a s p base
  refine ⟨rfl, fun hp h => active_lanes_of_putLanes (exec_vld_of_inside d hp h) fun _ => rfl, ?_⟩
  rw [exec_vld]
  exact finish_order_block_faults s base _

/-- The words VST stores: the active lanes of `V[b]`. -/
def State.activeWords (s : State) (b : VReg) : List Word := (List.range s.p).map (s.vec b).word

theorem State.length_activeWords (s : State) (b : VReg) : (s.activeWords b).length = s.p := by
  simp [State.activeWords]

theorem State.getElem_activeWords (s : State) (b : VReg) (k : Fin 16) (hk : k.val < (s.activeWords b).length) :
    (s.activeWords b)[k.val] = (s.v[b])[k] := by
  simp only [State.activeWords, List.getElem_map, List.getElem_range, Lanes.word_fin]
  rfl

theorem exec_vst_of_inside {s : State} (b : VReg) {a : SReg} (hp : s.OrderLegal)
    (h : s.r[a].toNat + s.order.toNat ≤ Config.dmemWords) :
    exec (.vst b a) s = .next
      { s with dmem := s.dmem.writeBlock (s.regNat a) (s.activeWords b), pc := s.pc + 1 } :=
  (exec_vst b a s).trans (finish_order_block_of_legal hp h _)

/-- Word `k` of a block that was stored (R107). -/
theorem Memory.readWord_writeBlock_add (m : Memory) (base : Nat) {ws : List Word} {k : Nat} (hk : k < ws.length) :
    (m.writeBlock base ws).readWord (base + k) = ws[k] := by
  have hsub : base + k - base = k := Nat.add_sub_cancel_left ..
  rw [Memory.readWord_writeBlock, dif_pos ⟨Nat.le_add_right .., hsub.symm ▸ hk⟩]
  simp only [hsub]

/-- Settles O29: VST stores the active lanes as one block. -/
theorem vstStoresActiveLanes : Obligations.VstStoresActiveLanes := by
  intro b a s p base
  refine ⟨rfl, fun hp h => ⟨_, exec_vst_of_inside b hp h, fun k hk => ?_, fun byte hbyte => ?_⟩, ?_⟩
  · have hlen : k.val < (s.activeWords b).length := hk.trans_eq (s.length_activeWords b).symm
    exact (Memory.readWord_writeBlock_add _ _ hlen).trans (s.getElem_activeWords b k hlen)
  · refine Memory.readByte_writeBlock_of_outside _ _ _ _ ?_
    rw [s.length_activeWords]
    exact hbyte
  · rw [exec_vst]
    exact finish_order_block_faults s base _

/-! ## VMOV, VZERO and SYNRD (R294, R295, R241) -/

theorem exec_vmov_of_legal {s : State} (d a : VReg) (hp : s.OrderLegal) :
    exec (.vmov d a) s = .next (s.putLanes d 0 s.p (s.vec a).word).advance :=
  (exec_vmov d a s).trans (finish_order_of_legal hp _)

theorem exec_synrd_of_legal {s : State} (d : VReg) (hp : s.OrderLegal) :
    exec (.synrd d) s = .next (s.putLanes d 0 s.p s.synmem.word).advance :=
  (exec_synrd d s).trans (finish_order_of_legal hp _)

/-- Settles O30: each move writes the active lanes with the words of its source. -/
theorem vectorMovesWriteActiveLanes : Obligations.VectorMovesWriteActiveLanes := by
  intro d a s p
  refine ⟨rfl, rfl, rfl, fun hp => ⟨?_, ?_, ?_⟩, fun hp => ?_⟩
  · exact active_lanes_of_putLanes (exec_vmov_of_legal d a hp) (Lanes.word_fin _)
  · exact active_lanes_of_putLanes (exec_vzero_of_legal d hp) fun _ => rfl
  · exact active_lanes_of_putLanes (exec_synrd_of_legal d hp) (Lanes.word_fin _)
  · rw [exec_vmov, exec_vzero, exec_synrd]
    exact ⟨finish_order_of_illegal hp _, finish_order_of_illegal hp _, finish_order_of_illegal hp _⟩

/-! ## VADD, VSUB and VLERP (R296 to R298) -/

theorem exec_vadd_of_legal {s : State} (d a b : VReg) (hp : s.OrderLegal) :
    exec (.vadd d a b) s = .next (s.putSatLanes d 0 s.p fun k => s.laneInt a k + s.laneInt b k).advance :=
  (exec_vadd d a b s).trans (finish_order_of_legal hp _)

theorem exec_vsub_of_legal {s : State} (d a b : VReg) (hp : s.OrderLegal) :
    exec (.vsub d a b) s = .next (s.putSatLanes d 0 s.p fun k => s.laneInt a k - s.laneInt b k).advance :=
  (exec_vsub d a b s).trans (finish_order_of_legal hp _)

theorem exec_vlerp_of_legal {s : State} (d a b : VReg) (w : SReg) (hp : s.OrderLegal) :
    exec (.vlerp d a b w) s = .next (s.putSatLanes d 0 s.p (lerpLane s a b w)).advance :=
  (exec_vlerp d a b w s).trans (finish_order_of_legal hp _)

/-- Settles O32: the exact sums and differences of the lanes before the instruction, saturated. -/
theorem vaddVsubSaturate : Obligations.VaddVsubSaturate := by
  intro d a b s p result
  refine ⟨rfl, rfl, fun hp => ⟨?_, ?_⟩, fun hp => ?_⟩
  · exact saturated_lanes_of_putSatLanes hp (exec_vadd_of_legal d a b hp) fun k => by simp only [s.laneInt_fin]
  · exact saturated_lanes_of_putSatLanes hp (exec_vsub_of_legal d a b hp) fun k => by simp only [s.laneInt_fin]
  · rw [exec_vadd, exec_vsub]
    exact ⟨finish_order_of_illegal hp _, finish_order_of_illegal hp _⟩

theorem lerpLane_fin (s : State) (a b : VReg) (w : SReg) (k : Fin 16) :
    lerpLane s a b w k.val = s.lane a k + rounded (s.r[w].toInt * (s.lane b k - s.lane a k)) := by
  rw [lerpLane, s.laneInt_fin, s.laneInt_fin]
  rfl

/-- Weight 0 rounds to nothing added (R298). -/
theorem add_rounded_weight_zero (x y : Int) : x + rounded ((0 : Word).toInt * (y - x)) = x := by
  have hzero : (0 : Word).toInt = 0 := by decide
  have hexact : rounded 0 = 0 := by decide
  rw [hzero, zero_mul, hexact, add_zero]

/-- Weight 65536 is 1 in Q16, and its product needs no rounding (R298). -/
theorem add_rounded_weight_one (x y : Int) : x + rounded ((65536 : Word).toInt * (y - x)) = y := by
  have hone : (65536 : Word).toInt = 65536 := by decide
  have hexact : rounded ((y - x) * 65536) = y - x := rnd16_mul (y - x)
  rw [hone, mul_comm, hexact, add_sub_cancel]

theorem ofInt_saturated_toInt (w : Word) : BitVec.ofInt 32 (saturated w.toInt) = w := by
  rw [← sat32_eq_ofInt_saturated, sat32_toInt]

/-- Settles O33: VLERP saturates the interpolated lanes, and each end weight makes the interpolation one of the two
source words, which saturation keeps. -/
theorem vlerpInterpolates : Obligations.VlerpInterpolates := by
  intro d a b w s p e
  refine ⟨rfl, fun hp => ?_, fun hp => (exec_vlerp d a b w s).trans (finish_order_of_illegal hp _)⟩
  obtain ⟨x, sat, hexec, hlanes, hsat⟩ :=
    saturated_lanes_of_putSatLanes hp (exec_vlerp_of_legal d a b w hp) (lerpLane_fin s a b w)
  refine ⟨x, sat, hexec, hlanes, hsat, fun hw k hk => ?_, fun hw k hk => ?_⟩
  · rw [hlanes k, if_pos (c := k.val < s.p) hk, hw, add_rounded_weight_zero, ofInt_saturated_toInt]
  · rw [hlanes k, if_pos (c := k.val < s.p) hk, hw, add_rounded_weight_one, ofInt_saturated_toInt]

end Sys2Proof.Machine
end

section
/-! PROOF. Faults, run control and the interrupt line (`60_exceptions.md` R311 to R337): every step of either agent
keeps a legal state legal, a fault changes nothing but what R314 names, and each check raises its fault before the later
ones. -/

namespace Sys2Proof.Machine

open Sys2Proof

/-! ## The fault registers (R317) -/

/-- While no fault is recorded, the fault registers are 0. -/
theorem State.faultConsistent_iff_of_not_faulted {s : State} (hs : s.state ≠ .faulted) :
    s.FaultConsistent ↔ s.fcause = 0 ∧ s.fpc = 0 ∧ s.finfo = 0 := by
  constructor
  · rintro ⟨hiff, -, hclear, -⟩
    have hcause : s.fcause = 0 := not_not.1 fun h => hs (hiff.2 h)
    exact ⟨hcause, hclear hcause⟩
  · rintro ⟨hcause, hregs⟩
    exact ⟨iff_of_false hs (not_not.2 hcause), .inl (by rw [hcause]; decide), fun _ => hregs, fun h => absurd h hs⟩

/-- Fault entry records a cause and the PC, whatever was recorded before (R314). -/
theorem faultConsistent_recordFault {cause : BitVec 4} (hne : cause ≠ 0) (hle : cause.toNat ≤ 8 ∨ cause = 15)
    (info : Word) (s : State) : (recordFault cause info s).FaultConsistent :=
  ⟨iff_of_true rfl hne, hle, fun h => absurd h hne, fun _ => rfl⟩

/-- An instruction that completes leaves the fault registers of a running engine at 0. -/
theorem EngineFrame.faultConsistent {i : Instr} {s t : State} (h : EngineFrame i s t) (hrun : s.state = .running)
    (hs : s.FaultConsistent) : t.FaultConsistent := by
  have hclear := (State.faultConsistent_iff_of_not_faulted (by rw [hrun]; decide)).1 hs
  have hnot : t.state ≠ .faulted := by
    rw [h.state, hrun]
    split_ifs <;> decide
  rw [State.faultConsistent_iff_of_not_faulted hnot, h.fcause, h.fpc, h.finfo]
  exact hclear

/-! ## DMEM and ROOTCNT under an instruction (R60, R72) -/

/-- The part of legality that an instruction's own writes reach: DMEM canonical within its size, ROOTCNT at most 16. -/
structure State.DataLegal (s : State) : Prop where
  wf : s.dmem.wf
  within : s.dmem.within Config.dmemWords
  rootcnt : s.rootcnt.toNat ≤ 16

theorem State.DataLegal.of_kept {s t : State} (h : s.DataLegal) (hdmem : t.dmem = s.dmem)
    (hrootcnt : t.rootcnt = s.rootcnt) : t.DataLegal :=
  ⟨hdmem ▸ h.wf, hdmem ▸ h.within, hrootcnt ▸ h.rootcnt⟩

/-- A fault changes neither DMEM nor ROOTCNT (R314), so the effect alone decides, and it happens only where no check
raised a fault. -/
theorem State.DataLegal.of_finish {trap : Option Trap} {effect : State → State} {s t : State} (hs : s.DataLegal)
    (h : finish trap effect s = .next t) (he : trap = none → (effect s).DataLegal) : t.DataLegal := by
  obtain ⟨tr, -, rfl⟩ | ⟨hnone, rfl⟩ := finish_cases h
  · exact hs.of_kept rfl rfl
  · exact he hnone

theorem State.DataLegal.stw {s t : State} (hs : s.DataLegal) {b a : SReg} {imm : BitVec 16}
    (h : execStw b a imm s = .next t) : t.DataLegal :=
  hs.of_finish h fun hnone => ⟨Memory.wf_writeWord hs.wf _ _,
    Memory.within_writeWord hs.within _ _ ((wordTrap_eq_none_iff _).1 hnone), hs.rootcnt⟩

theorem State.DataLegal.vst {s t : State} (hs : s.DataLegal) {b : VReg} {a : SReg}
    (h : execVst b a s = .next t) : t.DataLegal := by
  refine hs.of_finish h fun hnone => ⟨Memory.wf_writeBlock _ hs.wf _, ?_, hs.rootcnt⟩
  have hblock := (blockTrap_eq_none_iff _ _).1 (Option.or_eq_none_iff.1 hnone).2
  refine Memory.within_writeBlock (s.activeWords b) hs.within _ ?_
  rw [s.length_activeWords]
  exact hblock

/-- A filter run stays inside the destination block, which was checked (R332). -/
theorem State.DataLegal.filter {s t : State} (hs : s.DataLegal) {rs rd rn : SReg} (hnone : filterTrap s rs rd rn = none)
    (kind : FilterKind) (mem : Lanes) (vc : VReg) (hdmem : t.dmem = (s.filter kind mem vc rs rd rn).dmem)
    (hrootcnt : t.rootcnt = s.rootcnt) : t.DataLegal := by
  obtain ⟨-, -, hdst⟩ := (filterTrap_eq_none_iff s rs rd rn).1 hnone
  refine ⟨?_, ?_, hrootcnt ▸ hs.rootcnt⟩
  · rw [hdmem]
    exact wf_filterRun _ _ _ _ _ _ hs.wf
  · rw [hdmem]
    exact within_filterRun _ _ _ _ _ _ hs.within hdst

/-- LSPROOT counts at most ORDER roots, and a legal ORDER is at most 16 (R60, R164). -/
theorem State.DataLegal.lsproot {s t : State} (hs : s.DataLegal) {vd va : VReg}
    (h : execLsproot vd va s = .next t) : t.DataLegal := by
  refine hs.of_finish h fun hnone => ?_
  obtain ⟨-, hp, -⟩ := (evenOrderTrap_eq_none_iff s).1 (Option.or_eq_none_iff.1 hnone).1
  have hcount : (s.lspRoots va).length ≤ s.p := s.length_lspRoots_le va
  obtain ⟨v, e⟩ := State.putRoots_eq vd (s.lspRoots va) s
  rw [e]
  exact ⟨hs.wf, hs.within, ((BitVec.toNat_ofNat _ _).trans_le (Nat.mod_le _ _)).trans (hcount.trans hp)⟩

/-- Every instruction keeps DMEM canonical within its size and ROOTCNT at most 16. -/
theorem exec_keeps_dataLegal {i : Instr} {s t : State} (h : exec i s = .next t) (hs : s.DataLegal) : t.DataLegal := by
  cases i <;> dsimp only [exec] at h
  case stw rs ra imm => exact hs.stw h
  case vst vs ra => exact hs.vst h
  case fir | iir | syn => exact hs.of_finish h fun hnone => hs.filter hnone _ _ _ rfl rfl
  case lsproot vd va => exact hs.lsproot h
  case csrw rs csr =>
    unfold execCsrw at h
    split at h
    next => exact hs.of_finish h fun _ => hs.of_kept rfl rfl
    next c _ => exact hs.of_finish h fun _ => hs.of_kept (writeCsr_dmem c _ s) (writeCsr_rootcnt c _ s)
  case csrr rd csr =>
    unfold execCsrr at h
    split at h <;> exact hs.of_finish h fun _ => hs.of_kept rfl rfl
  case bnz | bz | bfs | bfc =>
    refine hs.of_finish h fun _ => ?_
    split_ifs <;> exact hs.of_kept rfl rfl
  case vqenc vd vw =>
    exact hs.of_finish h fun _ => hs.of_kept
      (foldl_field State.dmem (State.encodeStage vd vw) (fun _ _ => rfl) s.stages s)
      (foldl_field State.rootcnt (State.encodeStage vd vw) (fun _ _ => rfl) s.stages s)
  case vqdec vd =>
    exact hs.of_finish h fun _ => hs.of_kept
      (foldl_field State.dmem (State.decodeStage vd) (fun _ _ => rfl) s.stages (s.cleared vd))
      (foldl_field State.rootcnt (State.decodeStage vd) (fun _ _ => rfl) s.stages (s.cleared vd))
  -- the rest write neither DMEM nor ROOTCNT
  all_goals exact hs.of_finish h fun _ => hs.of_kept rfl rfl

/-! ## The engine's step keeps legality -/

theorem State.Legal.dataLegal {s : State} (h : s.Legal) : s.DataLegal := by
  obtain ⟨-, ⟨-, ⟨hwf, hwithin⟩, -⟩, hrootcnt⟩ := h
  exact ⟨hwf, hwithin, hrootcnt⟩

/-- Where IMEM and TMEM are those of a legal state, the fault registers and the data decide. -/
theorem State.Legal.of_code_kept {s t : State} (h : s.Legal) (himem : t.imem = s.imem) (htmem : t.tmem = s.tmem)
    (hfault : t.FaultConsistent) (hdata : t.DataLegal) : t.Legal := by
  obtain ⟨-, ⟨hcode, -, htables⟩, -⟩ := h
  exact ⟨hfault, ⟨himem ▸ hcode, ⟨hdata.wf, hdata.within⟩, htmem ▸ htables⟩, hdata.rootcnt⟩

/-- Where the memories and ROOTCNT are those of a legal state, the fault registers decide. -/
theorem State.Legal.of_memories_kept {s t : State} (h : s.Legal) (himem : t.imem = s.imem) (hdmem : t.dmem = s.dmem)
    (htmem : t.tmem = s.tmem) (hrootcnt : t.rootcnt = s.rootcnt) (hfault : t.FaultConsistent) : t.Legal :=
  h.of_code_kept himem htmem hfault (h.dataLegal.of_kept hdmem hrootcnt)

theorem legal_recordFault {cause : BitVec 4} (hne : cause ≠ 0) (hle : cause.toNat ≤ 8 ∨ cause = 15) (info : Word)
    {s : State} (h : s.Legal) : (recordFault cause info s).Legal :=
  h.of_memories_kept rfl rfl rfl rfl (faultConsistent_recordFault hne hle info s)

theorem engineStep_keeps_legal {s t : State} (h : engineStep s = .next t) (hs : s.Legal) : t.Legal := by
  obtain ⟨hrun, ⟨tr, rfl⟩ | ⟨i, hexec, hframe⟩⟩ | ⟨-, rfl⟩ := engineStep_cases h
  · exact legal_recordFault tr.code_ne_zero (.inl tr.code_le) _ hs
  · exact hs.of_code_kept hframe.imem hframe.tmem (hframe.faultConsistent hrun hs.1)
      (exec_keeps_dataLegal hexec hs.dataLegal)
  · exact hs

/-! ## The host's step keeps legality -/

/-- A reset leaves the memories as they are and everything else 0 (R351). -/
theorem legal_resetRegisters {s : State} (h : s.Legal) : s.resetRegisters.Legal :=
  ⟨(State.faultConsistent_iff_of_not_faulted (by simp)).2 ⟨rfl, rfl, rfl⟩, h.2.1, Nat.zero_le _⟩

theorem legal_ctrlAbort {s : State} (h : s.Legal) : (ctrlAbort s).Legal := by
  unfold ctrlAbort
  split_ifs
  · exact legal_recordFault (by decide) (.inr rfl) 0 h
  · exact h

theorem legal_ctrlClr {s : State} (h : s.Legal) : (ctrlClr s).Legal := by
  unfold ctrlClr
  split_ifs
  · exact h.of_memories_kept rfl rfl rfl rfl
      ((State.faultConsistent_iff_of_not_faulted (by simp)).2 ⟨rfl, rfl, rfl⟩)
  · exact h

/-- START acts where no fault is recorded, so the engine starts with the fault registers 0. -/
theorem legal_ctrlStart {s : State} (h : s.Legal) : (ctrlStart s).Legal := by
  unfold ctrlStart
  split_ifs with hs
  · have hnot : s.state ≠ .faulted := by rcases hs with hs | hs <;> rw [hs] <;> decide
    exact h.of_memories_kept rfl rfl rfl rfl ((State.faultConsistent_iff_of_not_faulted (by simp)).2
      ((State.faultConsistent_iff_of_not_faulted hnot).1 h.1))
  · exact h

theorem legal_ctrlWrite (v : Word) {s : State} (h : s.Legal) : (ctrlWrite v s).Legal := by
  have optional {c : Bool} {f : State → State} (hf : ∀ {u : State}, u.Legal → (f u).Legal) {u : State}
      (hu : u.Legal) : (if c then f u else u).Legal := by
    split_ifs
    · exact hf hu
    · exact hu
  rw [ctrlWrite]
  by_cases hsrst : v.getLsbD 3 = true
  · rw [if_pos hsrst]
    exact legal_resetRegisters h
  · rw [if_neg hsrst]
    exact optional legal_ctrlStart (optional legal_ctrlClr (optional legal_ctrlAbort h))

/-- A write of a CSR reaches no memory, no fault register, not STATE, PC or ROOTCNT (R48). -/
theorem legal_writeCsr (c : Csr) (w : Word) {s : State} (h : s.Legal) : (writeCsr c w s).Legal := by
  simpa only [State.Legal, State.FaultConsistent, State.MemoriesCanonical, writeCsr_pc, writeCsr_state,
    writeCsr_fcause, writeCsr_fpc, writeCsr_finfo, writeCsr_rootcnt, writeCsr_imem, writeCsr_dmem, writeCsr_tmem]
    using h

/-- A word that the window names lies in its memory. -/
def Target.InMemory : Target → Prop
  | .imem a => a < Config.imemWords
  | .tmem a => a < Config.tmemWords
  | .dmem a => a < Config.dmemWords
  | .csr _ | .unmapped => True

/-- A slot beyond its memory's size is unmapped (R104). -/
theorem windowTarget_inMemory (addr : BitVec 14) : (windowTarget addr).InMemory := by
  obtain h | ⟨h, h'⟩ | h | ⟨h, h'⟩ | ⟨h, h'⟩ : addr.toNat < 0x0400 ∨
      (0x0400 ≤ addr.toNat ∧ addr.toNat - 0x0400 < 256) ∨
      ((0x0500 ≤ addr.toNat ∧ addr.toNat < 0x1000) ∨ 0x3000 ≤ addr.toNat) ∨
      (0x1000 ≤ addr.toNat ∧ addr.toNat < 0x2000) ∨ (0x2000 ≤ addr.toNat ∧ addr.toNat < 0x3000) := by omega
  · rw [windowTarget_imem h]
    exact h
  · rw [windowTarget_csr h' (by omega)]
    trivial
  · rw [windowTarget_unmapped h]
    trivial
  · rw [windowTarget_tmem h h', Target.InMemory, Config.tmemWords]
    omega
  · rw [windowTarget_dmem h h', Target.InMemory, Config.dmemWords]
    omega

/-- What an accepted host write does: a CTRL command, a write of a CSR, or a store of one word inside a memory (R104,
R105). -/
theorem hostWrite_cases {addr : BitVec 14} {v : Word} {s t : State} (h : hostWrite addr v s = some t) :
    t = ctrlWrite v s ∨ (∃ c, t = writeCsr c v s) ∨
      (∃ a < Config.imemWords, t = { s with imem := s.imem.writeWord a v }) ∨
      (∃ a < Config.tmemWords, t = { s with tmem := s.tmem.writeWord a v }) ∨
      ∃ a < Config.dmemWords, t = { s with dmem := s.dmem.writeWord a v } := by
  have accepted {c : Prop} [Decidable c] {u : State} (h : (if c then none else some u) = some t) : t = u :=
    (Option.some.inj (Option.ite_none_left_eq_some.1 h).2).symm
  have hin := windowTarget_inMemory addr
  cases hw : windowTarget addr with
  | unmapped => simp [hostWrite, hw] at h
  | csr n =>
    cases hc : csrOf n with
    | none => simp [hostWrite, hw, hc] at h
    | some c =>
      by_cases hctrl : c = .ctrl
      · rw [hostWrite_ctrl hw (hctrl ▸ hc)] at h
        exact .inl (Option.some.inj h).symm
      · rw [hostWrite_csr_of_ne_ctrl hw hc hctrl] at h
        exact .inr (.inl ⟨c, accepted h⟩)
  | imem a =>
    simp only [hostWrite, hw] at h hin
    exact .inr (.inr (.inl ⟨a, hin, accepted h⟩))
  | tmem a =>
    simp only [hostWrite, hw] at h hin
    exact .inr (.inr (.inr (.inl ⟨a, hin, accepted h⟩)))
  | dmem a =>
    simp only [hostWrite, hw] at h hin
    exact .inr (.inr (.inr (.inr ⟨a, hin, accepted h⟩)))

/-- A store inside a memory keeps it canonical and within its size (R107). -/
theorem Memory.canonical_writeWord {m : Memory} {words a : Nat} (h : m.wf ∧ m.within words) (w : Word)
    (ha : a < words) : (m.writeWord a w).wf ∧ (m.writeWord a w).within words :=
  ⟨Memory.wf_writeWord h.1 a w, Memory.within_writeWord h.2 a w ha⟩

theorem hostWrite_keeps_legal {addr : BitVec 14} {v : Word} {s t : State} (h : hostWrite addr v s = some t)
    (hs : s.Legal) : t.Legal := by
  obtain rfl | ⟨c, rfl⟩ | ⟨a, ha, rfl⟩ | ⟨a, ha, rfl⟩ | ⟨a, ha, rfl⟩ := hostWrite_cases h
  · exact legal_ctrlWrite v hs
  · exact legal_writeCsr c v hs
  all_goals obtain ⟨hfault, ⟨himem, hdmem, htmem⟩, hrootcnt⟩ := hs
  · exact ⟨hfault, ⟨Memory.canonical_writeWord himem v ha, hdmem, htmem⟩, hrootcnt⟩
  · exact ⟨hfault, ⟨himem, hdmem, Memory.canonical_writeWord htmem v ha⟩, hrootcnt⟩
  · exact ⟨hfault, ⟨himem, Memory.canonical_writeWord hdmem v ha, htmem⟩, hrootcnt⟩

theorem hostStep_keeps_legal (op : HostOp) {s : State} (hs : s.Legal) : (hostStep op s).Legal := by
  cases op with
  | reset => exact legal_resetRegisters hs
  | hread addr =>
    dsimp only [hostStep]
    cases hostRead addr s <;> exact hs
  | hwrite addr v =>
    dsimp only [hostStep]
    cases h : hostWrite addr v s with
    | none => exact hs
    | some t => exact hostWrite_keeps_legal h hs

/-- Settles O15: the turn is no part of legality, and whoever takes it keeps the state legal. -/
theorem legalStatesStayLegal : Obligations.LegalStatesStayLegal := by
  intro s t hs h
  have hturn : s.turnTaken.Legal := hs
  by_cases hnext : s.EngineNext
  · rw [step_of_engineNext hnext] at h
    exact engineStep_keeps_legal h hturn
  · obtain ⟨op, hop⟩ := step_of_not_engineNext hnext
    rw [hop] at h
    injection h with h
    exact h ▸ hostStep_keeps_legal op hturn


/-! ## Precise faults (R314, R315, R331) -/

/-- ImemRange is cause 2, with the PC in FINFO (R311, R331). -/
theorem takeFault_imemRange (pc : BitVec 16) (s : State) :
    takeFault (.imemRange pc) s = s.withFault 2 pc.toNat := by
  rw [takeFault, State.withFault, Trap.info, ← BitVec.ofNat_toNat]
  rfl

theorem fetchInstr_of_outside {s : State} (h : s.pc.toNat ≥ Config.imemWords) :
    fetchInstr s = .error (.imemRange s.pc) := by
  simp only [fetchInstr, fetchWord, if_pos h]

/-- Settles O7: the fetch fails before anything is decoded, and its fault is taken. -/
theorem fetchOutsideImemFaults : Obligations.FetchOutsideImemFaults := by
  intro s hturn hrun hpc
  calc step s = engineStep s.turnTaken := step_of_engineNext hturn
    _ = .next (takeFault (.imemRange s.pc) s.turnTaken) :=
      engineStep_of_fetch_error hrun (fetchInstr_of_outside (s := s.turnTaken) hpc)
    _ = .next (s.turnTaken.withFault 2 s.pc.toNat) := by rw [takeFault_imemRange]

/-- Settles O9: a running engine ends FAULTED only by taking a fault on the state as it was, for an instruction that
completes leaves it RUNNING or HALTED. -/
theorem faultsArePrecise : Obligations.FaultsArePrecise := by
  intro s t hturn hrun h hfaulted
  rw [step_of_engineNext hturn] at h
  obtain ⟨-, ⟨tr, rfl⟩ | ⟨i, -, hframe⟩⟩ | ⟨hrest, -⟩ := engineStep_cases h
  · exact ⟨tr.code_ne_zero, tr.code_le, rfl⟩
  · rw [hframe.state, State.turnTaken_state, hrun] at hfaulted
    split_ifs at hfaulted
  · exact absurd hrun hrest

/-! ## The first check that fails (R313) -/

/-- BadParam is cause 6, with the sub-code in FINFO (R311, R335). -/
theorem takeFault_badParam (sub : Nat) (s : State) : takeFault (.badParam sub) s = s.withFault 6 sub := rfl

/-- TmemRange is cause 4, with the last address of the codebook in FINFO (R311, R333). -/
theorem takeFault_tmemRange (last : Nat) (s : State) : takeFault (.tmemRange last) s = s.withFault 4 last := rfl

/-- IdxRange is cause 8, with the stage and its index in FINFO (R311, R337). -/
theorem takeFault_idxRange (st : StageNo) (idx : BitVec 10) (s : State) :
    takeFault (.idxRange st idx) s = s.withFault 8 (st.val * 65536 + idx.toNat) := rfl

/-- With a legal ORDER the later checks decide. -/
theorem finish_order_or_of_legal {s : State} (hp : s.OrderLegal) (trap : Option Trap) (effect : State → State) :
    finish ((orderTrap s).or trap) effect s = finish trap effect s := by
  rw [(orderTrap_eq_none_iff s).2 hp, Option.none_or]

/-- The first check that fails decides, whatever the later ones answer. -/
theorem finish_or_of_some {trap : Option Trap} {t : Trap} (h : trap = some t) (later : Option Trap)
    (effect : State → State) (s : State) : finish (trap.or later) effect s = .next (takeFault t s) := by
  rw [h, Option.some_or, finish_some]

theorem finish_of_some {trap : Option Trap} {t : Trap} (h : trap = some t) (effect : State → State) (s : State) :
    finish trap effect s = .next (takeFault t s) := by
  rw [h, finish_some]

/-! ## The dispatch -/

theorem exec_lsproot (d a : VReg) (s : State) : exec (.lsproot d a) s = execLsproot d a s := rfl
theorem exec_lsppoly (d a : VReg) (s : State) : exec (.lsppoly d a) s = execLsppoly d a s := rfl
theorem exec_lspmrg (d : VReg) (rm : SReg) (s : State) : exec (.lspmrg d rm) s = execLspmrg d rm s := rfl
theorem exec_vqs (d w : VReg) (st : StageNo) (s : State) : exec (.vqs d w st) s = execVqs d w st s := rfl
theorem exec_vqa (d : VReg) (st : StageNo) (s : State) : exec (.vqa d st) s = execVqa d st s := rfl
theorem exec_vqenc (d w : VReg) (s : State) : exec (.vqenc d w) s = execVqenc d w s := rfl
theorem exec_vqdec (d : VReg) (s : State) : exec (.vqdec d) s = execVqdec d s := rfl

/-- The three filters make the same checks (R223). -/
theorem exec_filter_eq_finish {i : Instr} {m c : VReg} {rs rd rn : SReg}
    (hi : i = .fir m c rs rd rn ∨ i = .iir m c rs rd rn ∨ i = .syn c rs rd rn) (s : State) :
    ∃ effect, exec i s = finish (filterTrap s rs rd rn) effect s := by
  obtain rfl | rfl | rfl := hi <;> dsimp only [exec] <;> exact ⟨_, rfl⟩

/-! ## BadOrder (R334) -/

theorem evenOrderTrap_of_not_legal {s : State} (hp : ¬ s.EvenOrderLegal) :
    evenOrderTrap s = some (.badOrder s.order) := by
  have hp' : ¬ (2 ≤ s.p ∧ s.p ≤ 16 ∧ s.p % 2 = 0) := hp
  exact evenOrderTrap_of_illegal (by omega)

/-- LSPROOT checks ORDER before GRID (R164). -/
theorem exec_lsproot_of_badOrder {s : State} (hp : ¬ s.EvenOrderLegal) (d a : VReg) :
    exec (.lsproot d a) s = .next (s.withFault 5 s.order.toNat) := by
  rw [exec_lsproot, ← takeFault_badOrder]
  exact finish_or_of_some (evenOrderTrap_of_not_legal hp) _ _ s

theorem exec_lsppoly_of_badOrder {s : State} (hp : ¬ s.EvenOrderLegal) (d a : VReg) :
    exec (.lsppoly d a) s = .next (s.withFault 5 s.order.toNat) := by
  rw [exec_lsppoly, ← takeFault_badOrder]
  exact finish_of_some (evenOrderTrap_of_not_legal hp) _ s

/-- Every instruction that uses ORDER checks it first (R299). -/
theorem exec_of_badOrder {s : State} (hp : ¬ s.OrderLegal) {i : Instr} (hi : usesOrder i = true) :
    exec i s = .next (s.withFault 5 s.order.toNat) := by
  have hpEven : ¬ s.EvenOrderLegal := fun h => hp ⟨by omega, h.2.1⟩
  cases i <;> dsimp only [exec]
  case lsproot d a => exact exec_lsproot_of_badOrder hpEven d a
  case lsppoly d a => exact exec_lsppoly_of_badOrder hpEven d a
  -- ORDER is the only check
  case vmov | vzero | vadd | vsub | vlerp | synrd | synwr | vqw | bwx => exact finish_order_of_illegal hp _
  -- further checks follow
  case vld | vst | lspmrg | vqs | vqa | vqenc | vqdec | fir | iir | syn => exact finish_order_or_of_illegal hp _ _
  -- the rest do not use ORDER
  all_goals exact absurd hi Bool.false_ne_true

/-- Settles O34: ORDER is the first check of each instruction that uses it. -/
theorem badOrderComesFirst : Obligations.BadOrderComesFirst := by
  intro s
  exact ⟨fun hp i hi => exec_of_badOrder hp hi,
    fun hp d a => ⟨exec_lsproot_of_badOrder hp d a, exec_lsppoly_of_badOrder hp d a⟩⟩

/-! ## The blocks of a filter (R332) -/

/-- Settles O35: with a legal ORDER the source block is the first check of a filter and the destination block the
second. -/
theorem filterBlocksAreRangeChecked : Obligations.FilterBlocksAreRangeChecked := by
  intro i m c rs rd rn s hi hp
  obtain ⟨effect, hexec⟩ := exec_filter_eq_finish hi s
  rw [hexec, filterTrap, finish_order_or_of_legal hp]
  constructor
  · intro hsrc
    exact finish_or_of_some (blockTrap_of_illegal hsrc) _ _ s
  · intro hsrc hdst
    rw [(blockTrap_eq_none_iff (s.regNat rs) (s.regNat rn)).2 hsrc, Option.none_or]
    exact finish_of_some (blockTrap_of_illegal hdst) _ s

/-! ## The checks of the quantizer's stages (R191, R197, R198) -/

/-- The lowest active stage that fails a check decides it. -/
theorem findSome?_stagesBelow {check : StageNo → Option Trap} {t : Trap} {n : Nat} (hn : n ≤ 8) {st : StageNo}
    (hst : st.val < n) (hbelow : ∀ u < st, check u = none) (hfail : check st = some t) :
    (stagesBelow n).findSome? check = some t := by
  induction n with
  | zero => exact absurd hst (Nat.not_lt_zero _)
  | succ n ih =>
    rw [stagesBelow_succ ⟨n, hn⟩, List.findSome?_append]
    obtain hlt | heq := Nat.lt_succ_iff_lt_or_eq.1 hst
    · rw [ih (by omega) hlt, Option.some_or]
    · obtain rfl : st = ⟨n, hn⟩ := Fin.ext heq
      have hnone : (stagesBelow n).findSome? check = none :=
        List.findSome?_eq_none_iff.2 fun u hu => hbelow u (mem_stagesBelow.1 hu)
      rw [hnone, Option.none_or, List.findSome?_singleton, hfail]

/-- Stage `st` is the lowest stage whose descriptor fails, with the fault `t`, and it is active. -/
structure State.FirstStageFault (s : State) (st : StageNo) (t : Trap) : Prop where
  nstg : s.nstg.toNat ≤ 8
  active : st.val < s.nstg.toNat
  below : ∀ u : StageNo, u < st → s.StageLegal u
  fails : stageTrap s st = some t

theorem State.FirstStageFault.findSome? {s : State} {st : StageNo} {t : Trap} (h : s.FirstStageFault st t) :
    s.stages.findSome? (stageTrap s) = some t :=
  findSome?_stagesBelow h.nstg h.active (fun u hu => (stageTrap_eq_none_iff s u).2 (h.below u hu)) h.fails

section
variable {s : State} (hp : s.OrderLegal)
include hp

/-- VQS and VQA check the descriptor of their stage (R195, R196). -/
theorem exec_stage_of_fault {st : StageNo} {t : Trap} (h : stageTrap s st = some t) (d w : VReg) :
    exec (.vqs d w st) s = .next (takeFault t s) ∧ exec (.vqa d st) s = .next (takeFault t s) :=
  ⟨(exec_vqs d w st s).trans ((finish_order_or_of_legal hp _ _).trans (finish_of_some h _ s)),
    (exec_vqa d st s).trans ((finish_order_or_of_legal hp _ _).trans (finish_or_of_some h _ _ s))⟩

/-- VQENC and VQDEC check NSTG before any stage (R197, R198). -/
theorem exec_stages_of_nstg (hn : s.nstg.toNat > 8) (d w : VReg) :
    exec (.vqenc d w) s = .next (s.withFault 6 4) ∧ exec (.vqdec d) s = .next (s.withFault 6 4) := by
  have htrap := nstgTrap_of_illegal hn
  rw [exec_vqenc, exec_vqdec, execVqenc, execVqdec, finish_order_or_of_legal hp, finish_order_or_of_legal hp]
  exact ⟨finish_or_of_some htrap _ _ s, finish_or_of_some htrap _ _ s⟩

/-- VQENC and VQDEC take the fault of the lowest stage whose descriptor fails (R197, R198). -/
theorem exec_stages_of_fault {st : StageNo} {t : Trap} (h : s.FirstStageFault st t) (d w : VReg) :
    exec (.vqenc d w) s = .next (takeFault t s) ∧ exec (.vqdec d) s = .next (takeFault t s) := by
  rw [exec_vqenc, exec_vqdec, execVqenc, execVqdec, finish_order_or_of_legal hp, finish_order_or_of_legal hp,
    (nstgTrap_eq_none_iff s).2 h.nstg, Option.none_or, Option.none_or]
  exact ⟨finish_of_some h.findSome? _ s, finish_or_of_some h.findSome? _ _ s⟩

/-- VQA checks its index once its descriptor has passed (R196). -/
theorem exec_vqa_of_index {st : StageNo} (hst : s.StageLegal st) (hidx : ¬ s.IndexLegal st) (d : VReg) :
    exec (.vqa d st) s = .next (s.withFault 8 (st.val * 65536 + s.idx[st].toNat)) := by
  rw [exec_vqa, execVqa, finish_order_or_of_legal hp, (stageTrap_eq_none_iff s st).2 hst, Option.none_or,
    ← takeFault_idxRange]
  exact finish_of_some (idxTrap_of_illegal (not_lt.1 hidx)) _ s

/-- VQDEC checks the indices once every descriptor has passed (R198). -/
theorem exec_vqdec_of_index {st : StageNo} (hn : s.nstg.toNat ≤ 8) (hst : st.val < s.nstg.toNat)
    (hlegal : ∀ u : StageNo, u.val < s.nstg.toNat → s.StageLegal u) (hbelow : ∀ u : StageNo, u < st → s.IndexLegal u)
    (hidx : ¬ s.IndexLegal st) (d : VReg) :
    exec (.vqdec d) s = .next (s.withFault 8 (st.val * 65536 + s.idx[st].toNat)) := by
  have hdescs : s.StagesLegal := fun u hu => hlegal u (mem_stagesBelow.1 hu)
  rw [exec_vqdec, execVqdec, finish_order_or_of_legal hp, (nstgTrap_eq_none_iff s).2 hn, Option.none_or,
    hdescs.findSome?, Option.none_or, ← takeFault_idxRange]
  exact finish_of_some (findSome?_stagesBelow hn hst (fun u hu => (idxTrap_eq_none_iff s u).2 (hbelow u hu))
    (idxTrap_of_illegal (not_lt.1 hidx))) _ s

end

/-! ## BadParam, TmemRange and IdxRange (R333, R335, R337) -/

theorem gridTrap_of_illegal {s : State} (h : s.grid.toNat = 0 ∨ s.grid.toNat > 1024) :
    gridTrap s = some (.badParam 1) :=
  if_pos (h.imp_left fun h0 => by omega)

theorem marginTrap_of_illegal {s : State} {rm : SReg} (h : ¬ s.MarginLegal rm) :
    marginTrap s rm = some (.badParam 2) :=
  if_pos ((not_and_or.1 h).imp not_le.1 not_le.1)

/-- Settles O36: each setting is checked by its own instructions in the order of R313. -/
theorem illegalSettingsRaiseBadParam : Obligations.IllegalSettingsRaiseBadParam := by
  intro s d a rm st
  simp only [← takeFault_badParam]
  refine ⟨fun hp hgrid => ?_, fun hp hmargin => ?_, fun hp hlanes => ?_, fun hp hn => ?_,
    fun hp hn hst hbelow hlanes => ?_⟩
  · rw [exec_lsproot, execLsproot, (evenOrderTrap_eq_none_iff s).2 hp, Option.none_or]
    exact finish_of_some (gridTrap_of_illegal hgrid) _ s
  · rw [exec_lspmrg, execLspmrg, finish_order_or_of_legal hp]
    exact finish_of_some (marginTrap_of_illegal hmargin) _ s
  · exact exec_stage_of_fault hp (stageTrap_of_lanes (not_le.1 hlanes)) d a
  · exact exec_stages_of_nstg hp hn d a
  · exact exec_stages_of_fault hp ⟨hn, hst, hbelow, stageTrap_of_lanes (not_le.1 hlanes)⟩ d a

/-- Settles O37: the table is the second test of a descriptor, and the indices come after every descriptor. -/
theorem tablesAndIndicesAreChecked : Obligations.TablesAndIndicesAreChecked := by
  intro s d a st hp last pair
  simp only [← takeFault_tmemRange]
  refine ⟨fun hlanes htable => ?_, fun hst hidx => exec_vqa_of_index hp hst hidx d,
    fun hn hst hbelow hlanes htable => ?_,
    fun hn hst hlegal hbelow hidx => exec_vqdec_of_index hp hn hst hlegal hbelow hidx d⟩
  · exact exec_stage_of_fault hp (stageTrap_of_table hlanes (not_le.1 htable)) d a
  · exact exec_stages_of_fault hp ⟨hn, hst, hbelow, stageTrap_of_table hlanes (not_le.1 htable)⟩ d a

/-! ## The CTRL commands (R328) -/

/-- ABORT, where its bit is set (R323). -/
theorem ctrlAbort_if (c : Bool) (s : State) :
    (if c then ctrlAbort s else s) =
      if c ∧ s.state = .running then { s with fcause := 15, fpc := s.pc, finfo := 0, state := .faulted } else s := by
  rw [ite_and]
  rfl

/-- CLR, where its bit is set: HERR is cleared, and then HALTED or FAULTED is left (R316). -/
theorem ctrlClr_if {c : Bool} {s u : State} (hu : u = if c then { s with herr := false } else s) :
    (if c then ctrlClr s else s) =
      if c ∧ (u.state = .halted ∨ u.state = .faulted) then { u with state := .idle, fcause := 0, fpc := 0, finfo := 0 }
      else u := by
  subst hu
  cases c with
  | false => rfl
  | true =>
    simp only [if_true, true_and]
    rfl

/-- Settles O55: each command acts on the state that the ones before it left. -/
theorem ctrlCommandsActInOrder : Obligations.CtrlCommandsActInOrder := by
  intro s v rest s0 s1 s2 s3 s4 hturn h0 h1 h2 h3 h4
  have hctrl : windowTarget 0x0401 = .csr 0x01 := windowTarget_csr (n := 1) (by decide) rfl
  have hstep : step s = .next (ctrlWrite v s0) := by
    rw [h0]
    exact step_hwrite hturn (hostWrite_ctrl hctrl rfl v _)
  have haborted : (if v.getLsbD 2 then ctrlAbort s0 else s0) = s1 := (ctrlAbort_if _ s0).trans h1.symm
  have hcleared : (if v.getLsbD 1 then ctrlClr s1 else s1) = s3 := (ctrlClr_if h2).trans h3.symm
  have hstarted : (if v.getLsbD 0 then ctrlStart s3 else s3) = s4 := h4.symm
  simp only [hstep, ctrlWrite, haborted, hcleared, hstarted]

/-! ## The interrupt line (R51, R320) -/

/-- Settles O59: the two terms of the level, and the fields of STATUS, which do not overlap. -/
theorem irqIsALevel : Obligations.IrqIsALevel := by
  intro s
  constructor
  · simp only [State.irq, Bool.or_eq_true, Bool.and_eq_true, beq_iff_eq]
  · have hcode := s.state.code.isLt
    have hherr := Bool.toNat_le s.herr
    have hirq := Bool.toNat_le s.irq
    rw [s.statusWord_eq, BitVec.toNat_ofNat, Nat.mod_eq_of_lt (by omega)]

end Sys2Proof.Machine
end

section
/-! PROOF. Reset, power-on and totality (`70_reset_and_hazards.md` R350 to R352, R361): nothing but a next state comes
out of a step, the state after power-on is legal, and a reset clears every register and no memory. -/

namespace Sys2Proof.Machine

open Sys2Proof

/-! ## Every step answers a next state (R138, R361) -/

/-- Every instruction is one list of checks before one effect (R315). -/
theorem exec_eq_finish (i : Instr) (s : State) : ∃ trap effect, exec i s = finish trap effect s := by
  cases i <;> dsimp only [exec]
  case csrr rd csr =>
    unfold execCsrr
    cases csrOf csr <;> exact ⟨_, _, rfl⟩
  case csrw rs csr =>
    unfold execCsrw
    cases csrOf csr <;> exact ⟨_, _, rfl⟩
  -- the other meanings are written as `finish`
  all_goals exact ⟨_, _, rfl⟩

theorem exec_next (i : Instr) (s : State) : ∃ t, exec i s = .next t := by
  obtain ⟨trap, effect, hexec⟩ := exec_eq_finish i s
  rw [hexec]
  exact finish_next trap effect s

/-- A running engine faults in its fetch or runs an instruction, and one that is not running rests (R255). -/
theorem engineStep_next (s : State) : ∃ t, engineStep s = .next t := by
  by_cases hrun : s.state = .running
  · cases hfetch : fetchInstr s with
    | error trap => exact ⟨_, engineStep_of_fetch_error hrun hfetch⟩
    | ok i =>
      rw [engineStep_of_fetch hrun hfetch]
      exact exec_next i s
  · exact ⟨s, engineStep_of_not_running hrun⟩

/-- A host operation is a function of the state, a refused one too (R105). -/
theorem step_next (s : State) : ∃ t, step s = .next t := by
  by_cases hturn : s.EngineNext
  · rw [step_of_engineNext hturn]
    exact engineStep_next s.turnTaken
  · obtain ⟨op, hop⟩ := step_of_not_engineNext hturn
    exact ⟨_, hop⟩

/-- Settles O10: every meaning ends in `finish`, and a step is the engine's or one host operation. -/
theorem everyStepAnswersNext : Obligations.EveryStepAnswersNext := ⟨exec_next, step_next⟩

/-! ## Power-on (R351, R352) -/

/-- Power-on records no fault and no root, so the contents of the memories decide. -/
theorem legal_powerOn_iff (imem dmem tmem : Memory) :
    (State.powerOn imem dmem tmem).Legal ↔ (State.powerOn imem dmem tmem).MemoriesCanonical := by
  have hfault : (State.powerOn imem dmem tmem).FaultConsistent :=
    (State.faultConsistent_iff_of_not_faulted (show RunState.idle ≠ .faulted by decide)).2 ⟨rfl, rfl, rfl⟩
  exact ⟨fun ⟨_, hmem, _⟩ => hmem, fun hmem => ⟨hfault, hmem, Nat.zero_le _⟩⟩

/-- A memory that lists no byte is canonical at every size. -/
theorem Memory.canonical_nil (words : Nat) : Memory.wf [] ∧ Memory.within [] words :=
  ⟨⟨List.Pairwise.nil, List.forall_mem_nil _⟩, List.forall_mem_nil _⟩

/-- Settles O16: reset is power-on with three memories that list nothing. -/
theorem resetIsLegal : Obligations.ResetIsLegal := by
  constructor
  · exact (legal_powerOn_iff [] [] []).2
      ⟨Memory.canonical_nil _, Memory.canonical_nil _, Memory.canonical_nil _⟩
  · intro imem dmem tmem hiwf hiin hdwf hdin htwf htin
    exact (legal_powerOn_iff imem dmem tmem).2 ⟨⟨hiwf, hiin⟩, ⟨hdwf, hdin⟩, ⟨htwf, htin⟩⟩

/-! ## Reset (R350, R351) -/

theorem State.resetRegisters_r_getElem (s : State) (i : SReg) : s.resetRegisters.r[i] = 0 :=
  Vector.getElem_replicate i.isLt

theorem State.resetRegisters_v_getElem (s : State) (i : VReg) (k : Fin 16) : (s.resetRegisters.v[i])[k] = 0 := by
  have hreg : s.resetRegisters.v[i] = Vector.replicate 16 0 := Vector.getElem_replicate i.isLt
  rw [hreg]
  exact Vector.getElem_replicate k.isLt

theorem State.resetRegisters_synmem_getElem (s : State) (k : Fin 16) : s.resetRegisters.synmem[k] = 0 :=
  Vector.getElem_replicate k.isLt

/-- The descriptors and the indices of the quantizer's stages (R64 to R66). -/
theorem State.resetRegisters_stage (s : State) (st : StageNo) :
    s.resetRegisters.sdbase[st] = 0 ∧ s.resetRegisters.sdcfg[st] = 0 ∧ s.resetRegisters.idx[st] = 0 :=
  ⟨Vector.getElem_replicate st.isLt, Vector.getElem_replicate st.isLt, Vector.getElem_replicate st.isLt⟩

/-- With no interrupt enabled the line is low (R320). -/
theorem State.irq_of_ien_zero {s : State} (h : s.ien = 0) : s.irq = false := by
  simp [State.irq, h]

/-- STATUS of an idle engine with nothing to report (R51). -/
theorem State.statusWord_eq_zero {s : State} (hstate : s.state = .idle) (hherr : s.herr = false)
    (hirq : s.irq = false) : s.statusWord = 0 := by
  rw [State.statusWord, hstate, hherr, hirq]
  rfl

/-- The reset input and SRST are one operation (R350, R328): whatever the other bits of CTRL say, SRST acts alone. -/
theorem step_of_reset {s : State} {v : Word} {rest : List Turn}
    (h : s.turns = .host .reset :: rest ∨ (s.turns = .host (.hwrite 0x0401 v) :: rest ∧ v.getLsbD 3 = true)) :
    step s = .next (State.resetRegisters { s with turns := rest }) := by
  obtain hinput | ⟨hwrite, hsrst⟩ := h
  · simp only [step, hinput, hostStep]
  · have hctrl : windowTarget 0x0401 = .csr 0x01 := windowTarget_csr (n := 1) (by decide) rfl
    rw [step_hwrite hwrite (hostWrite_ctrl hctrl rfl v _), ctrlWrite, if_pos hsrst]

theorem State.resetRegisters_irq (s : State) : s.resetRegisters.irq = false := State.irq_of_ien_zero (by simp)

theorem State.resetRegisters_statusWord (s : State) : s.resetRegisters.statusWord = 0 :=
  State.statusWord_eq_zero (by simp) (by simp) s.resetRegisters_irq

/-- After a reset the engine waits for START (R255, R328). -/
theorem engineStep_resetRegisters (s : State) : engineStep s.resetRegisters = .next s.resetRegisters :=
  engineStep_of_not_running (by simp)

/-- Settles O56: either cause steps to the reset registers. The vectors are zeros throughout, the single registers are 0
by what reset is, and `irq`, STATUS and the engine follow from IEN, HERR and STATE. -/
theorem resetClearsRegistersOnly : Obligations.ResetClearsRegistersOnly := by
  intro s v rest h
  exact ⟨_, step_of_reset h, State.resetRegisters_r_getElem _, State.resetRegisters_v_getElem _,
    State.resetRegisters_synmem_getElem _, rfl, rfl, rfl, rfl, rfl, rfl, rfl, rfl, rfl, rfl, rfl, rfl, rfl, rfl, rfl,
    rfl, rfl, rfl, State.resetRegisters_stage _, rfl, rfl, rfl, rfl, rfl, State.resetRegisters_irq _,
    State.resetRegisters_statusWord _, engineStep_resetRegisters _⟩

end Sys2Proof.Machine
end
